-- ==== Sys2Proof/Word.lean ====
section
/-! DEFINITION. The widths the spec gives: bytes of the registers and of data memory, words of program memory,
and the two kinds of address (spec/00_scope.md rule R1, spec/20_memory.md rule R60). -/

namespace Sys2Proof

/-- A register, a flag byte or a cell of data memory (rules R1, R61). -/
abbrev Byte := BitVec 8

/-- A word of program memory, an instruction word (rules R67, R90). -/
abbrev Word := BitVec 16

/-- An address of data memory: page byte and offset byte (rule R61). -/
abbrev DAddr := BitVec 16

/-- An address of program memory, counting words: PC, IL, a long target (rules R34, R67). -/
abbrev PAddr := BitVec 20

end Sys2Proof
end

