-- ==== Sys2Proof/Config.lean ====
section
/-! DEFINITION. The parameters of spec/00_scope.md rule R4 as one record of plain data, `Chip`, the values the
model gives it at reset, and the free values: constants without a body, of which nothing can be proved. -/

namespace Sys2Proof

/-- SLA_N_RULE: N after SLA (rule R181, spec/92_eei_decisions.md D14). -/
inductive SlaNRule where
  /-- N is bit 7 of the result: the default, the source's text. -/
  | msb
  /-- N is V xor bit 7 of the result: the source's example. -/
  | vXorMsb
  deriving DecidableEq, Repr

/-- LOGIC_C_RULE: C after `AND GPRd, GPRs` (rules R144, R304, D15). -/
inductive LogicCRule where
  /-- C keeps its value: the default. -/
  | keep
  /-- The register-register AND clears C, as the text on RCF needs. -/
  | andRRClears
  deriving DecidableEq, Repr

/-- IDM_NEG0: the offset field 00000 in the two minus modes of `@idm` (rule R65, D17). -/
inductive IdmNeg0Rule where
  /-- The instruction has no meaning: the default. -/
  | refuse
  /-- "minus zero": the displacement is 0. -/
  | zero
  /-- The field extended with ones: the displacement is -32. -/
  | minus32
  deriving DecidableEq, Repr

/-- IRQ_PRIORITY: which of two deliverable interrupts is taken (rule R322, D12). -/
inductive IrqPriority where
  /-- Interrupt 0 first: the default. -/
  | irq0First
  /-- Interrupt 1 first. -/
  | irq1First
  deriving DecidableEq, Repr

/-- A vector: the address of the first instruction executed after an entry or reset, one address or a function of the
program image, as of a chip that fetches it from a table there (rules R73, R323, D10). -/
inductive VectorRule where
  /-- This address, whatever the image. -/
  | fixed (a : PAddr)
  /-- Function number k of the program image, any function: `Config.imageVector k` (log entry 8). -/
  | ofImage (k : Nat)
  deriving DecidableEq, Repr

/-- What a push beyond HS_DEPTH does (rules R44, R324, D3, D32). -/
inductive StackFullRule where
  /-- It has no meaning: the spec's own model, the default. -/
  | refuse
  /-- Rule R324's variant: the stack-full exception, entered at the boundary after the push, with VEC_SF. -/
  | trap (vecSf : VectorRule)
  deriving DecidableEq, Repr

/-- Two of the four bits IR[5:2] of `LD GPR:bankd, GPR:banks`, the higher one named first (rule R127). -/
inductive BankPair where
  | ir54 | ir53 | ir52 | ir43 | ir42 | ir32
  deriving DecidableEq, Repr, Inhabited

/-- BANKLD_FIELDS: which bit of `bankd` and of `banks` each of IR[5:2] is, any of the 24 placements (rules R4, R127, D9). -/
structure BankFields where
  /-- The two bits that are `bankd`; the other two are `banks`. -/
  bankdAt : BankPair
  /-- `bankd[1]` is the lower of its two bits, not the higher. -/
  bankdReversed : Bool
  /-- `banks[1]` is the lower of its two bits, not the higher. -/
  banksReversed : Bool
  deriving DecidableEq, Repr, Inhabited

/-- The parameters of rule R4 that are constant over a run. They stand in the state because the host fixes the type
of `exec`; no step changes them (log entry 1). -/
structure Chip where
  /-- NP64KW: the program occupies 64K words or more (rule R231 (c), D1). -/
  np64kw : Bool
  /-- HS_DEPTH: slots a program may fill, at most 64 (rule R44, D4). -/
  hsDepth : Fin 65
  /-- DM_MAPPED: the ranges of data addresses, first and last, that are NOT mapped (rule R66, D5). -/
  dmUnmapped : List (Nat × Nat)
  /-- PM_MAPPED: the ranges of program addresses that are NOT mapped (rule R67, D5). -/
  pmUnmapped : List (Nat × Nat)
  /-- BM_SELECT: bit k says whether the select field k means BMS (1) or BMC (0) (rule R126, D8). -/
  bmSelect : BitVec 16
  /-- BANKLD_FIELDS: where the bits of `bankd` and `banks` stand (rule R127, D9). -/
  bankFields : BankFields
  /-- VEC_RESET (rule R350, D13). -/
  vecReset : VectorRule
  /-- VEC_IRQ0 (rule R323, D10). -/
  vecIrq0 : VectorRule
  /-- VEC_IRQ1 (rule R323, D10). -/
  vecIrq1 : VectorRule
  /-- What a push beyond HS_DEPTH does, with VEC_SF where it traps (rule R324). -/
  stackFull : StackFullRule
  /-- SLA_N_RULE (rule R181). -/
  slaN : SlaNRule
  /-- LOGIC_C_RULE (rule R144). -/
  logicC : LogicCRule
  /-- IDM_NEG0 (rule R65). -/
  idmNeg0 : IdmNeg0Rule
  /-- IRQ_PRIORITY (rule R322). -/
  irqPriority : IrqPriority
  /-- WAKE_MASKED: a requested but disabled interrupt ends STOP and IDLE (rule R333, D31). -/
  wakeMasked : Bool
  /-- The platform decodes `SYS #0Ah` and `SYS #05h` as STOP and IDLE (rule R333). -/
  decodesStopIdle : Bool
  deriving DecidableEq, Repr

namespace Config

/-- BM_SELECT of the chip at reset: open, so a free value (log entry 6). -/
opaque bmSelect : BitVec 16

/-- BANKLD_FIELDS of the chip at reset: open, so a free value (log entry 7). -/
opaque bankFields : BankFields

/-- EC[2:0] during step number n: any value (rule R230, D2; log entry 26). -/
opaque freeEc : Nat → BitVec 3

/-- The Stack Full condition during step number n: any value (rule R324, D3; log entry 26). -/
opaque freeSf : Nat → Bool

/-- IRQ0 at the boundary of step number n: any value (rule R320, D12; log entry 26). -/
opaque freeIrq0 : Nat → Bool

/-- IRQ1 at the boundary of step number n: any value (rule R320, D12; log entry 26). -/
opaque freeIrq1 : Nat → Bool

/-- The byte the coprocessor answers in step number n (rule R69, D19; log entry 28). -/
opaque freeCopByte : Nat → Byte

/-- The byte a read of unmapped data memory gives in step number n (rule R66, D29; log entry 27). -/
opaque freeOpenBus : Nat → Byte

/-- Register number k after a reset taken at step number n (rule R350: "unspecified"; log entry 29). -/
opaque freeResetByte : Nat → Nat → Byte

/-- TF after a reset taken at step number n (rules R48, R350; log entry 29). -/
opaque freeResetTf : Nat → Bool

/-- What data memory holds after a reset taken at step number n (rules R48, R350; log entry 29). -/
opaque freeResetCells : Nat → List (Nat × Byte)

/-- The address that function number k takes from the program image, the list of its words other than 0000h: any
address (rules R323, R350, D10; log entry 8). -/
opaque imageVector : Nat → List (Nat × Word) → PAddr

/-- SR0_RESET (rules R4, R48, D13). -/
def sr0Reset : Byte := 0x00#8

/-- SPTR_RESET (rules R4, R48, D13). -/
def sptrReset : BitVec 6 := 0#6

/-- The parameters at reset: the defaults of rule R4, the values the spec's own test vectors take
(spec/95_test_vectors.md), and the one hole of the one chip the source names (rule R66). Log entries 1 to 15. -/
def chip : Chip :=
  { np64kw := true
    hsDepth := 64
    dmUnmapped := [(0x0051, 0x007F)]
    pmUnmapped := []
    bmSelect := bmSelect
    bankFields := bankFields
    vecReset := .fixed 0x00000#20
    vecIrq0 := .fixed 0x00010#20
    vecIrq1 := .fixed 0x00020#20
    stackFull := .refuse
    slaN := .msb
    logicC := .keep
    idmNeg0 := .refuse
    irqPriority := .irq0First
    wakeMasked := false
    decodesStopIdle := true }

end Config

/-- The address a vector is, with this program image. -/
def VectorRule.address (image : List (Nat × Word)) : VectorRule → PAddr
  | .fixed a => a
  | .ofImage k => Config.imageVector k image

end Sys2Proof
end

