-- ==== Sys2Proof/Machine/State.lean ====
section
/-! DEFINITION. The state of the machine as plain data: everything spec/10_state.md names, the memories, the run
state of spec/60_exceptions.md, the inputs of the current step, the parameters; the reasons a step can stop; and the
state right after reset. -/

namespace Sys2Proof.Machine

/-- Why the machine stops: an access to a place the spec says does not exist or holds no value. Each is one of the
spec's `refuse` cases, a run without defined continuation, and so safe: no claim follows from it. -/
inductive Fault where
  /-- A fetch or LDC from unmapped program memory (rule R67). Raised by the fetch, LDC and LDC+. Safe. -/
  | pmUnmapped
  /-- A write to unmapped data memory (rule R66). Raised by the stores and BITS, BITR, BITC. Safe. -/
  | dmUnmappedWrite
  /-- A push beyond HS_DEPTH or a pop below the bottom of the hardware stack (rules R44, R324). Raised by PUSH, POP,
  CALLS, LCALL, RET, IRET and by taking an interrupt. Safe. -/
  | hsRange
  /-- A pop of a part of a stack slot that the last push left unspecified (rule R40). Raised by POP, RET, IRET. Safe. -/
  | hsMixedWidth
  deriving DecidableEq, Repr

/-- Why an instruction has no meaning: the source gives it none. Safe: a run ends there. -/
inductive Refusal where
  /-- The model gives this instruction no meaning; raised by no arm of `exec`. Safe. -/
  | notModelled (mnemonic : String)
  /-- A word marked "invalid" (rule R119). Raised by `step`. Safe. -/
  | invalidInstruction
  /-- A code marked "reserved" (rule R120). Raised by `step`. Safe. -/
  | reservedInstruction
  /-- PUSH GPR or POP GPR with two different register fields (rule R128). Raised by `step`. Safe. -/
  | pushPopFieldsDiffer
  /-- SWAP with SR0 or SR1 (rule R280). Raised by SWAP. Safe. -/
  | swapStatusRegister
  /-- A minus mode of `@idm` with the offset field 00000 under IDM_NEG0 = refuse (rule R65). Raised by the `@idm`
  forms. Safe. -/
  | idmMinusZero
  /-- JNZD taken with imm:8 = 00h (rule R236). Raised by JNZD. Safe. -/
  | jnzdZeroOffset
  /-- A JNZD delay slot whose instruction is not 1W1C (rule R236). Raised by `step`. Safe. -/
  | delaySlotNotOneCycle
  deriving DecidableEq, Repr

/-- One bank of index registers (rules R24, R25). -/
structure IndexBank where
  idh : Byte
  idl0 : Byte
  idl1 : Byte
  deriving DecidableEq, Repr

/-- One slot of the hardware stack: 20 bits of which a part may hold the mark `unspecified` (rule R40). -/
inductive HsSlot where
  /-- No part is specified: the slot above an address, or one nothing was pushed to. -/
  | unspecified
  /-- Bits [7:0], from a byte push. -/
  | byte (v : Byte)
  /-- Bits [15:0], from an address push with NP64KW = 0. -/
  | addr16 (a : Word)
  /-- Bits [19:0], from an address push with NP64KW = 1. -/
  | addr20 (a : PAddr)
  deriving DecidableEq, Repr

/-- Which of the two power states (rules R305, R306, R333). -/
inductive HaltMode where
  | stop | idle
  deriving DecidableEq, Repr

/-- Whether the core executes instructions (rules R47, R333, R334). -/
inductive RunState where
  | running
  /-- Stopped or idle: no instruction executes, left by an interrupt request or by reset. -/
  | halted (m : HaltMode)
  /-- After BREAK: left by reset only. -/
  | locked
  deriving DecidableEq, Repr

/-- What the core's outputs show, one event per instruction that drives them (rule R69). -/
inductive CoreEvent where
  /-- `Signal(SYSCP[7:0] = code, nSYSID)`. -/
  | sys (code : Byte)
  /-- `CopRead(adr)` with `Signal(SYSCP[7:0] = adr, nCLDID, CLDWR = read)`. -/
  | copRead (adr : Byte)
  /-- `CopWrite(adr, v)` with `Signal(SYSCP[7:0] = adr, nCLDID, CLDWR = write)`. -/
  | copWrite (adr : Byte) (v : Byte)
  /-- `Signal(SYSCP[11:0] = code, nCOPID)`. -/
  | cop (code : BitVec 12)
  deriving DecidableEq, Repr

/-- What the world outside the core presents during one step: any values (rules R45, R66, R69, R230, R320). -/
structure Inputs where
  /-- EC[2:0]. -/
  ec : BitVec 3
  /-- The Stack Full condition. -/
  sf : Bool
  /-- The two interrupt requests. -/
  irq0 : Bool
  irq1 : Bool
  /-- The byte the coprocessor answers to a CLD read. -/
  copByte : Byte
  /-- The byte a read of unmapped data memory gives. -/
  openBus : Byte
  deriving DecidableEq, Repr

/-- The machine's state. -/
structure State where
  /-- R0 to R3 of banks 0 to 3: Rn of bank b at index 4 b + n (rule R20). -/
  gpr : Vector Byte 16
  /-- IDH, IDL0, IDL1 of index banks 0 and 1 (rules R24, R25). -/
  idx0 : IndexBank
  idx1 : IndexBank
  /-- Status Register 0 (rule R26). -/
  sr0 : Byte
  /-- The link register IL = ILX:ILH:ILL (rule R28). -/
  ilx : Byte
  ilh : Byte
  ill : Byte
  /-- Status Register 1, the flags (rules R30, R31). -/
  sr1 : Byte
  /-- The table registers (rule R29). -/
  tbh : Byte
  tbl : Byte
  /-- The hidden flag TF (rule R33). -/
  tf : Bool
  /-- The program counter (rule R34). -/
  pc : PAddr
  /-- The stack pointer, 6 bits, arithmetic modulo 64 (rules R39, R44). -/
  sptr : BitVec 6
  /-- The model's own: all 64 slots are in use and `sptr` has wrapped to 0 (log entry 24). -/
  hsFull : Bool
  /-- The hardware stack (rules R39, R40). -/
  hs : Vector HsSlot 64
  /-- Data memory, in canonical form (rule R61). -/
  dm : List Host.Cell
  /-- Program memory, in canonical form (rule R67). -/
  pm : List (Nat × Word)
  /-- The jump pending while a delay slot executes (rules R47, R236). -/
  delay : Option PAddr
  /-- STOP or IDLE has executed and its one following instruction has not (rule R333). -/
  haltAfter : Option HaltMode
  /-- Running, halted or locked (rule R47). -/
  run : RunState
  /-- The stack-full exception waits for its boundary (rule R324's variant). -/
  sfPending : Bool
  /-- Reset is requested; the step that serves it withdraws it (rule R350). -/
  resetPin : Bool
  /-- The inputs of this step (rule R45). -/
  inputs : Inputs
  /-- The model's own: the number of this step, which picks the free values of its inputs. -/
  tick : Nat
  /-- The events on the outputs, the newest first (rules R46, R69). -/
  events : List CoreEvent
  /-- The chip's parameters, which no step changes (rule R4). -/
  chip : Chip
  deriving DecidableEq, Repr

/-- An index bank of zeros: the model's choice for reset (log entry 21). -/
def IndexBank.zero : IndexBank := { idh := 0#8, idl0 := 0#8, idl1 := 0#8 }

/-- The inputs of step number n: free values, those of the first step after reset too (rules R45, R66, R69, R230, R320;
log entry 26). -/
def inputsAt (n : Nat) : Inputs :=
  { ec := Config.freeEc n
    sf := Config.freeSf n
    irq0 := Config.freeIrq0 n
    irq1 := Config.freeIrq1 n
    copByte := Config.freeCopByte n
    openBus := Config.freeOpenBus n }

/-- The machine right after reset: SR0, `sptr`, PC, and no pending target, lock or halt as rules R48 and R350 say;
every stack slot `unspecified`; memories with nothing listed; every register the spec gives no value at zero; the inputs
of the first step free (log entries 1 to 15, 21 to 26). That no stack-full exception waits is the model's choice, of
which rules R48, R324 and R350 say nothing (log entry 29). -/
def State.reset : State :=
  { gpr := Vector.replicate 16 0#8
    idx0 := IndexBank.zero
    idx1 := IndexBank.zero
    sr0 := Config.sr0Reset
    ilx := 0#8
    ilh := 0#8
    ill := 0#8
    sr1 := 0#8
    tbh := 0#8
    tbl := 0#8
    tf := false
    pc := Config.chip.vecReset.address []
    sptr := Config.sptrReset
    hsFull := false
    hs := Vector.replicate 64 HsSlot.unspecified
    dm := []
    pm := []
    delay := none
    haltAfter := none
    run := .running
    sfPending := false
    resetPin := false
    inputs := inputsAt 0
    tick := 0
    events := []
    chip := Config.chip }

end Sys2Proof.Machine
end

