-- ==== Sys2Proof/Machine/Flags.lean ====
section
/-! DEFINITION. The four flags of SR1 and how results set them (spec/10_state.md rules R30 to R32, spec/00_scope.md rules
R9 to R11). -/

namespace Sys2Proof.Machine

/-! ### The flags: C = SR1[0], Z = SR1[1], V = SR1[2], N = SR1[3] (rule R31) -/

def State.c (s : State) : Bool := s.sr1.getLsbD 0
def State.z (s : State) : Bool := s.sr1.getLsbD 1
def State.v (s : State) : Bool := s.sr1.getLsbD 2
def State.n (s : State) : Bool := s.sr1.getLsbD 3

/-- Writes all four flags; SR1[7:4] keep their values. -/
def State.setFlags (c z v n : Bool) (s : State) : State :=
  { s with
    sr1 := s.sr1.extractLsb' 4 4 ++ BitVec.ofBool n ++ BitVec.ofBool v ++ BitVec.ofBool z ++ BitVec.ofBool c }

/-- The outcome of the 8-bit addition: sum, carry, signed overflow (rule R9). -/
structure Sum where
  r : Byte
  c : Bool
  v : Bool
  deriving DecidableEq, Repr

/-- `AddC(a, b, cin)` (rule R9). -/
def addC (a b : Byte) (cin : Bool) : Sum :=
  let t : BitVec 9 := a.setWidth 9 + b.setWidth 9 + (BitVec.ofBool cin).setWidth 9
  let r : Byte := t.setWidth 8
  { r := r, c := t.msb, v := a.msb == b.msb && r.msb != a.msb }

/-- `ArithFlags`: C, Z, V and N = V xor bit 7 of the result (rule R10). -/
def State.arithFlags (o : Sum) (s : State) : State := s.setFlags o.c (o.r == 0#8) o.v (o.v ^^ o.r.msb)

/-- `LogicFlags`: Z and N = bit 7; C and V keep their values (rule R11). -/
def State.logicFlags (r : Byte) (s : State) : State := s.setFlags s.c (r == 0#8) s.v r.msb

/-- The flags of a shift or rotate but SLA: C, Z and N = bit 7; V keeps its value (rule R180). -/
def State.shiftFlags (r : Byte) (c : Bool) (s : State) : State := s.setFlags c (r == 0#8) s.v r.msb

/-- Z alone (rules R260, R264). -/
def State.zFlag (z : Bool) (s : State) : State := s.setFlags s.c z s.v s.n

/-- C alone cleared (rule R304, LOGIC_C_RULE = AND_RR_CLEARS). -/
def State.clearC (s : State) : State := s.setFlags false s.z s.v s.n

end Sys2Proof.Machine
end

