-- ==== Sys2Proof/Syntax.lean ====
section
/-! DEFINITION. The instructions: one constructor of `Instr` per row of spec/opcode_table.json, in the table's order,
with its operands as names, not as encodings (spec/30_encoding.md rules R92 to R98). -/

namespace Sys2Proof

/-- R0 to R3 of a bank (rule R20). -/
inductive Gpr where
  | r0 | r1 | r2 | r3
  deriving DecidableEq, Repr

/-- The eight special purpose registers (rule R23). -/
inductive Spr where
  | idl0 | idl1 | idh | sr0 | ilx | ilh | ill | sr1
  deriving DecidableEq, Repr

/-- The group SPR0, which `LD SPR0, #imm:8` can load (rules R23, R206). -/
inductive Spr0 where
  | idl0 | idl1 | idh | sr0
  deriving DecidableEq, Repr

/-- The index register of an `@idm` operand (rule R64, Table 7-4). -/
inductive IdxReg where
  | id0 | id1
  deriving DecidableEq, Repr

/-- The four modes of an `@idm` operand (rule R64, Table 7-5). -/
inductive IdmMode where
  /-- `@IDx + offset:5`, the access before the update. -/
  | postInc
  /-- `@[IDx - offset:5]`, the access after the update. -/
  | preDec
  /-- `@[IDx + offset:5]!`, no update. -/
  | plus
  /-- `@[IDx - offset:5]!`, no update. -/
  | minus
  deriving DecidableEq, Repr

/-- An `@idm` operand: index register, mode and the offset field as it stands in the word (rules R64, R65). -/
structure Idm where
  idx : IdxReg
  mode : IdmMode
  off : BitVec 5
  deriving DecidableEq, Repr

/-- The sixteen condition codes of Table 7-6 (rule R230). -/
inductive Cond where
  | always | nc | c | z | nz | ov | ule | ugt | zp | mi | pl | zn | sf | ec0 | ec1 | ec2
  deriving DecidableEq, Repr

/-- The instructions. `imm`, `adr` are immediates and direct addresses, `d` the GPR in IR[9:8], `g` the GPR in IR[1:0],
`bs` a bit number, `sel` the four bits that tell BMS from BMC (rule R126). -/
inductive Instr where
  | addImm (d : Gpr) (imm : Byte)
  | subImm (d : Gpr) (imm : Byte)
  | cpImm (d : Gpr) (imm : Byte)
  | ldImm (d : Gpr) (imm : Byte)
  | tmImm (d : Gpr) (imm : Byte)
  | andImm (d : Gpr) (imm : Byte)
  | orImm (d : Gpr) (imm : Byte)
  | xorImm (d : Gpr) (imm : Byte)
  | addIdm (d : Gpr) (m : Idm)
  | subIdm (d : Gpr) (m : Idm)
  | cpIdm (d : Gpr) (m : Idm)
  | ldIdm (d : Gpr) (m : Idm)
  | stIdm (m : Idm) (d : Gpr)
  | andIdm (d : Gpr) (m : Idm)
  | orIdm (d : Gpr) (m : Idm)
  | xorIdm (d : Gpr) (m : Idm)
  | addAdr (d : Gpr) (adr : Byte)
  | subAdr (d : Gpr) (adr : Byte)
  | cpAdr (d : Gpr) (adr : Byte)
  | ldAdr (d : Gpr) (adr : Byte)
  | bitt (adr : Byte) (bs : BitVec 3)
  | bits (adr : Byte) (bs : BitVec 3)
  | adcAdr (d : Gpr) (adr : Byte)
  | sbcAdr (d : Gpr) (adr : Byte)
  | cpcAdr (d : Gpr) (adr : Byte)
  | stAdr (adr : Byte) (d : Gpr)
  | bitr (adr : Byte) (bs : BitVec 3)
  | bitc (adr : Byte) (bs : BitVec 3)
  | ldSpr0Imm (r : Spr0) (imm : Byte)
  | andAdr (d : Gpr) (adr : Byte)
  | orAdr (d : Gpr) (adr : Byte)
  | xorAdr (d : Gpr) (adr : Byte)
  | addReg (d g : Gpr)
  | subReg (d g : Gpr)
  | cpReg (d g : Gpr)
  | adcReg (d g : Gpr)
  | sbcReg (d g : Gpr)
  | cpcReg (d g : Gpr)
  | andReg (d g : Gpr)
  | orReg (d g : Gpr)
  | xorReg (d g : Gpr)
  | bms (sel : BitVec 4)
  | bmc (sel : BitVec 4)
  | sla (d : Gpr)
  | sl (d : Gpr)
  | rlc (d : Gpr)
  | rl (d : Gpr)
  | sra (d : Gpr)
  | sr (d : Gpr)
  | rrc (d : Gpr)
  | rr (d : Gpr)
  | inc (d : Gpr)
  | incc (d : Gpr)
  | dec (d : Gpr)
  | decc (d : Gpr)
  | com (d : Gpr)
  | com2 (d : Gpr)
  | comc (d : Gpr)
  | ldSprGpr (r : Spr) (d : Gpr)
  | ldGprSpr (d : Gpr) (r : Spr)
  | swap (d : Gpr) (r : Spr)
  | ldTbl (d : Gpr)
  | ldTbh (d : Gpr)
  | pushSpr (r : Spr)
  | popSpr (r : Spr)
  | pushGpr (d : Gpr)
  | popGpr (d : Gpr)
  | ldReg (d g : Gpr)
  | ldFromTbl (d : Gpr)
  | ldFromTbh (d : Gpr)
  | pop
  | ldc
  | ldcInc
  | lret
  | ret
  | iret
  | nop
  | brk
  | ldBank (bankd : BitVec 2) (d : Gpr) (banks : BitVec 2) (g : Gpr)
  | andSr0 (imm : Byte)
  | orSr0 (imm : Byte)
  | bank (imm : BitVec 2)
  | lcall (cc : Cond) (imm : PAddr)
  | llnk (cc : Cond) (imm : PAddr)
  | ljp (cc : Cond) (imm : PAddr)
  | jr (cc : Cond) (imm : BitVec 9)
  | calls (imm : BitVec 12)
  | lnks (imm : BitVec 12)
  | cldLoad (d : Gpr) (imm : Byte)
  | cldStore (imm : Byte) (d : Gpr)
  | jnzd (n : Gpr) (imm : Byte)
  | sys (imm : Byte)
  | cop (imm : BitVec 12)
  deriving DecidableEq, Repr

/-- Why a word is no instruction (rules R119, R120, R128). -/
inductive DecodeError where
  /-- A word Tables 7-2 and 7-3 mark "invalid" (rule R119). -/
  | invalid
  /-- ALUop2 code 111 and MODop1 codes 101 to 111, "reserved" (rule R120). -/
  | reserved
  /-- PUSH GPR or POP GPR with different numbers in IR[9:8] and IR[1:0] (rule R128). -/
  | fieldsDiffer
  deriving DecidableEq, Repr

end Sys2Proof
end

