-- ==== Sys2Proof/Machine/Ops.lean ====
section
/-! DEFINITION. The named operations over registers, the program counter, the memories, the hardware stack, the core's
outputs, and the exceptions: taking one, returning from one, and reset. Every meaning is written over these. -/

namespace Sys2Proof.Machine

/-- What an operation answers: a value, or the reason the machine stops. -/
abbrev Res (α : Type) := Host.Outcome α Fault Refusal

/-- One operation after another; the first stop ends both. -/
def andThen {α β : Type} (o : Res α) (f : α → Res β) : Res β :=
  match o with
  | .next a => f a
  | .fault e => .fault e
  | .refused r => .refused r

/-! ### Memory: a list of cells, addresses strictly rising, no cell equal to what an unlisted address reads as -/

/-- What an unlisted address reads as (log entries 22 and 23). -/
def memUnlisted {w : Nat} : BitVec w := 0#w

/-- The cell at an address. -/
def memRead {w : Nat} : List (Nat × BitVec w) → Nat → BitVec w
  | [], _ => memUnlisted
  | (k, v) :: rest, a => if k = a then v else memRead rest a

/-- Writes a cell, keeping the canonical form. -/
def memWrite {w : Nat} : List (Nat × BitVec w) → Nat → BitVec w → List (Nat × BitVec w)
  | [], a, v => if v = memUnlisted then [] else [(a, v)]
  | (k, u) :: rest, a, v =>
    if a < k then (if v = memUnlisted then (k, u) :: rest else (a, v) :: (k, u) :: rest)
    else if a = k then (if v = memUnlisted then rest else (a, v) :: rest)
    else (k, u) :: memWrite rest a v

/-- The canonical form, with every address from `lo` on and below `bound`. -/
def memWfFrom {w : Nat} (bound : Nat) : Nat → List (Nat × BitVec w) → Bool
  | _, [] => true
  | lo, (k, v) :: rest => decide (lo ≤ k) && decide (k < bound) && decide (v ≠ memUnlisted) && memWfFrom bound (k + 1) rest

/-- The canonical form of a memory of `bound` cells. -/
def memWf {w : Nat} (bound : Nat) (m : List (Nat × BitVec w)) : Bool := memWfFrom bound 0 m

/-- The canonical memory of `bound` cells that a list of cells describes, the first of equal addresses winning. -/
def memOfCells {w : Nat} (bound : Nat) : List (Nat × BitVec w) → List (Nat × BitVec w)
  | [] => []
  | (k, v) :: rest => if k < bound then memWrite (memOfCells bound rest) k v else memOfCells bound rest

/-- Cells of data memory (rule R61) and words of program memory (rule R67). -/
def dmSize : Nat := 65536
def pmSize : Nat := 1048576

/-- The address lies in one of the ranges. -/
def inRanges (rs : List (Nat × Nat)) (a : Nat) : Bool := rs.any fun r => decide (r.1 ≤ a) && decide (a ≤ r.2)

/-- DM_MAPPED (rule R66). -/
def State.dmMapped (s : State) (a : DAddr) : Bool := !inRanges s.chip.dmUnmapped a.toNat

/-- PM_MAPPED (rule R67). -/
def State.pmMapped (s : State) (a : PAddr) : Bool := !inRanges s.chip.pmUnmapped a.toNat

/-- The byte data memory holds at an address, mapped or not. -/
def State.dmCell (s : State) (a : DAddr) : Byte := memRead s.dm a.toNat

/-- `MemRead(a, 1)`: the byte at a mapped address; at an unmapped one any value (rule R66). -/
def State.dmRead (s : State) (a : DAddr) : Byte := if s.dmMapped a then s.dmCell a else s.inputs.openBus

/-- `MemWrite(a, 1, v)`; a write to an unmapped address has no meaning (rule R66). -/
def dmWrite (a : DAddr) (v : Byte) (s : State) : Res State :=
  if s.dmMapped a then .next { s with dm := memWrite s.dm a.toNat v } else .fault .dmUnmappedWrite

/-- `PMRead(a)`; an unmapped program address has no meaning (rule R67). -/
def pmRead (a : PAddr) (s : State) : Res Word :=
  if s.pmMapped a then .next (memRead s.pm a.toNat) else .fault .pmUnmapped

/-! ### SR0 (rule R26) -/

def State.eid (s : State) : Bool := s.sr0.getLsbD 0
def State.ie (s : State) : Bool := s.sr0.getLsbD 1
def State.idb (s : State) : Bool := s.sr0.getLsbD 2
def State.bankSel (s : State) : BitVec 2 := s.sr0.extractLsb' 3 2
def State.ie0 (s : State) : Bool := s.sr0.getLsbD 6
def State.ie1 (s : State) : Bool := s.sr0.getLsbD 7

/-- SR0[1] <- v, the other bits kept. -/
def State.setIe (v : Bool) (s : State) : State :=
  { s with sr0 := s.sr0.extractLsb' 2 6 ++ BitVec.ofBool v ++ s.sr0.extractLsb' 0 1 }

/-- SR0[4:3] <- b, the other bits kept (rule R270). -/
def State.setBankSel (b : BitVec 2) (s : State) : State :=
  { s with sr0 := s.sr0.extractLsb' 5 3 ++ b ++ s.sr0.extractLsb' 0 3 }

/-! ### General registers (rules R20, R21) -/

/-- The number n of Rn. -/
def gprNum : Gpr → Nat
  | .r0 => 0
  | .r1 => 1
  | .r2 => 2
  | .r3 => 3

theorem gprNum_lt (g : Gpr) : gprNum g < 4 := by cases g <;> decide

/-- Where Rn of bank b stands among the sixteen. -/
def gprIndex (b : BitVec 2) (g : Gpr) : Fin 16 :=
  ⟨4 * b.toNat + gprNum g, by have h := b.isLt; have h' := gprNum_lt g; omega⟩

/-- `xb[b][n]`. -/
def State.xb (s : State) (b : BitVec 2) (g : Gpr) : Byte := s.gpr.get (gprIndex b g)

/-- `xb[b][n] <- v`. -/
def State.setXb (b : BitVec 2) (g : Gpr) (v : Byte) (s : State) : State :=
  { s with gpr := s.gpr.set (gprIndex b g) v (gprIndex b g).isLt }

/-- `x[n]`, of the current bank. -/
def State.x (s : State) (g : Gpr) : Byte := s.xb s.bankSel g

/-- `x[n] <- v`. -/
def State.setX (g : Gpr) (v : Byte) (s : State) : State := s.setXb s.bankSel g v

/-! ### Index registers (rules R24, R25) -/

/-- The index registers of the bank SR0[2] selects. -/
def State.idx (s : State) : IndexBank := if s.idb then s.idx1 else s.idx0

/-- Writes the index registers of the bank SR0[2] selects. -/
def State.setIdx (b : IndexBank) (s : State) : State :=
  if s.idb then { s with idx1 := b } else { s with idx0 := b }

/-- ID0 or ID1, IDH above IDL0 or IDL1. -/
def State.idReg (s : State) : IdxReg → DAddr
  | .id0 => s.idx.idh ++ s.idx.idl0
  | .id1 => s.idx.idh ++ s.idx.idl1

/-- Writes ID0 or ID1; IDH is shared (rule R24). -/
def State.setIdReg (r : IdxReg) (a : DAddr) (s : State) : State :=
  match r with
  | .id0 => s.setIdx { s.idx with idh := a.extractLsb' 8 8, idl0 := a.extractLsb' 0 8 }
  | .id1 => s.setIdx { s.idx with idh := a.extractLsb' 8 8, idl1 := a.extractLsb' 0 8 }

/-! ### Special purpose registers (rule R23) -/

/-- `SPR[k]`. -/
def State.spr (s : State) : Spr → Byte
  | .idl0 => s.idx.idl0
  | .idl1 => s.idx.idl1
  | .idh => s.idx.idh
  | .sr0 => s.sr0
  | .ilx => s.ilx
  | .ilh => s.ilh
  | .ill => s.ill
  | .sr1 => s.sr1

/-- `SPR[k] <- v`. -/
def State.setSpr (r : Spr) (v : Byte) (s : State) : State :=
  match r with
  | .idl0 => s.setIdx { s.idx with idl0 := v }
  | .idl1 => s.setIdx { s.idx with idl1 := v }
  | .idh => s.setIdx { s.idx with idh := v }
  | .sr0 => { s with sr0 := v }
  | .ilx => { s with ilx := v }
  | .ilh => { s with ilh := v }
  | .ill => { s with ill := v }
  | .sr1 => { s with sr1 := v }

/-- The SPR that an SPR0 name stands for (rule R95). -/
def spr0ToSpr : Spr0 → Spr
  | .idl0 => .idl0
  | .idl1 => .idl1
  | .idh => .idh
  | .sr0 => .sr0

/-! ### Program counter and link register (rules R28, R34 to R38) -/

/-- `Seq(a, n)`: the advance wraps inside the page of 4K words (rule R38). -/
def seq (a : PAddr) (n : Nat) : PAddr := a.extractLsb' 12 8 ++ (a.extractLsb' 0 12 + BitVec.ofNat 12 n)

/-- `pc <- Seq(pc, n)`. -/
def State.advance (n : Nat) (s : State) : State := { s with pc := seq s.pc n }

/-- `pc <- a`. -/
def State.setPc (a : PAddr) (s : State) : State := { s with pc := a }

/-- What PC becomes when a 20-bit address is loaded: with NP64KW = 0 PC[19:16] keeps its value (rule R231 (c)). -/
def State.longTarget (s : State) (a : PAddr) : PAddr :=
  if s.chip.np64kw then a else s.pc.extractLsb' 16 4 ++ a.extractLsb' 0 16

/-- A target in the page of the instruction (rule R231 (d)). -/
def State.pageTarget (s : State) (off : BitVec 12) : PAddr := s.pc.extractLsb' 12 8 ++ off

/-- IL[19:0]: ILX[3:0], ILH, ILL (rule R28). -/
def State.il (s : State) : PAddr := s.ilx.extractLsb' 0 4 ++ s.ilh ++ s.ill

/-- Saves a return address in IL; ILX, its upper bits cleared, only with NP64KW = 1 (rules R28, R237). -/
def State.setLink (a : PAddr) (s : State) : State :=
  { s with
    ill := a.extractLsb' 0 8
    ilh := a.extractLsb' 8 8
    ilx := if s.chip.np64kw then 0#4 ++ a.extractLsb' 16 4 else s.ilx }

/-! ### Hardware stack (rules R39 to R44) -/

/-- The slots in use, 0 to 64: `sptr`, which wraps at 64 (rule R44; log entry 24). -/
def State.hsUsed (s : State) : Nat := if s.hsFull then 64 else s.sptr.toNat

/-- HS[i]. -/
def State.hsSlot (s : State) (i : BitVec 6) : HsSlot := s.hs.get ⟨i.toNat, i.isLt⟩

/-- HS[i] <- v. -/
def State.setHsSlot (i : BitVec 6) (v : HsSlot) (s : State) : State := { s with hs := s.hs.set i.toNat v i.isLt }

/-- `sptr <- sptr + k`, modulo 64. -/
def State.raiseSptr (k : Nat) (s : State) : State :=
  { s with sptr := s.sptr + BitVec.ofNat 6 k, hsFull := s.hsUsed + k == 64 }

/-- `sptr <- sptr - k`, modulo 64. -/
def State.lowerSptr (k : Nat) (s : State) : State := { s with sptr := s.sptr - BitVec.ofNat 6 k, hsFull := false }

/-- Is there room for k more slots? Beyond HS_DEPTH a push has no meaning (rule R44); under rule R324's variant it goes
on within the 64 slots and raises the stack-full exception when it crosses HS_DEPTH. -/
def needRoom (k : Nat) (s : State) : Res State :=
  if s.hsUsed + k ≤ s.chip.hsDepth.val then .next s
  else
    match s.chip.stackFull with
    | .refuse => .fault .hsRange
    | .trap _ =>
      if s.hsUsed + k ≤ 64 then .next { s with sfPending := s.sfPending || decide (s.hsUsed ≤ s.chip.hsDepth.val) }
      else .fault .hsRange

/-- `PushByte(v)` (rules R40, R41). -/
def pushByte (v : Byte) (s : State) : Res State :=
  andThen (needRoom 1 s) fun t => .next ((t.setHsSlot t.sptr (.byte v)).raiseSptr 1)

/-- `PushAddr(a)`: 20 or 16 bits by NP64KW; the slot above becomes unspecified (rules R40, R42). -/
def pushAddr (a : PAddr) (s : State) : Res State :=
  andThen (needRoom 2 s) fun t =>
    .next (((t.setHsSlot t.sptr (if t.chip.np64kw then .addr20 a else .addr16 (a.extractLsb' 0 16))).setHsSlot
      (t.sptr + 1#6) .unspecified).raiseSptr 2)

/-- The byte in a slot, if its low byte is specified (rule R40). -/
def slotByte : HsSlot → Option Byte
  | .unspecified => none
  | .byte v => some v
  | .addr16 a => some (a.extractLsb' 0 8)
  | .addr20 a => some (a.extractLsb' 0 8)

/-- The address in a slot that `PopAddr` loads into PC, if its bits are specified (rules R40, R43). -/
def State.slotAddr (s : State) : HsSlot → Option PAddr
  | .addr20 a => some (s.longTarget a)
  | .addr16 a => if s.chip.np64kw then none else some (s.pc.extractLsb' 16 4 ++ a)
  | .byte _ => none
  | .unspecified => none

/-- `sptr <- sptr - k` without reading; below the bottom it has no meaning (rule R44). -/
def dropSlots (k : Nat) (s : State) : Res State := if k ≤ s.hsUsed then .next (s.lowerSptr k) else .fault .hsRange

/-- `PopByte()`: the byte and the state after (rule R41). -/
def popByte (s : State) : Res (Byte × State) :=
  andThen (dropSlots 1 s) fun t =>
    match slotByte (s.hsSlot t.sptr) with
    | some v => .next (v, t)
    | none => .fault .hsMixedWidth

/-- `pc <- PopAddr()` (rule R43). -/
def popAddr (s : State) : Res State :=
  andThen (dropSlots 2 s) fun t =>
    match s.slotAddr (s.hsSlot t.sptr) with
    | some a => .next (t.setPc a)
    | none => .fault .hsMixedWidth

/-! ### Outputs (rule R69) -/

/-- Records an event. -/
def State.emit (e : CoreEvent) (s : State) : State := { s with events := e :: s.events }

/-! ### Exceptions (rules R320 to R327, R350) -/

/-- Taking an exception, the one entry sequence: the address of the instruction that would execute next is pushed, ie is
cleared, control goes to the vector, and nothing else changes (rule R323). -/
def takeException (vector : PAddr) (s : State) : Res State :=
  andThen (pushAddr s.pc s) fun t => .next ((t.setIe false).setPc vector)

/-- Returning from one: PC from the stack, ie set, nothing else (rules R240, R325). -/
def returnFromException (s : State) : Res State := andThen (popAddr s) fun t => .next (t.setIe true)

/-- Interrupt 0 is requested and enabled (rule R320); the enables come first. -/
def State.deliverable0 (s : State) : Bool := s.ie && s.ie0 && s.inputs.irq0

/-- Interrupt 1 is requested and enabled (rule R320). -/
def State.deliverable1 (s : State) : Bool := s.ie && s.ie1 && s.inputs.irq1

/-- VEC_IRQ0 with the program image in memory (rule R323, D10). -/
def State.vector0 (s : State) : PAddr := s.chip.vecIrq0.address s.pm

/-- VEC_IRQ1 with the program image in memory (rule R323, D10). -/
def State.vector1 (s : State) : PAddr := s.chip.vecIrq1.address s.pm

/-- The vector of the interrupt taken at this boundary, by IRQ_PRIORITY when both are deliverable (rule R322). -/
def State.interruptVector (s : State) : Option PAddr :=
  match s.chip.irqPriority with
  | .irq0First =>
    if s.deliverable0 then some s.vector0 else if s.deliverable1 then some s.vector1 else none
  | .irq1First =>
    if s.deliverable1 then some s.vector1 else if s.deliverable0 then some s.vector0 else none

/-- VEC_SF, if the stack-full exception waits for its boundary (rule R324's variant). -/
def State.stackFullVector (s : State) : Option PAddr :=
  match s.chip.stackFull with
  | .trap v => if s.sfPending then some (v.address s.pm) else none
  | .refuse => none

/-- The boundary before this instruction is no recognition point: a delay slot (rule R321 point 2) or the instruction
that rule R333 executes after STOP or IDLE. -/
def State.boundaryClosed (s : State) : Bool := s.delay.isSome || s.haltAfter.isSome

/-- The exception taken at this boundary, if there is one: the state after its entry (rules R321 to R324). -/
def boundaryException (s : State) : Option (Res State) :=
  if s.boundaryClosed then none
  else
    match s.stackFullVector with
    | some v => some (takeException v { s with sfPending := false })
    | none =>
      match s.interruptVector with
      | some v => some (takeException v s)
      | none => none

/-- An interrupt request that ends STOP or IDLE: a deliverable one, or any under WAKE_MASKED (rule R333). A stack-full
exception that waits does not end them: one that the instruction after STOP or IDLE raises is entered when a request
wakes the core. Rules R324 and R333 meet there and the spec says neither; this is the model's choice (log entry 33). -/
def State.wakes (s : State) : Bool :=
  s.deliverable0 || s.deliverable1 || (s.chip.wakeMasked && (s.inputs.irq0 || s.inputs.irq1))

/-- Register number k after a reset in the middle of a run: unspecified, a free value (rule R350). -/
def State.resetByte (s : State) (k : Nat) : Byte := Config.freeResetByte s.tick k

/-- Reset, from any state: SR0, `sptr`, PC and the run state get their values, every other item of the core that rule R48
lists and of data memory a free value; program memory is the image and stays (rules R48, R350). What neither rule speaks
of is the model's choice (log entry 29): a stack-full exception that waits under rule R324's variant is dropped, the
request is withdrawn, and the record of past events and the parameters stay. -/
def applyReset (s : State) : State :=
  { s with
    sr0 := Config.sr0Reset
    sptr := Config.sptrReset
    hsFull := false
    pc := s.chip.vecReset.address s.pm
    delay := none
    haltAfter := none
    run := .running
    sfPending := false
    resetPin := false
    gpr := Vector.ofFn fun i => s.resetByte i.val
    idx0 := { idh := s.resetByte 16, idl0 := s.resetByte 17, idl1 := s.resetByte 18 }
    idx1 := { idh := s.resetByte 19, idl0 := s.resetByte 20, idl1 := s.resetByte 21 }
    ilx := s.resetByte 22
    ilh := s.resetByte 23
    ill := s.resetByte 24
    sr1 := s.resetByte 25
    tbh := s.resetByte 26
    tbl := s.resetByte 27
    tf := Config.freeResetTf s.tick
    hs := Vector.replicate 64 HsSlot.unspecified
    dm := memOfCells dmSize (Config.freeResetCells s.tick) }

/-- The step is over: the world presents new inputs. -/
def State.sample (s : State) : State := { s with inputs := inputsAt (s.tick + 1), tick := s.tick + 1 }

end Sys2Proof.Machine
end

