-- ==== Sys2Proof/WellFormed.lean ====
section
/-! DEFINITION. Which instruction terms stand for a word of the chip's opcode map (`Instr.wellFormed`) and, among them,
to which operands the spec gives an effect (`Instr.defined`). -/

namespace Sys2Proof

/-- The select field `sel` means BMS on this chip, not BMC (rule R126, parameter BM_SELECT). -/
def Chip.selectsBms (c : Chip) (sel : BitVec 4) : Bool := c.bmSelect.getLsbD sel.toNat

/-- The term is what some instruction word means on this chip. Only BMS and BMC, which share their fixed bits, can fail
it: their select field must be one that BM_SELECT gives to them (rule R126). -/
def Instr.wellFormed (c : Chip) : Instr → Bool
  | .bms sel => c.selectsBms sel
  | .bmc sel => !c.selectsBms sel
  | _ => true

/-- A minus mode with the offset field 00000, which an assembler never writes (rule R65). -/
def Idm.minusZero (m : Idm) : Bool :=
  (m.mode == .preDec || m.mode == .minus) && m.off == 0#5

/-- SR0 and SR1, which SWAP may not name (rule R280). -/
def Spr.isStatus : Spr → Bool
  | .sr0 => true
  | .sr1 => true
  | _ => false

/-- The `@idm` operand of an instruction that has one (rule R101). -/
def Instr.idm? : Instr → Option Idm
  | .addIdm _ m | .subIdm _ m | .cpIdm _ m | .ldIdm _ m | .stIdm m _ | .andIdm _ m | .orIdm _ m | .xorIdm _ m => some m
  | _ => none

/-- A well-formed instruction to whose operands the spec gives an effect whatever the state: no SWAP with SR0 or SR1
(rule R280), no minus mode with offset field 00000 (rule R65), no JNZD with imm:8 = 00h (rule R236). -/
def Instr.defined (c : Chip) (i : Instr) : Bool :=
  i.wellFormed c &&
  (match i with
   | .swap _ r => !r.isStatus
   | .jnzd _ imm => imm != 0#8
   | _ => true) &&
  (match i.idm? with
   | some m => !m.minusZero
   | none => true)

/-- LCALL, LLNK and LJP, the only two-word instructions (rule R90). -/
def Instr.isLong : Instr → Bool
  | .lcall _ _ => true
  | .llnk _ _ => true
  | .ljp _ _ => true
  | _ => false

end Sys2Proof
end

