-- ==== Sys2Proof/Machine/Operands.lean ====
section
/-! DEFINITION. The operand forms: the direct address `adr:8` and the indexed `@idm` (spec/20_memory.md rules R63 to
R65), and what an instruction does with the value of each (spec/40_alu.md rule R140). -/

namespace Sys2Proof.Machine

/-- `DirectAddr(adr8)`: page 00h, or IDH when eid = 1 (rule R63). -/
def State.directAddr (s : State) (adr : Byte) : DAddr := (if s.eid then s.idx.idh else 0#8) ++ adr

/-- The displacement of an `@idm` operand: the offset zero-extended, or extended with ones in the minus modes, whose
offset field 00000 means what IDM_NEG0 says (rules R64, R65). `none`: no meaning. -/
def idmDisplacement (c : Chip) (m : Idm) : Option DAddr :=
  match m.mode with
  | .postInc => some (0#11 ++ m.off)
  | .plus => some (0#11 ++ m.off)
  | .preDec | .minus =>
    if m.off = 0#5 then
      match c.idmNeg0 with
      | .refuse => none
      | .zero => some 0#16
      | .minus32 => some 0xFFE0#16
    else some (0b11111111111#11 ++ m.off)

/-- The address an `@idm` operand accesses, given its displacement (rule R64). -/
def State.idmAddr (s : State) (m : Idm) (disp : DAddr) : DAddr :=
  match m.mode with
  | .postInc => s.idReg m.idx
  | .preDec => s.idReg m.idx + disp
  | .plus => s.idReg m.idx + disp
  | .minus => s.idReg m.idx + disp

/-- The index register update of an `@idm` operand, on all 16 bits, in modes 00 and 01 (rule R64). -/
def State.idmUpdate (s : State) (m : Idm) (disp : DAddr) : State :=
  match m.mode with
  | .postInc => s.setIdReg m.idx (s.idReg m.idx + disp)
  | .preDec => s.setIdReg m.idx (s.idReg m.idx + disp)
  | .plus => s
  | .minus => s

/-- An instruction with an `@idm` source: the byte at the address, the instruction's effect `f` with it, then the index
update (rules R64, R80, R140). -/
def withIdm (m : Idm) (f : Byte → State → State) (s : State) : Res State :=
  match idmDisplacement s.chip m with
  | none => .refused .idmMinusZero
  | some disp => .next ((f (s.dmRead (s.idmAddr m disp)) s).idmUpdate m disp)

/-- A store to an `@idm` destination: the byte goes to the address, then the index update (rules R64, R80, R203). -/
def storeIdm (m : Idm) (v : Byte) (s : State) : Res State :=
  match idmDisplacement s.chip m with
  | none => .refused .idmMinusZero
  | some disp => andThen (dmWrite (s.idmAddr m disp) v s) fun t => .next (t.idmUpdate m disp)

/-- An instruction with an `adr:8` source (rules R63, R140). -/
def withAdr (adr : Byte) (f : Byte → State → State) (s : State) : Res State :=
  .next (f (s.dmRead (s.directAddr adr)) s)

/-- An instruction with a GPR source of the current bank (rule R140). -/
def withReg (g : Gpr) (f : Byte → State → State) (s : State) : Res State := .next (f (s.x g) s)

end Sys2Proof.Machine
end

