-- ==== Sys2Proof/Machine/Alu.lean ====
section
/-! DEFINITION. The ALU instructions (spec/40_alu.md): the effect of each mnemonic with the value of its second operand,
and one meaning per instruction form. -/

namespace Sys2Proof.Machine

/-- The sum goes to Rd and sets C, Z, V, N (rule R10). -/
def State.writeSum (d : Gpr) (o : Sum) (s : State) : State := ((s.setX d o.r).arithFlags o).advance 1

/-- The sum sets C, Z, V, N and is dropped (rules R143, R149). -/
def State.compareSum (o : Sum) (s : State) : State := (s.arithFlags o).advance 1

/-- The byte goes to Rd and sets Z and N (rule R11). -/
def State.writeLogic (d : Gpr) (r : Byte) (s : State) : State := ((s.setX d r).logicFlags r).advance 1

/-- ADD (rule R141). -/
def addWith (d : Gpr) (b : Byte) (s : State) : State := s.writeSum d (addC (s.x d) b false)

/-- SUB: the complement is added with carry in 1 (rule R142). -/
def subWith (d : Gpr) (b : Byte) (s : State) : State := s.writeSum d (addC (s.x d) (~~~b) true)

/-- CP: SUB without the write (rule R143). -/
def cpWith (d : Gpr) (b : Byte) (s : State) : State := s.compareSum (addC (s.x d) (~~~b) true)

/-- AND (rule R144). -/
def andWith (d : Gpr) (b : Byte) (s : State) : State := s.writeLogic d (s.x d &&& b)

/-- OR (rule R145). -/
def orWith (d : Gpr) (b : Byte) (s : State) : State := s.writeLogic d (s.x d ||| b)

/-- XOR (rule R146). -/
def xorWith (d : Gpr) (b : Byte) (s : State) : State := s.writeLogic d (s.x d ^^^ b)

/-- ADC (rule R147). -/
def adcWith (d : Gpr) (b : Byte) (s : State) : State := s.writeSum d (addC (s.x d) b s.c)

/-- SBC (rule R148). -/
def sbcWith (d : Gpr) (b : Byte) (s : State) : State := s.writeSum d (addC (s.x d) (~~~b) s.c)

/-- CPC: SBC without the write (rule R149). -/
def cpcWith (d : Gpr) (b : Byte) (s : State) : State := s.compareSum (addC (s.x d) (~~~b) s.c)

/-- The register-register AND, which also clears C where LOGIC_C_RULE says so (rules R144, R304). -/
def andRegWith (d : Gpr) (b : Byte) (s : State) : State :=
  match s.chip.logicC with
  | .keep => andWith d b s
  | .andRRClears => (andWith d b s).clearC

/-! ### `op GPR, #imm:8` -/

/-- `ADD GPR, #imm:8` (rule R141). -/
def execAddImm (d : Gpr) (imm : Byte) (s : State) : Res State := .next (addWith d imm s)

/-- `SUB GPR, #imm:8` (rule R142). -/
def execSubImm (d : Gpr) (imm : Byte) (s : State) : Res State := .next (subWith d imm s)

/-- `CP GPR, #imm:8` (rule R143). -/
def execCpImm (d : Gpr) (imm : Byte) (s : State) : Res State := .next (cpWith d imm s)

/-- `AND GPR, #imm:8` (rule R144). -/
def execAndImm (d : Gpr) (imm : Byte) (s : State) : Res State := .next (andWith d imm s)

/-- `OR GPR, #imm:8` (rule R145). -/
def execOrImm (d : Gpr) (imm : Byte) (s : State) : Res State := .next (orWith d imm s)

/-- `XOR GPR, #imm:8` (rule R146). -/
def execXorImm (d : Gpr) (imm : Byte) (s : State) : Res State := .next (xorWith d imm s)

/-! ### `op GPR, @idm` -/

/-- `ADD GPR, @idm` (rule R141). -/
def execAddIdm (d : Gpr) (m : Idm) (s : State) : Res State := withIdm m (addWith d) s

/-- `SUB GPR, @idm` (rule R142). -/
def execSubIdm (d : Gpr) (m : Idm) (s : State) : Res State := withIdm m (subWith d) s

/-- `CP GPR, @idm` (rule R143). -/
def execCpIdm (d : Gpr) (m : Idm) (s : State) : Res State := withIdm m (cpWith d) s

/-- `AND GPR, @idm` (rule R144). -/
def execAndIdm (d : Gpr) (m : Idm) (s : State) : Res State := withIdm m (andWith d) s

/-- `OR GPR, @idm` (rule R145). -/
def execOrIdm (d : Gpr) (m : Idm) (s : State) : Res State := withIdm m (orWith d) s

/-- `XOR GPR, @idm` (rule R146). -/
def execXorIdm (d : Gpr) (m : Idm) (s : State) : Res State := withIdm m (xorWith d) s

/-! ### `op GPR, adr:8` -/

/-- `ADD GPR, adr:8` (rule R141). -/
def execAddAdr (d : Gpr) (adr : Byte) (s : State) : Res State := withAdr adr (addWith d) s

/-- `SUB GPR, adr:8` (rule R142). -/
def execSubAdr (d : Gpr) (adr : Byte) (s : State) : Res State := withAdr adr (subWith d) s

/-- `CP GPR, adr:8` (rule R143). -/
def execCpAdr (d : Gpr) (adr : Byte) (s : State) : Res State := withAdr adr (cpWith d) s

/-- `AND GPR, adr:8` (rule R144). -/
def execAndAdr (d : Gpr) (adr : Byte) (s : State) : Res State := withAdr adr (andWith d) s

/-- `OR GPR, adr:8` (rule R145). -/
def execOrAdr (d : Gpr) (adr : Byte) (s : State) : Res State := withAdr adr (orWith d) s

/-- `XOR GPR, adr:8` (rule R146). -/
def execXorAdr (d : Gpr) (adr : Byte) (s : State) : Res State := withAdr adr (xorWith d) s

/-- `ADC GPR, adr:8` (rule R147). -/
def execAdcAdr (d : Gpr) (adr : Byte) (s : State) : Res State := withAdr adr (adcWith d) s

/-- `SBC GPR, adr:8` (rule R148). -/
def execSbcAdr (d : Gpr) (adr : Byte) (s : State) : Res State := withAdr adr (sbcWith d) s

/-- `CPC GPR, adr:8` (rule R149). -/
def execCpcAdr (d : Gpr) (adr : Byte) (s : State) : Res State := withAdr adr (cpcWith d) s

/-! ### `op GPRd, GPRs` -/

/-- `ADD GPRd, GPRs` (rule R141). -/
def execAddReg (d g : Gpr) (s : State) : Res State := withReg g (addWith d) s

/-- `SUB GPRd, GPRs` (rule R142). -/
def execSubReg (d g : Gpr) (s : State) : Res State := withReg g (subWith d) s

/-- `CP GPRd, GPRs` (rule R143). -/
def execCpReg (d g : Gpr) (s : State) : Res State := withReg g (cpWith d) s

/-- `ADC GPRd, GPRs` (rule R147). -/
def execAdcReg (d g : Gpr) (s : State) : Res State := withReg g (adcWith d) s

/-- `SBC GPRd, GPRs` (rule R148). -/
def execSbcReg (d g : Gpr) (s : State) : Res State := withReg g (sbcWith d) s

/-- `CPC GPRd, GPRs` (rule R149). -/
def execCpcReg (d g : Gpr) (s : State) : Res State := withReg g (cpcWith d) s

/-- `AND GPRd, GPRs` (rule R144). -/
def execAndReg (d g : Gpr) (s : State) : Res State := withReg g (andRegWith d) s

/-- `OR GPRd, GPRs` (rule R145). -/
def execOrReg (d g : Gpr) (s : State) : Res State := withReg g (orWith d) s

/-- `XOR GPRd, GPRs` (rule R146). -/
def execXorReg (d g : Gpr) (s : State) : Res State := withReg g (xorWith d) s

/-! ### One-register arithmetic (ALUop2) -/

/-- INC (rule R150). -/
def execInc (d : Gpr) (s : State) : Res State := .next (s.writeSum d (addC (s.x d) 0x01#8 false))

/-- INCC (rule R151). -/
def execIncc (d : Gpr) (s : State) : Res State := .next (s.writeSum d (addC (s.x d) 0x00#8 s.c))

/-- DEC, an addition of FFh (rule R152). -/
def execDec (d : Gpr) (s : State) : Res State := .next (s.writeSum d (addC (s.x d) 0xFF#8 false))

/-- DECC (rule R153). -/
def execDecc (d : Gpr) (s : State) : Res State := .next (s.writeSum d (addC (s.x d) 0xFF#8 s.c))

/-- COM: Z and N only (rule R154). -/
def execCom (d : Gpr) (s : State) : Res State := .next (s.writeLogic d (~~~(s.x d)))

/-- COM2 (rule R155). -/
def execCom2 (d : Gpr) (s : State) : Res State := .next (s.writeSum d (addC (~~~(s.x d)) 0x00#8 true))

/-- COMC (rule R156). -/
def execComc (d : Gpr) (s : State) : Res State := .next (s.writeSum d (addC (~~~(s.x d)) 0x00#8 s.c))

end Sys2Proof.Machine
end

