-- ==== Sys2Proof/Machine/Bit.lean ====
section
/-! DEFINITION. The bit manipulation instructions and the edits of SR0 (spec/44_bit.md). -/

namespace Sys2Proof.Machine

/-- `2**bs`. -/
def bitMask (bs : BitVec 3) : Byte := 1#8 <<< bs.toNat

/-- The common part of BITS, BITR, BITC: the byte at `adr:8` is read, Z is set from the result, which goes to R3 of the
current bank when TF = 0 and back to memory when TF = 1 (rule R260). -/
def bitOp (adr : Byte) (f : Byte → Byte) (s : State) : Res State :=
  let ea := s.directAddr adr
  let r := f (s.dmRead ea)
  andThen (if s.tf then dmWrite ea r s else .next (s.setX .r3 r)) fun t => .next ((t.zFlag (r == 0#8)).advance 1)

/-- BITS (rule R261). -/
def execBits (adr : Byte) (bs : BitVec 3) (s : State) : Res State := bitOp adr (fun m => m ||| bitMask bs) s

/-- BITR (rule R262). -/
def execBitr (adr : Byte) (bs : BitVec 3) (s : State) : Res State := bitOp adr (fun m => m &&& ~~~(bitMask bs)) s

/-- BITC (rule R263). -/
def execBitc (adr : Byte) (bs : BitVec 3) (s : State) : Res State := bitOp adr (fun m => m ^^^ bitMask bs) s

/-- BITT: Z is the complement of the bit, nothing else is written (rule R264). -/
def execBitt (adr : Byte) (bs : BitVec 3) (s : State) : Res State :=
  .next ((s.zFlag (!(s.dmRead (s.directAddr adr)).getLsbD bs.toNat)).advance 1)

/-- BMS (rule R265). -/
def execBms (s : State) : Res State := .next ({ s with tf := true }.advance 1)

/-- BMC (rule R266). -/
def execBmc (s : State) : Res State := .next ({ s with tf := false }.advance 1)

/-- TM: Z and N of the AND, no register written (rule R267). -/
def execTmImm (d : Gpr) (imm : Byte) (s : State) : Res State := .next ((s.logicFlags (s.x d &&& imm)).advance 1)

/-- `AND SR0, #imm:8` (rule R268). -/
def execAndSr0 (imm : Byte) (s : State) : Res State := .next ({ s with sr0 := s.sr0 &&& imm }.advance 1)

/-- `OR SR0, #imm:8` (rule R269). -/
def execOrSr0 (imm : Byte) (s : State) : Res State := .next ({ s with sr0 := s.sr0 ||| imm }.advance 1)

/-- `BANK #imm:2` (rule R270). -/
def execBank (imm : BitVec 2) (s : State) : Res State := .next ((s.setBankSel imm).advance 1)

end Sys2Proof.Machine
end

