-- ==== Sys2Proof/Machine/Branch.lean ====
section
/-! DEFINITION. The branch, call, link and return instructions (spec/43_branch.md). -/

namespace Sys2Proof.Machine

/-- `Cond(cc)`: Table 7-6 over the flags, the Stack Full condition and EC[2:0] as they are at this step (rule R230). -/
def State.cond (s : State) : Cond → Bool
  | .always => true
  | .nc => !s.c
  | .c => s.c
  | .z => s.z
  | .nz => !s.z
  | .ov => s.v
  | .ule => !s.c || s.z
  | .ugt => s.c && !s.z
  | .zp => !s.n
  | .mi => s.n
  | .pl => !s.n && !s.z
  | .zn => s.z || s.n
  | .sf => s.inputs.sf
  | .ec0 => s.inputs.ec.getLsbD 0
  | .ec1 => s.inputs.ec.getLsbD 1
  | .ec2 => s.inputs.ec.getLsbD 2

/-- JR: the signed offset is added to PC[11:0] of the JR itself (rule R232). -/
def execJr (cc : Cond) (imm : BitVec 9) (s : State) : Res State :=
  if s.cond cc then .next (s.setPc (s.pageTarget (s.pc.extractLsb' 0 12 + imm.signExtend 12))) else .next (s.advance 1)

/-- LJP (rule R233). -/
def execLjp (cc : Cond) (imm : PAddr) (s : State) : Res State :=
  if s.cond cc then .next (s.setPc (s.longTarget imm)) else .next (s.advance 2)

/-- CALLS (rule R234). -/
def execCalls (imm : BitVec 12) (s : State) : Res State :=
  andThen (pushAddr (seq s.pc 1) s) fun t => .next (t.setPc (s.pageTarget imm))

/-- LCALL: nothing is pushed when the condition is false (rule R235). -/
def execLcall (cc : Cond) (imm : PAddr) (s : State) : Res State :=
  if s.cond cc then andThen (pushAddr (seq s.pc 2) s) fun t => .next (t.setPc (s.longTarget imm))
  else .next (s.advance 2)

/-- The target of a taken JNZD: the delay slot's address minus (256 - imm), in its page (rule R236). -/
def jnzdTarget (ds : PAddr) (imm : Byte) : PAddr :=
  ds.extractLsb' 12 8 ++ (ds.extractLsb' 0 12 + (0xF#4 ++ imm))

/-- JNZD: Rn of bank 3 is tested, then decremented in any case; the delay slot is next, and after it the target or the
instruction after the slot (rule R236). -/
def execJnzd (n : Gpr) (imm : Byte) (s : State) : Res State :=
  let old := s.xb 3#2 n
  let ds := seq s.pc 1
  let t := (s.setXb 3#2 n (old - 1#8)).setPc ds
  if old = 0#8 then .next { t with delay := some (seq ds 1) }
  else if imm = 0#8 then .refused .jnzdZeroOffset
  else .next { t with delay := some (jnzdTarget ds imm) }

/-- LNKS (rule R237). -/
def execLnks (imm : BitVec 12) (s : State) : Res State := .next ((s.setLink (seq s.pc 1)).setPc (s.pageTarget imm))

/-- LLNK: IL is written only when the condition holds (rule R238). -/
def execLlnk (cc : Cond) (imm : PAddr) (s : State) : Res State :=
  if s.cond cc then .next ((s.setLink (seq s.pc 2)).setPc (s.longTarget imm)) else .next (s.advance 2)

/-- RET (rule R239). -/
def execRet (s : State) : Res State := popAddr s

/-- IRET: the return from an exception (rule R240). -/
def execIret (s : State) : Res State := returnFromException s

/-- LRET: PC from IL, which keeps its value (rule R241). -/
def execLret (s : State) : Res State := .next (s.setPc (s.longTarget s.il))

end Sys2Proof.Machine
end

