-- ==== Sys2Proof/Machine/Load.lean ====
section
/-! DEFINITION. The load instructions (spec/42_load.md). A load into a GPR sets Z and N (rule R200). -/

namespace Sys2Proof.Machine

/-- A load into Rd: Z and N from the byte, C and V kept (rules R11, R200). -/
def loadWith (d : Gpr) (v : Byte) (s : State) : State := ((s.setX d v).logicFlags v).advance 1

/-- `LD GPR, #imm:8` (rule R201). -/
def execLdImm (d : Gpr) (imm : Byte) (s : State) : Res State := .next (loadWith d imm s)

/-- `LD GPR, @idm` (rule R202). -/
def execLdIdm (d : Gpr) (m : Idm) (s : State) : Res State := withIdm m (loadWith d) s

/-- `LD @idm, GPR` (rule R203). -/
def execStIdm (m : Idm) (d : Gpr) (s : State) : Res State :=
  andThen (storeIdm m (s.x d) s) fun t => .next (t.advance 1)

/-- `LD GPR, adr:8` (rule R204). -/
def execLdAdr (d : Gpr) (adr : Byte) (s : State) : Res State := withAdr adr (loadWith d) s

/-- `LD adr:8, GPR` (rule R205). -/
def execStAdr (adr : Byte) (d : Gpr) (s : State) : Res State :=
  andThen (dmWrite (s.directAddr adr) (s.x d) s) fun t => .next (t.advance 1)

/-- `LD SPR0, #imm:8`: no flag (rule R206). -/
def execLdSpr0Imm (r : Spr0) (imm : Byte) (s : State) : Res State := .next ((s.setSpr (spr0ToSpr r) imm).advance 1)

/-- `LD GPRd, GPRs` (rule R207). -/
def execLdReg (d g : Gpr) (s : State) : Res State := withReg g (loadWith d) s

/-- `LD GPR, SPR`: SR1 is read before Z and N are set (rule R208). -/
def execLdGprSpr (d : Gpr) (r : Spr) (s : State) : Res State := .next (loadWith d (s.spr r) s)

/-- `LD SPR, GPR`: no flag but what SR1 itself receives; the GPR is read in the old bank (rule R209). -/
def execLdSprGpr (r : Spr) (d : Gpr) (s : State) : Res State := .next ((s.setSpr r (s.x d)).advance 1)

/-- `LD GPR:bankd, GPR:banks`: neither bank need be the current one (rule R210). -/
def execLdBank (bankd : BitVec 2) (d : Gpr) (banks : BitVec 2) (g : Gpr) (s : State) : Res State :=
  .next (((s.setXb bankd d (s.xb banks g)).logicFlags (s.xb banks g)).advance 1)

/-- `LD GPR, TBL` (rule R211). -/
def execLdFromTbl (d : Gpr) (s : State) : Res State := .next (loadWith d s.tbl s)

/-- `LD GPR, TBH` (rule R211). -/
def execLdFromTbh (d : Gpr) (s : State) : Res State := .next (loadWith d s.tbh s)

/-- `LD TBL, GPR` (rule R212). -/
def execLdTbl (d : Gpr) (s : State) : Res State := .next ({ s with tbl := s.x d }.advance 1)

/-- `LD TBH, GPR` (rule R212). -/
def execLdTbh (d : Gpr) (s : State) : Res State := .next ({ s with tbh := s.x d }.advance 1)

end Sys2Proof.Machine
end

