-- ==== Sys2Proof/Machine/Misc.lean ====
section
/-! DEFINITION. The miscellaneous instructions: SWAP, the stack moves, NOP, BREAK, SYS, the coprocessor, LDC
(spec/45_misc.md). -/

namespace Sys2Proof.Machine

/-- SWAP: both values as they were before; no flag; SR0 and SR1 have no meaning here (rule R280). -/
def execSwap (d : Gpr) (r : Spr) (s : State) : Res State :=
  if r.isStatus then .refused .swapStatusRegister
  else .next (((s.setSpr r (s.x d)).setX d (s.spr r)).advance 1)

/-- `PUSH GPR` (rule R281). -/
def execPushGpr (d : Gpr) (s : State) : Res State := andThen (pushByte (s.x d) s) fun t => .next (t.advance 1)

/-- `PUSH SPR` (rule R282). -/
def execPushSpr (r : Spr) (s : State) : Res State := andThen (pushByte (s.spr r) s) fun t => .next (t.advance 1)

/-- `POP GPR`: Z and N (rule R283). -/
def execPopGpr (d : Gpr) (s : State) : Res State :=
  andThen (popByte s) fun p => .next (((p.2.setX d p.1).logicFlags p.1).advance 1)

/-- `POP SPR`: no flag but what SR1 itself receives (rule R284). -/
def execPopSpr (r : Spr) (s : State) : Res State := andThen (popByte s) fun p => .next ((p.2.setSpr r p.1).advance 1)

/-- POP without operand: two slots are dropped, nothing is read (rule R285). -/
def execPop (s : State) : Res State := andThen (dropSlots 2 s) fun t => .next (t.advance 1)

/-- NOP (rule R286). -/
def execNop (s : State) : Res State := .next (s.advance 1)

/-- BREAK: PC is held and the core is locked (rule R287). -/
def execBrk (s : State) : Res State := .next { s with run := .locked }

/-- The power state the platform decodes from a SYS code (rules R305, R306, R333). -/
def haltCode (imm : Byte) : Option HaltMode :=
  if imm = 0x0A#8 then some .stop else if imm = 0x05#8 then some .idle else none

/-- SYS: an event; STOP and IDLE take hold after the next instruction, if the platform decodes them (rules R288, R333). -/
def execSys (imm : Byte) (s : State) : Res State :=
  let t := (s.emit (.sys imm)).advance 1
  match haltCode imm with
  | some m => .next (if s.chip.decodesStopIdle then { t with haltAfter := some m } else t)
  | none => .next t

/-- `CLD GPR, imm:8`: the byte is the coprocessor's; Z and N (rule R289). -/
def execCldLoad (d : Gpr) (imm : Byte) (s : State) : Res State :=
  .next ((((s.emit (.copRead imm)).setX d s.inputs.copByte).logicFlags s.inputs.copByte).advance 1)

/-- `CLD imm:8, GPR` (rule R290). -/
def execCldStore (imm : Byte) (d : Gpr) (s : State) : Res State := .next ((s.emit (.copWrite imm (s.x d))).advance 1)

/-- COP (rule R291). -/
def execCop (imm : BitVec 12) (s : State) : Res State := .next ((s.emit (.cop imm)).advance 1)

/-- `TBH:TBL <- PM[IL]` with all 20 bits of IL, whatever NP64KW is (rules R70, R292). -/
def loadTable (s : State) : Res State :=
  andThen (pmRead s.il s) fun w => .next { s with tbh := w.extractLsb' 8 8, tbl := w.extractLsb' 0 8 }

/-- `LDC @IL` (rule R292). -/
def execLdc (s : State) : Res State := andThen (loadTable s) fun t => .next (t.advance 1)

/-- `LDC @IL+`: ILL alone is increased, modulo 256 (rule R293). -/
def execLdcInc (s : State) : Res State :=
  andThen (loadTable s) fun t => .next ({ t with ill := t.ill + 1#8 }.advance 1)

end Sys2Proof.Machine
end

