-- ==== Sys2Proof/Machine/Shift.lean ====
section
/-! DEFINITION. The shift and rotate instructions (spec/41_shift_rotate.md): every one moves Rd by one bit. -/

namespace Sys2Proof.Machine

/-- The common part: the result goes to Rd; C, Z, N are set, V keeps its value (rule R180). -/
def State.writeShift (d : Gpr) (r : Byte) (c : Bool) (s : State) : State := ((s.setX d r).shiftFlags r c).advance 1

/-- `{a[6:0], b}`. -/
def shiftLeftIn (a : Byte) (b : Bool) : Byte := a.extractLsb' 0 7 ++ BitVec.ofBool b

/-- `{b, a[7:1]}`. -/
def shiftRightIn (b : Bool) (a : Byte) : Byte := BitVec.ofBool b ++ a.extractLsb' 1 7

/-- N after SLA, by SLA_N_RULE (rule R181). -/
def slaN (rule : SlaNRule) (r : Byte) (v : Bool) : Bool :=
  match rule with
  | .msb => r.msb
  | .vXorMsb => v ^^ r.msb

/-- SLA, the one shift that writes V (rule R181). -/
def execSla (d : Gpr) (s : State) : Res State :=
  let c := (s.x d).msb
  let r := shiftLeftIn (s.x d) false
  let v := r.msb ^^ c
  .next (((s.setX d r).setFlags c (r == 0#8) v (slaN s.chip.slaN r v)).advance 1)

/-- SL (rule R182). -/
def execSl (d : Gpr) (s : State) : Res State := .next (s.writeShift d (shiftLeftIn (s.x d) false) (s.x d).msb)

/-- RLC, a 9-bit rotation through C (rule R183). -/
def execRlc (d : Gpr) (s : State) : Res State := .next (s.writeShift d (shiftLeftIn (s.x d) s.c) (s.x d).msb)

/-- RL (rule R184). -/
def execRl (d : Gpr) (s : State) : Res State := .next (s.writeShift d (shiftLeftIn (s.x d) (s.x d).msb) (s.x d).msb)

/-- SRA (rule R185). -/
def execSra (d : Gpr) (s : State) : Res State :=
  .next (s.writeShift d (shiftRightIn (s.x d).msb (s.x d)) ((s.x d).getLsbD 0))

/-- SR (rule R186). -/
def execSr (d : Gpr) (s : State) : Res State := .next (s.writeShift d (shiftRightIn false (s.x d)) ((s.x d).getLsbD 0))

/-- RRC, a 9-bit rotation through C (rule R187). -/
def execRrc (d : Gpr) (s : State) : Res State := .next (s.writeShift d (shiftRightIn s.c (s.x d)) ((s.x d).getLsbD 0))

/-- RR (rule R188). -/
def execRr (d : Gpr) (s : State) : Res State :=
  .next (s.writeShift d (shiftRightIn ((s.x d).getLsbD 0) (s.x d)) ((s.x d).getLsbD 0))

end Sys2Proof.Machine
end

