-- ==== Sys2Proof/Machine/Dispatch.lean ====
section
/-! DEFINITION. One arm per instruction, in the order of spec/opcode_table.json, each one call of its meaning. -/

namespace Sys2Proof.Machine

def exec (i : Instr) (s : State) : Host.Outcome State Fault Refusal :=
  match i with
  | .addImm d imm => Sys2Proof.Machine.execAddImm d imm s
  | .subImm d imm => Sys2Proof.Machine.execSubImm d imm s
  | .cpImm d imm => Sys2Proof.Machine.execCpImm d imm s
  | .ldImm d imm => Sys2Proof.Machine.execLdImm d imm s
  | .tmImm d imm => Sys2Proof.Machine.execTmImm d imm s
  | .andImm d imm => Sys2Proof.Machine.execAndImm d imm s
  | .orImm d imm => Sys2Proof.Machine.execOrImm d imm s
  | .xorImm d imm => Sys2Proof.Machine.execXorImm d imm s
  | .addIdm d m => Sys2Proof.Machine.execAddIdm d m s
  | .subIdm d m => Sys2Proof.Machine.execSubIdm d m s
  | .cpIdm d m => Sys2Proof.Machine.execCpIdm d m s
  | .ldIdm d m => Sys2Proof.Machine.execLdIdm d m s
  | .stIdm m d => Sys2Proof.Machine.execStIdm m d s
  | .andIdm d m => Sys2Proof.Machine.execAndIdm d m s
  | .orIdm d m => Sys2Proof.Machine.execOrIdm d m s
  | .xorIdm d m => Sys2Proof.Machine.execXorIdm d m s
  | .addAdr d adr => Sys2Proof.Machine.execAddAdr d adr s
  | .subAdr d adr => Sys2Proof.Machine.execSubAdr d adr s
  | .cpAdr d adr => Sys2Proof.Machine.execCpAdr d adr s
  | .ldAdr d adr => Sys2Proof.Machine.execLdAdr d adr s
  | .bitt adr bs => Sys2Proof.Machine.execBitt adr bs s
  | .bits adr bs => Sys2Proof.Machine.execBits adr bs s
  | .adcAdr d adr => Sys2Proof.Machine.execAdcAdr d adr s
  | .sbcAdr d adr => Sys2Proof.Machine.execSbcAdr d adr s
  | .cpcAdr d adr => Sys2Proof.Machine.execCpcAdr d adr s
  | .stAdr adr d => Sys2Proof.Machine.execStAdr adr d s
  | .bitr adr bs => Sys2Proof.Machine.execBitr adr bs s
  | .bitc adr bs => Sys2Proof.Machine.execBitc adr bs s
  | .ldSpr0Imm r imm => Sys2Proof.Machine.execLdSpr0Imm r imm s
  | .andAdr d adr => Sys2Proof.Machine.execAndAdr d adr s
  | .orAdr d adr => Sys2Proof.Machine.execOrAdr d adr s
  | .xorAdr d adr => Sys2Proof.Machine.execXorAdr d adr s
  | .addReg d g => Sys2Proof.Machine.execAddReg d g s
  | .subReg d g => Sys2Proof.Machine.execSubReg d g s
  | .cpReg d g => Sys2Proof.Machine.execCpReg d g s
  | .adcReg d g => Sys2Proof.Machine.execAdcReg d g s
  | .sbcReg d g => Sys2Proof.Machine.execSbcReg d g s
  | .cpcReg d g => Sys2Proof.Machine.execCpcReg d g s
  | .andReg d g => Sys2Proof.Machine.execAndReg d g s
  | .orReg d g => Sys2Proof.Machine.execOrReg d g s
  | .xorReg d g => Sys2Proof.Machine.execXorReg d g s
  | .bms _ => Sys2Proof.Machine.execBms s
  | .bmc _ => Sys2Proof.Machine.execBmc s
  | .sla d => Sys2Proof.Machine.execSla d s
  | .sl d => Sys2Proof.Machine.execSl d s
  | .rlc d => Sys2Proof.Machine.execRlc d s
  | .rl d => Sys2Proof.Machine.execRl d s
  | .sra d => Sys2Proof.Machine.execSra d s
  | .sr d => Sys2Proof.Machine.execSr d s
  | .rrc d => Sys2Proof.Machine.execRrc d s
  | .rr d => Sys2Proof.Machine.execRr d s
  | .inc d => Sys2Proof.Machine.execInc d s
  | .incc d => Sys2Proof.Machine.execIncc d s
  | .dec d => Sys2Proof.Machine.execDec d s
  | .decc d => Sys2Proof.Machine.execDecc d s
  | .com d => Sys2Proof.Machine.execCom d s
  | .com2 d => Sys2Proof.Machine.execCom2 d s
  | .comc d => Sys2Proof.Machine.execComc d s
  | .ldSprGpr r d => Sys2Proof.Machine.execLdSprGpr r d s
  | .ldGprSpr d r => Sys2Proof.Machine.execLdGprSpr d r s
  | .swap d r => Sys2Proof.Machine.execSwap d r s
  | .ldTbl d => Sys2Proof.Machine.execLdTbl d s
  | .ldTbh d => Sys2Proof.Machine.execLdTbh d s
  | .pushSpr r => Sys2Proof.Machine.execPushSpr r s
  | .popSpr r => Sys2Proof.Machine.execPopSpr r s
  | .pushGpr d => Sys2Proof.Machine.execPushGpr d s
  | .popGpr d => Sys2Proof.Machine.execPopGpr d s
  | .ldReg d g => Sys2Proof.Machine.execLdReg d g s
  | .ldFromTbl d => Sys2Proof.Machine.execLdFromTbl d s
  | .ldFromTbh d => Sys2Proof.Machine.execLdFromTbh d s
  | .pop => Sys2Proof.Machine.execPop s
  | .ldc => Sys2Proof.Machine.execLdc s
  | .ldcInc => Sys2Proof.Machine.execLdcInc s
  | .lret => Sys2Proof.Machine.execLret s
  | .ret => Sys2Proof.Machine.execRet s
  | .iret => Sys2Proof.Machine.execIret s
  | .nop => Sys2Proof.Machine.execNop s
  | .brk => Sys2Proof.Machine.execBrk s
  | .ldBank bankd d banks g => Sys2Proof.Machine.execLdBank bankd d banks g s
  | .andSr0 imm => Sys2Proof.Machine.execAndSr0 imm s
  | .orSr0 imm => Sys2Proof.Machine.execOrSr0 imm s
  | .bank imm => Sys2Proof.Machine.execBank imm s
  | .lcall cc imm => Sys2Proof.Machine.execLcall cc imm s
  | .llnk cc imm => Sys2Proof.Machine.execLlnk cc imm s
  | .ljp cc imm => Sys2Proof.Machine.execLjp cc imm s
  | .jr cc imm => Sys2Proof.Machine.execJr cc imm s
  | .calls imm => Sys2Proof.Machine.execCalls imm s
  | .lnks imm => Sys2Proof.Machine.execLnks imm s
  | .cldLoad d imm => Sys2Proof.Machine.execCldLoad d imm s
  | .cldStore imm d => Sys2Proof.Machine.execCldStore imm d s
  | .jnzd n imm => Sys2Proof.Machine.execJnzd n imm s
  | .sys imm => Sys2Proof.Machine.execSys imm s
  | .cop imm => Sys2Proof.Machine.execCop imm s

end Sys2Proof.Machine
end

