-- ==== Sys2Proof/Decode.lean ====
section
/-! DEFINITION. The decoder, group by group as spec/30_encoding.md rules R91 and R100 to R117 give the opcode map, and
after it the encoder, written from the format table of rule R92. -/

namespace Sys2Proof

/-- `IR[lo + len - 1 : lo]`, a field of an instruction word (rule R93). -/
def field (w : Word) (lo len : Nat) : BitVec len := w.extractLsb' lo len

/-! ### Codes of registers, modes and conditions -/

/-- The 2-bit code of a GPR (rule R94, decision D6). -/
def gprCode : Gpr → BitVec 2
  | .r0 => 0#2
  | .r1 => 1#2
  | .r2 => 2#2
  | .r3 => 3#2

/-- The GPR of a 2-bit code (rule R94). -/
def gprOfCode (c : BitVec 2) : Gpr :=
  match c.toNat with
  | 0 => .r0
  | 1 => .r1
  | 2 => .r2
  | _ => .r3

/-- The 3-bit code of an SPR (rule R95, decision D6). -/
def sprCode : Spr → BitVec 3
  | .idl0 => 0#3
  | .idl1 => 1#3
  | .idh => 2#3
  | .sr0 => 3#3
  | .ilx => 4#3
  | .ilh => 5#3
  | .ill => 6#3
  | .sr1 => 7#3

/-- The SPR of a 3-bit code (rule R95). -/
def sprOfCode (c : BitVec 3) : Spr :=
  match c.toNat with
  | 0 => .idl0
  | 1 => .idl1
  | 2 => .idh
  | 3 => .sr0
  | 4 => .ilx
  | 5 => .ilh
  | 6 => .ill
  | _ => .sr1

/-- The 2-bit code of a register of group SPR0 (rule R95). -/
def spr0Code : Spr0 → BitVec 2
  | .idl0 => 0#2
  | .idl1 => 1#2
  | .idh => 2#2
  | .sr0 => 3#2

/-- The register of group SPR0 of a 2-bit code (rule R95). -/
def spr0OfCode (c : BitVec 2) : Spr0 :=
  match c.toNat with
  | 0 => .idl0
  | 1 => .idl1
  | 2 => .idh
  | _ => .sr0

/-- The code of an index register, `idx` (rule R96, Table 7-4). -/
def idxCode : IdxReg → BitVec 1
  | .id0 => 0#1
  | .id1 => 1#1

/-- The index register of `idx` (rule R96). -/
def idxOfCode (c : BitVec 1) : IdxReg :=
  match c.toNat with
  | 0 => .id0
  | _ => .id1

/-- The code `mod` of a mode (rule R96, Table 7-5). -/
def modeCode : IdmMode → BitVec 2
  | .postInc => 0#2
  | .preDec => 1#2
  | .plus => 2#2
  | .minus => 3#2

/-- The mode of `mod` (rule R96). -/
def modeOfCode (c : BitVec 2) : IdmMode :=
  match c.toNat with
  | 0 => .postInc
  | 1 => .preDec
  | 2 => .plus
  | _ => .minus

/-- The 4-bit code of a condition (rules R97, R230, Table 7-6). -/
def condCode : Cond → BitVec 4
  | .always => 0#4
  | .nc => 1#4
  | .c => 2#4
  | .z => 3#4
  | .nz => 4#4
  | .ov => 5#4
  | .ule => 6#4
  | .ugt => 7#4
  | .zp => 8#4
  | .mi => 9#4
  | .pl => 10#4
  | .zn => 11#4
  | .sf => 12#4
  | .ec0 => 13#4
  | .ec1 => 14#4
  | .ec2 => 15#4

/-- The condition of a 4-bit code (rules R97, R230). -/
def condOfCode (c : BitVec 4) : Cond :=
  match c.toNat with
  | 0 => .always
  | 1 => .nc
  | 2 => .c
  | 3 => .z
  | 4 => .nz
  | 5 => .ov
  | 6 => .ule
  | 7 => .ugt
  | 8 => .zp
  | 9 => .mi
  | 10 => .pl
  | 11 => .zn
  | 12 => .sf
  | 13 => .ec0
  | 14 => .ec1
  | _ => .ec2

/-! ### Operand fields (rules R93, R98) -/

/-- The GPR in IR[9:8]. -/
def fieldD (w : Word) : Gpr := gprOfCode (field w 8 2)

/-- The GPR in IR[1:0]. -/
def fieldG (w : Word) : Gpr := gprOfCode (field w 0 2)

/-- The SPR in IR[2:0]. -/
def fieldSpr (w : Word) : Spr := sprOfCode (field w 0 3)

/-- The immediate or direct address in IR[7:0]. -/
def fieldImm8 (w : Word) : Byte := field w 0 8

/-- The bit number in IR[10:8]. -/
def fieldBs (w : Word) : BitVec 3 := field w 8 3

/-- The condition in IR[11:8]. -/
def fieldCc (w : Word) : Cond := condOfCode (field w 8 4)

/-- The 12-bit immediate in IR[11:0]. -/
def fieldImm12 (w : Word) : BitVec 12 := field w 0 12

/-- The `@idm` operand: idx = IR[7], mod = IR[6:5], offset = IR[4:0]. -/
def fieldIdm (w : Word) : Idm :=
  { idx := idxOfCode (field w 7 1), mode := modeOfCode (field w 5 2), off := field w 0 5 }

/-- The split immediate of AND SR0 and OR SR0, IR[9:8] above IR[5:0] (rule R98). -/
def fieldSr0Imm (w : Word) : Byte := field w 8 2 ++ field w 0 6

/-- The signed 9-bit offset of JR, IR[12] above IR[7:0] (rules R98, R115). -/
def fieldImm9 (w : Word) : BitVec 9 := field w 12 1 ++ field w 0 8

/-- The four bits that tell BMS from BMC, IR[9:8] above IR[1:0] (rule R126). -/
def fieldBmSelect (w : Word) : BitVec 4 := field w 8 2 ++ field w 0 2

/-- The 20-bit target of a long branch, IR[3:0] above the second word (rules R98, R114). -/
def fieldImm20 (w next : Word) : PAddr := field w 0 4 ++ next

/-! ### The groups of the opcode map -/

/-- Group 000, format IMM, all valid (rule R100). -/
def decodeImm (w : Word) : Instr :=
  match (field w 10 3).toNat with
  | 0 => .addImm (fieldD w) (fieldImm8 w)
  | 1 => .subImm (fieldD w) (fieldImm8 w)
  | 2 => .cpImm (fieldD w) (fieldImm8 w)
  | 3 => .ldImm (fieldD w) (fieldImm8 w)
  | 4 => .tmImm (fieldD w) (fieldImm8 w)
  | 5 => .andImm (fieldD w) (fieldImm8 w)
  | 6 => .orImm (fieldD w) (fieldImm8 w)
  | _ => .xorImm (fieldD w) (fieldImm8 w)

/-- Group 001, format IDM, all valid (rule R101). -/
def decodeIdm (w : Word) : Instr :=
  match (field w 10 3).toNat with
  | 0 => .addIdm (fieldD w) (fieldIdm w)
  | 1 => .subIdm (fieldD w) (fieldIdm w)
  | 2 => .cpIdm (fieldD w) (fieldIdm w)
  | 3 => .ldIdm (fieldD w) (fieldIdm w)
  | 4 => .stIdm (fieldIdm w) (fieldD w)
  | 5 => .andIdm (fieldD w) (fieldIdm w)
  | 6 => .orIdm (fieldD w) (fieldIdm w)
  | _ => .xorIdm (fieldD w) (fieldIdm w)

/-- Group 010, formats ADR and BIT, all valid (rule R102). -/
def decodeAdr (w : Word) : Instr :=
  match (field w 10 3).toNat with
  | 0 => .addAdr (fieldD w) (fieldImm8 w)
  | 1 => .subAdr (fieldD w) (fieldImm8 w)
  | 2 => .cpAdr (fieldD w) (fieldImm8 w)
  | 3 => .ldAdr (fieldD w) (fieldImm8 w)
  | 4 => .bitt (fieldImm8 w) (fieldBs w)
  | 5 => .bitt (fieldImm8 w) (fieldBs w)
  | _ => .bits (fieldImm8 w) (fieldBs w)

/-- Group 011, formats ADR and BIT, all valid (rule R103). -/
def decodeAdrCarry (w : Word) : Instr :=
  match (field w 10 3).toNat with
  | 0 => .adcAdr (fieldD w) (fieldImm8 w)
  | 1 => .sbcAdr (fieldD w) (fieldImm8 w)
  | 2 => .cpcAdr (fieldD w) (fieldImm8 w)
  | 3 => .stAdr (fieldImm8 w) (fieldD w)
  | 4 => .bitr (fieldImm8 w) (fieldBs w)
  | 5 => .bitr (fieldImm8 w) (fieldBs w)
  | _ => .bitc (fieldImm8 w) (fieldBs w)

/-- Group 100 with IR[12] = 1, formats SPR0I and ADR1, all valid (rule R104). -/
def decodeSpr0 (w : Word) : Instr :=
  match (field w 10 2).toNat with
  | 0 => .ldSpr0Imm (spr0OfCode (field w 8 2)) (fieldImm8 w)
  | 1 => .andAdr (fieldD w) (fieldImm8 w)
  | 2 => .orAdr (fieldD w) (fieldImm8 w)
  | _ => .xorAdr (fieldD w) (fieldImm8 w)

/-- BMS or BMC by the chip's BM_SELECT (rule R126). -/
def decodeBm (c : Chip) (w : Word) : Instr :=
  if c.selectsBms (fieldBmSelect w) then .bms (fieldBmSelect w) else .bmc (fieldBmSelect w)

/-- ALUop1, Table 7-7 (rules R99, R107). -/
def decodeAluOp1 (w : Word) : Instr :=
  match (field w 0 3).toNat with
  | 0 => .sla (fieldD w)
  | 1 => .sl (fieldD w)
  | 2 => .rlc (fieldD w)
  | 3 => .rl (fieldD w)
  | 4 => .sra (fieldD w)
  | 5 => .sr (fieldD w)
  | 6 => .rrc (fieldD w)
  | _ => .rr (fieldD w)

/-- ALUop2, Table 7-8, code 111 reserved (rules R99, R107, R120). -/
def decodeAluOp2 (w : Word) : Except DecodeError Instr :=
  match (field w 0 3).toNat with
  | 0 => .ok (.inc (fieldD w))
  | 1 => .ok (.incc (fieldD w))
  | 2 => .ok (.dec (fieldD w))
  | 3 => .ok (.decc (fieldD w))
  | 4 => .ok (.com (fieldD w))
  | 5 => .ok (.com2 (fieldD w))
  | 6 => .ok (.comc (fieldD w))
  | _ => .error .reserved

/-- MODop1, Table 7-9, codes 101 to 111 reserved (rules R99, R112, R120). -/
def decodeModOp1 (w : Word) : Except DecodeError Instr :=
  match (field w 0 3).toNat with
  | 0 => .ok .lret
  | 1 => .ok .ret
  | 2 => .ok .iret
  | 3 => .ok .nop
  | 4 => .ok .brk
  | _ => .error .reserved

/-- PUSH GPR and POP GPR: both register fields must agree (rules R110, R128). -/
def decodeTwice (w : Word) (i : Gpr → Instr) : Except DecodeError Instr :=
  if field w 8 2 = field w 0 2 then .ok (i (fieldD w)) else .error .fieldsDiffer

/-! ### Bank numbers in IR[5:2], by BANKLD_FIELDS (rule R127); a place is counted from IR[2], the higher bit's first -/

/-- The places of the two bits. -/
def pairPlaces : BankPair → Nat × Nat
  | .ir54 => (3, 2)
  | .ir53 => (3, 1)
  | .ir52 => (3, 0)
  | .ir43 => (2, 1)
  | .ir42 => (2, 0)
  | .ir32 => (1, 0)

/-- The other two of the four. -/
def otherPair : BankPair → BankPair
  | .ir54 => .ir32
  | .ir53 => .ir42
  | .ir52 => .ir43
  | .ir43 => .ir52
  | .ir42 => .ir53
  | .ir32 => .ir54

/-- Where bit 1 and bit 0 of `bankd` stand. -/
def bankdPlace (f : BankFields) : Nat × Nat :=
  if f.bankdReversed then (pairPlaces f.bankdAt).swap else pairPlaces f.bankdAt

/-- Where bit 1 and bit 0 of `banks` stand. -/
def banksPlace (f : BankFields) : Nat × Nat :=
  if f.banksReversed then (pairPlaces (otherPair f.bankdAt)).swap else pairPlaces (otherPair f.bankdAt)

/-- The bank number whose bits 1 and 0 stand at `p` in `n`, which is IR[5:2]. -/
def bankNumber (n : BitVec 4) (p : Nat × Nat) : BitVec 2 := n.extractLsb' p.1 1 ++ n.extractLsb' p.2 1

/-- IR[5:2] with a bank number's bits 1 and 0 at `p` and 0 elsewhere. -/
def placeBank (bank : BitVec 2) (p : Nat × Nat) : BitVec 4 :=
  ((bank.extractLsb' 1 1).setWidth 4 <<< p.1) ||| ((bank.extractLsb' 0 1).setWidth 4 <<< p.2)

/-- `LD GPR:bankd, GPR:banks` by the chip's BANKLD_FIELDS (rules R113, R127). -/
def decodeLdBank (c : Chip) (w : Word) : Instr :=
  .ldBank (bankNumber (field w 2 4) (bankdPlace c.bankFields)) (fieldD w)
    (bankNumber (field w 2 4) (banksPlace c.bankFields)) (fieldG w)

/-- The rows L = 00h to 3Fh of rule R105's table, by IR[5:2] and the column c = IR[11:10] (rules R106 to R112, R119). -/
def decodeLow (c : Chip) (w : Word) : Except DecodeError Instr :=
  match (field w 2 4).toNat, (field w 10 2).toNat with
  | 0, 0 => .ok (.addReg (fieldD w) (fieldG w))
  | 0, 1 => .ok (.subReg (fieldD w) (fieldG w))
  | 0, 2 => .ok (.cpReg (fieldD w) (fieldG w))
  | 0, 3 => .ok (decodeBm c w)
  | 1, 0 => .ok (.adcReg (fieldD w) (fieldG w))
  | 1, 1 => .ok (.sbcReg (fieldD w) (fieldG w))
  | 1, 2 => .ok (.cpcReg (fieldD w) (fieldG w))
  | 3, 0 => .ok (.andReg (fieldD w) (fieldG w))
  | 3, 1 => .ok (.orReg (fieldD w) (fieldG w))
  | 3, 2 => .ok (.xorReg (fieldD w) (fieldG w))
  | 4, 0 => .ok (decodeAluOp1 w)
  | 5, 0 => .ok (decodeAluOp1 w)
  | 4, 1 => decodeAluOp2 w
  | 5, 1 => decodeAluOp2 w
  | 6, 0 => .ok (.ldSprGpr (fieldSpr w) (fieldD w))
  | 7, 0 => .ok (.ldSprGpr (fieldSpr w) (fieldD w))
  | 6, 1 => .ok (.ldGprSpr (fieldD w) (fieldSpr w))
  | 7, 1 => .ok (.ldGprSpr (fieldD w) (fieldSpr w))
  | 6, 2 => .ok (.swap (fieldD w) (fieldSpr w))
  | 7, 2 => .ok (.swap (fieldD w) (fieldSpr w))
  | 6, 3 => .ok (if field w 1 1 = 1#1 then .ldTbh (fieldD w) else .ldTbl (fieldD w))
  | 7, 3 => .ok (if field w 1 1 = 1#1 then .ldTbh (fieldD w) else .ldTbl (fieldD w))
  | 8, 0 => .ok (.pushSpr (fieldSpr w))
  | 9, 0 => .ok (.pushSpr (fieldSpr w))
  | 8, 1 => .ok (.popSpr (fieldSpr w))
  | 9, 1 => .ok (.popSpr (fieldSpr w))
  | 10, 0 => decodeTwice w .pushGpr
  | 10, 1 => decodeTwice w .popGpr
  | 10, 2 => .ok (.ldReg (fieldD w) (fieldG w))
  | 10, 3 => .ok (if field w 1 1 = 1#1 then .ldFromTbh (fieldD w) else .ldFromTbl (fieldD w))
  | 11, 0 => .ok .pop
  | 11, 2 => .ok (if field w 1 1 = 1#1 then .ldcInc else .ldc)
  | 12, 0 => decodeModOp1 w
  | 13, 0 => decodeModOp1 w
  | _, _ => .error .invalid

/-- The rows L = 40h to 7Fh of rule R105's table (rule R113). -/
def decodeSr0Bank (c : Chip) (w : Word) : Instr :=
  match (field w 10 2).toNat with
  | 0 => decodeLdBank c w
  | 1 => .andSr0 (fieldSr0Imm w)
  | 2 => .orSr0 (fieldSr0Imm w)
  | _ => .bank (field w 3 2)

/-- The rows L = 80h to FFh of rule R105's table: 80h to CFh invalid, then the long branches (rules R114, R119). -/
def decodeLong (w next : Word) : Except DecodeError Instr :=
  match (field w 4 4).toNat with
  | 13 => .ok (.lcall (fieldCc w) (fieldImm20 w next))
  | 14 => .ok (.llnk (fieldCc w) (fieldImm20 w next))
  | 15 => .ok (.ljp (fieldCc w) (fieldImm20 w next))
  | _ => .error .invalid

/-- Group 100 with IR[12] = 0, by IR[7:6] (rule R105). -/
def decodeControl (c : Chip) (w next : Word) : Except DecodeError Instr :=
  match (field w 6 2).toNat with
  | 0 => decodeLow c w
  | 1 => .ok (decodeSr0Bank c w)
  | _ => decodeLong w next

/-- Group 111, all valid (rule R117). -/
def decodeCop (w : Word) : Instr :=
  match (field w 10 3).toNat with
  | 0 => .cldLoad (fieldD w) (fieldImm8 w)
  | 1 => .cldStore (fieldImm8 w) (fieldD w)
  | 2 => .jnzd (fieldD w) (fieldImm8 w)
  | 3 => .sys (fieldImm8 w)
  | _ => .cop (fieldImm12 w)

/-- The decoder: the instruction whose first word is `w`; `next` is the word after it, which only the long branches
look at. Top level by IR[15:13] (rule R91). Total: a word that is no instruction is rejected by name. -/
def decode (c : Chip) (w next : Word) : Except DecodeError Instr :=
  match (field w 13 3).toNat with
  | 0 => .ok (decodeImm w)
  | 1 => .ok (decodeIdm w)
  | 2 => .ok (decodeAdr w)
  | 3 => .ok (decodeAdrCarry w)
  | 4 => if field w 12 1 = 1#1 then .ok (decodeSpr0 w) else decodeControl c w next
  | 5 => .ok (.jr (fieldCc w) (fieldImm9 w))
  | 6 => .ok (if field w 12 1 = 1#1 then .lnks (fieldImm12 w) else .calls (fieldImm12 w))
  | _ => .ok (decodeCop w)

/-- `w` is the first word of a two-word instruction (rule R123). -/
def isFirstOfTwo (w : Word) : Bool :=
  field w 12 4 == 8#4 && field w 6 2 == 3#2 && field w 4 2 != 0#2

/-! ### The encoder (rule R92), not-applicable bits written 0 (rule R121) -/

/-- Format IMM, IDM or ADR: group, operation, GPR and the low byte. -/
def encGpr (group op : BitVec 3) (d : Gpr) (low : Byte) : Word := group ++ op ++ gprCode d ++ low

/-- The low byte of format IDM: idx, mod, offset. -/
def encIdmLow (m : Idm) : Byte := idxCode m.idx ++ modeCode m.mode ++ m.off

/-- Format BIT: group, 1, operation bit, bs, adr. -/
def encBit (group : BitVec 3) (op : BitVec 1) (bs : BitVec 3) (adr : Byte) : Word := group ++ 1#1 ++ op ++ bs ++ adr

/-- Formats RR, RR2 and PP: group 100, operation, GPR, IR[7:2], GPR. -/
def encRR (op : BitVec 3) (d : Gpr) (mid : BitVec 6) (g : Gpr) : Word := 4#3 ++ op ++ gprCode d ++ mid ++ gprCode g

/-- Formats R1, TBW, TBR: group 100, operation, GPR and a fixed low byte. -/
def encOne (op : BitVec 3) (d : Gpr) (low : Byte) : Word := 4#3 ++ op ++ gprCode d ++ low

/-- Formats RS and S: group 100, operation, IR[9:8], IR[7:3], SPR. -/
def encSpr (op : BitVec 3) (top : BitVec 2) (mid : BitVec 5) (r : Spr) : Word := 4#3 ++ op ++ top ++ mid ++ sprCode r

/-- Format SR0: group 100, operation, imm[7:6], 01, imm[5:0]. -/
def encSr0 (op : BitVec 3) (imm : Byte) : Word := 4#3 ++ op ++ imm.extractLsb' 6 2 ++ 1#2 ++ imm.extractLsb' 0 6

/-- First word of format LONG: 1000, cc, IR[7:4], imm[19:16]. -/
def encLong (op : BitVec 4) (cc : Cond) (imm : PAddr) : Word := 8#4 ++ condCode cc ++ op ++ imm.extractLsb' 16 4

/-- Format BM: 100 011, the two upper select bits, 000000, the two lower (rule R126). -/
def encBm (sel : BitVec 4) : Word := 0b100011#6 ++ sel.extractLsb' 2 2 ++ 0#6 ++ sel.extractLsb' 0 2

/-- Format BK by the chip's BANKLD_FIELDS (rule R127). -/
def encLdBank (c : Chip) (bankd : BitVec 2) (d : Gpr) (banks : BitVec 2) (g : Gpr) : Word :=
  0b100000#6 ++ gprCode d ++ 1#2 ++
    (placeBank bankd (bankdPlace c.bankFields) ||| placeBank banks (banksPlace c.bankFields)) ++ gprCode g

/-- The first (or only) word of an instruction (rule R92, with the operation codes of rules R100 to R117). -/
def encodeFirst (c : Chip) : Instr → Word
  | .addImm d imm => encGpr 0#3 0#3 d imm
  | .subImm d imm => encGpr 0#3 1#3 d imm
  | .cpImm d imm => encGpr 0#3 2#3 d imm
  | .ldImm d imm => encGpr 0#3 3#3 d imm
  | .tmImm d imm => encGpr 0#3 4#3 d imm
  | .andImm d imm => encGpr 0#3 5#3 d imm
  | .orImm d imm => encGpr 0#3 6#3 d imm
  | .xorImm d imm => encGpr 0#3 7#3 d imm
  | .addIdm d m => encGpr 1#3 0#3 d (encIdmLow m)
  | .subIdm d m => encGpr 1#3 1#3 d (encIdmLow m)
  | .cpIdm d m => encGpr 1#3 2#3 d (encIdmLow m)
  | .ldIdm d m => encGpr 1#3 3#3 d (encIdmLow m)
  | .stIdm m d => encGpr 1#3 4#3 d (encIdmLow m)
  | .andIdm d m => encGpr 1#3 5#3 d (encIdmLow m)
  | .orIdm d m => encGpr 1#3 6#3 d (encIdmLow m)
  | .xorIdm d m => encGpr 1#3 7#3 d (encIdmLow m)
  | .addAdr d adr => encGpr 2#3 0#3 d adr
  | .subAdr d adr => encGpr 2#3 1#3 d adr
  | .cpAdr d adr => encGpr 2#3 2#3 d adr
  | .ldAdr d adr => encGpr 2#3 3#3 d adr
  | .bitt adr bs => encBit 2#3 0#1 bs adr
  | .bits adr bs => encBit 2#3 1#1 bs adr
  | .adcAdr d adr => encGpr 3#3 0#3 d adr
  | .sbcAdr d adr => encGpr 3#3 1#3 d adr
  | .cpcAdr d adr => encGpr 3#3 2#3 d adr
  | .stAdr adr d => encGpr 3#3 3#3 d adr
  | .bitr adr bs => encBit 3#3 0#1 bs adr
  | .bitc adr bs => encBit 3#3 1#1 bs adr
  | .ldSpr0Imm r imm => 0b100100#6 ++ spr0Code r ++ imm
  | .andAdr d adr => encGpr 4#3 5#3 d adr
  | .orAdr d adr => encGpr 4#3 6#3 d adr
  | .xorAdr d adr => encGpr 4#3 7#3 d adr
  | .addReg d g => encRR 0#3 d 0#6 g
  | .subReg d g => encRR 1#3 d 0#6 g
  | .cpReg d g => encRR 2#3 d 0#6 g
  | .adcReg d g => encRR 0#3 d 1#6 g
  | .sbcReg d g => encRR 1#3 d 1#6 g
  | .cpcReg d g => encRR 2#3 d 1#6 g
  | .andReg d g => encRR 0#3 d 3#6 g
  | .orReg d g => encRR 1#3 d 3#6 g
  | .xorReg d g => encRR 2#3 d 3#6 g
  | .bms sel => encBm sel
  | .bmc sel => encBm sel
  | .sla d => encOne 0#3 d 0x10#8
  | .sl d => encOne 0#3 d 0x11#8
  | .rlc d => encOne 0#3 d 0x12#8
  | .rl d => encOne 0#3 d 0x13#8
  | .sra d => encOne 0#3 d 0x14#8
  | .sr d => encOne 0#3 d 0x15#8
  | .rrc d => encOne 0#3 d 0x16#8
  | .rr d => encOne 0#3 d 0x17#8
  | .inc d => encOne 1#3 d 0x10#8
  | .incc d => encOne 1#3 d 0x11#8
  | .dec d => encOne 1#3 d 0x12#8
  | .decc d => encOne 1#3 d 0x13#8
  | .com d => encOne 1#3 d 0x14#8
  | .com2 d => encOne 1#3 d 0x15#8
  | .comc d => encOne 1#3 d 0x16#8
  | .ldSprGpr r d => encSpr 0#3 (gprCode d) 3#5 r
  | .ldGprSpr d r => encSpr 1#3 (gprCode d) 3#5 r
  | .swap d r => encSpr 2#3 (gprCode d) 3#5 r
  | .ldTbl d => encOne 3#3 d 0x18#8
  | .ldTbh d => encOne 3#3 d 0x1A#8
  | .pushSpr r => encSpr 0#3 0#2 4#5 r
  | .popSpr r => encSpr 1#3 0#2 4#5 r
  | .pushGpr d => encRR 0#3 d 10#6 d
  | .popGpr d => encRR 1#3 d 10#6 d
  | .ldReg d g => encRR 2#3 d 10#6 g
  | .ldFromTbl d => encOne 3#3 d 0x28#8
  | .ldFromTbh d => encOne 3#3 d 0x2A#8
  | .pop => 0x802C#16
  | .ldc => 0x882C#16
  | .ldcInc => 0x882E#16
  | .lret => 0x8030#16
  | .ret => 0x8031#16
  | .iret => 0x8032#16
  | .nop => 0x8033#16
  | .brk => 0x8034#16
  | .ldBank bankd d banks g => encLdBank c bankd d banks g
  | .andSr0 imm => encSr0 1#3 imm
  | .orSr0 imm => encSr0 2#3 imm
  | .bank imm => 0b100011#6 ++ 0#2 ++ 1#2 ++ 0#1 ++ imm ++ 0#3
  | .lcall cc imm => encLong 13#4 cc imm
  | .llnk cc imm => encLong 14#4 cc imm
  | .ljp cc imm => encLong 15#4 cc imm
  | .jr cc imm => 5#3 ++ imm.extractLsb' 8 1 ++ condCode cc ++ imm.extractLsb' 0 8
  | .calls imm => 12#4 ++ imm
  | .lnks imm => 13#4 ++ imm
  | .cldLoad d imm => encGpr 7#3 0#3 d imm
  | .cldStore imm d => encGpr 7#3 1#3 d imm
  | .jnzd n imm => encGpr 7#3 2#3 n imm
  | .sys imm => 0b111011#6 ++ 0#2 ++ imm
  | .cop imm => 15#4 ++ imm

/-- The second word of a long branch, imm[15:0]; 0 for an instruction that has none (rule R114). -/
def encodeSecond : Instr → Word
  | .lcall _ imm => imm.extractLsb' 0 16
  | .llnk _ imm => imm.extractLsb' 0 16
  | .ljp _ imm => imm.extractLsb' 0 16
  | _ => 0#16

/-- The words of an instruction, in the order program memory holds them (rules R90, R70). -/
def encode (c : Chip) (i : Instr) : List Word :=
  if i.isLong then [encodeFirst c i, encodeSecond i] else [encodeFirst c i]

/-- The first word of an instruction given as bits, bit 0 the least significant of the first word; bits from `nbits` on
are taken as 0. -/
def tableFirst (nbits w : Nat) : Word := BitVec.ofNat 16 (w % 2 ^ nbits)

/-- The second word of the same, bits 31 to 16. -/
def tableSecond (nbits w : Nat) : Word := BitVec.ofNat 16 (w % 2 ^ nbits / 65536)

/-- The instruction the decoder reads from bits numbered as spec/opcode_table.json numbers them, on the chip of
`Config.chip`; program memory holds whole words, so no byte order enters (rule R70). -/
def decodeTableWord (nbits w : Nat) : Option Instr :=
  match decode Config.chip (tableFirst nbits w) (tableSecond nbits w) with
  | .ok i => some i
  | .error _ => none

end Sys2Proof
end

