-- ==== Sys2Proof/Machine/Fetch.lean ====
section
/-! DEFINITION. What surrounds an instruction in a step: the fetch of its words, the decoder's rejections as refusals,
the set 1W1C for the JNZD delay slot, and what happens when the instruction has completed. -/

namespace Sys2Proof.Machine

/-- The first word at PC and, for a two-word instruction, the second at `Seq(PC, 1)`; else 0 in its place (rules R37,
R67, R123). -/
def fetch (s : State) : Res (Word × Word) :=
  andThen (pmRead s.pc s) fun w =>
    if isFirstOfTwo w then andThen (pmRead (seq s.pc 1) s) fun w2 => .next (w, w2) else .next (w, 0#16)

/-- The refusal of a word that is no instruction (rules R119, R120, R128). -/
def decodeRefusal : DecodeError → Refusal
  | .invalid => .invalidInstruction
  | .reserved => .reservedInstruction
  | .fieldsDiffer => .pushPopFieldsDiffer

/-- The instruction at PC. -/
def fetchInstr (s : State) : Res Instr :=
  andThen (fetch s) fun p =>
    match decode s.chip p.1 p.2 with
    | .ok i => .next i
    | .error e => .refused (decodeRefusal e)

/-- The instruction is 1W1C: every one but the branches, calls, links, returns and LDC (rule R356). -/
def oneCycle : Instr → Bool
  | .ldc => false
  | .ldcInc => false
  | .lcall _ _ => false
  | .llnk _ _ => false
  | .ljp _ _ => false
  | .calls _ => false
  | .lnks _ => false
  | .jnzd _ _ => false
  | .jr _ _ => false
  | .lret => false
  | .ret => false
  | .iret => false
  | _ => true

/-- In a delay slot only a 1W1C instruction has a meaning (rule R236). -/
def slotAllows (s : State) (i : Instr) : Bool := s.delay.isNone || oneCycle i

/-- The state an instruction executes in: what was pending before it is held by the step (rules R236, R333). -/
def State.beginInstr (s : State) : State := { s with delay := none, haltAfter := none }

/-- After the instruction in a delay slot PC is the pending target; BREAK there holds PC and the target stays pending
(rules R236, R287; log entry 32). -/
def endSlot (s t : State) : State :=
  match s.delay with
  | some a => if t.run = .locked then { t with delay := some a } else { t with pc := a }
  | none => t

/-- After the instruction that follows STOP or IDLE the core is halted, unless that instruction locked it (rules R333,
R334). -/
def endHalt (s t : State) : State :=
  match s.haltAfter with
  | some m => if t.run = .running then { t with run := .halted m } else t
  | none => t

/-- The instruction that began in `s` has answered `t`: the delay slot and STOP or IDLE are completed and the world
presents new inputs. -/
def endInstr (s t : State) : State := (endHalt s (endSlot s t)).sample

end Sys2Proof.Machine
end

