-- ==== Sys2Proof/Machine/Step.lean ====
section
/-! DEFINITION. One step of the machine, and where a program's first instruction is placed. -/

namespace Sys2Proof.Machine

/-- The core fetches, decodes and executes the instruction at PC (rules R36, R75, R236, R333). -/
def stepInstr (s : State) : Host.Outcome State Fault Refusal :=
  andThen (fetchInstr s) fun i =>
    if slotAllows s i then andThen (exec i s.beginInstr) fun t => .next (endInstr s t)
    else .refused .delaySlotNotOneCycle

/-- One step: reset if requested (rule R350); nothing in the locked state (rule R334); in a halted state nothing until
an interrupt request wakes the core, which then takes the interrupt if it can (rule R333); else the exception taken at
this boundary, a step of its own (rules R321 to R324), or the instruction at PC. -/
def step (s : State) : Host.Outcome State Fault Refusal :=
  if s.resetPin then .next (applyReset s).sample
  else
    match s.run with
    | .locked => .next s.sample
    | .halted _ =>
      if s.wakes then
        match boundaryException { s with run := .running } with
        | some o => andThen o fun t => .next t.sample
        | none => .next { s with run := .running }.sample
      else .next s.sample
    | .running =>
      match boundaryException s with
      | some o => andThen o fun t => .next t.sample
      | none => stepInstr s

/-- `s` with the instruction whose bits are `w` in program memory at PC: its first word at PC, its second, or 0, at
`Seq(PC, 1)`. It stands for the loading of a program from outside (log entry 23). -/
def State.withFetchWord (s : State) (nbits w : Nat) : State :=
  { s with
    pm := memWrite (memWrite s.pm (seq s.pc 1).toNat (tableSecond nbits w)) s.pc.toNat (tableFirst nbits w) }

end Sys2Proof.Machine
end

