-- ==== Sys2Proof/Safety.lean ====
section
/-! DEFINITION. The terms claims are stated in: the parts of the state and what it means that nothing else changed, the
invariant of the machine, flags in exact arithmetic, and the operand forms of the ALU instructions as one type. -/

namespace Sys2Proof.Machine

/-! ### What an instruction leaves alone -/

/-- Index bank 0 or 1 (rule R25). -/
def State.idxBank (s : State) (k : Bool) : IndexBank := if k then s.idx1 else s.idx0

/-- One part of the state; together the parts are everything State holds. -/
inductive Part where
  /-- Rn of one bank. -/
  | gpr (bank : BitVec 2) (g : Gpr)
  /-- IDH, IDL0, IDL1 of index bank 0 (`false`) or 1 (`true`). -/
  | idh (bank : Bool)
  | idl0 (bank : Bool)
  | idl1 (bank : Bool)
  /-- One bit of SR0. -/
  | sr0 (k : Fin 8)
  /-- The flags, and SR1[7:4]. -/
  | flagC
  | flagZ
  | flagV
  | flagN
  | sr1Rest
  | ilx
  | ilh
  | ill
  | tbh
  | tbl
  | tf
  | pc
  /-- The stack pointer, with the model's `hsFull`. -/
  | sptr
  /-- One slot of the hardware stack. -/
  | slot (i : BitVec 6)
  /-- One byte of data memory. -/
  | dm (a : DAddr)
  /-- One word of program memory. -/
  | pm (a : PAddr)
  | delay
  | haltAfter
  | run
  | sfPending
  | resetPin
  | inputs
  | tick
  | events
  | chip
  deriving DecidableEq, Repr

/-- The part reads the same in both states. A byte of data memory is read as memory holds it (`dmCell`) and, if the
address is mapped, as an instruction reads it (`dmRead`); what an instruction reads at an unmapped address is no memory
but the part `inputs` (rule R66). -/
def Part.same (s t : State) : Part → Prop
  | .gpr bank g => t.xb bank g = s.xb bank g
  | .idh bank => (t.idxBank bank).idh = (s.idxBank bank).idh
  | .idl0 bank => (t.idxBank bank).idl0 = (s.idxBank bank).idl0
  | .idl1 bank => (t.idxBank bank).idl1 = (s.idxBank bank).idl1
  | .sr0 k => t.sr0.getLsbD k.val = s.sr0.getLsbD k.val
  | .flagC => t.c = s.c
  | .flagZ => t.z = s.z
  | .flagV => t.v = s.v
  | .flagN => t.n = s.n
  | .sr1Rest => t.sr1.extractLsb' 4 4 = s.sr1.extractLsb' 4 4
  | .ilx => t.ilx = s.ilx
  | .ilh => t.ilh = s.ilh
  | .ill => t.ill = s.ill
  | .tbh => t.tbh = s.tbh
  | .tbl => t.tbl = s.tbl
  | .tf => t.tf = s.tf
  | .pc => t.pc = s.pc
  | .sptr => t.sptr = s.sptr ∧ t.hsFull = s.hsFull
  | .slot i => t.hsSlot i = s.hsSlot i
  | .dm a =>
    t.dmCell a = s.dmCell a ∧ t.dmMapped a = s.dmMapped a ∧ (s.dmMapped a = true → t.dmRead a = s.dmRead a)
  | .pm a => memRead t.pm a.toNat = memRead s.pm a.toNat
  | .delay => t.delay = s.delay
  | .haltAfter => t.haltAfter = s.haltAfter
  | .run => t.run = s.run
  | .sfPending => t.sfPending = s.sfPending
  | .resetPin => t.resetPin = s.resetPin
  | .inputs => t.inputs = s.inputs
  | .tick => t.tick = s.tick
  | .events => t.events = s.events
  | .chip => t.chip = s.chip

/-- Every part but those listed reads in `t` as it reads in `s`. -/
def OnlyChanges (w : List Part) (s t : State) : Prop := ∀ p : Part, p ∉ w → p.same s t

/-- The operation answers a next state, of which `P` holds. -/
def Completes (o : Res State) (P : State → Prop) : Prop := ∃ t, o = .next t ∧ P t

/-- The four flags. -/
def flagParts : List Part := [.flagC, .flagZ, .flagV, .flagN]

/-- All eight bits of SR0. -/
def sr0Parts : List Part := (List.finRange 8).map Part.sr0

/-- What a write of an SPR changes, with the index registers in bank `bank` (rules R23, R25, R30). -/
def sprParts (bank : Bool) : Spr → List Part
  | .idl0 => [.idl0 bank]
  | .idl1 => [.idl1 bank]
  | .idh => [.idh bank]
  | .sr0 => sr0Parts
  | .ilx => [.ilx]
  | .ilh => [.ilh]
  | .ill => [.ill]
  | .sr1 => .sr1Rest :: flagParts

/-- What the index update of an `@idm` operand changes: IDH and the IDL of its index register in modes 00 and 01,
nothing in the other two (rule R64). -/
def idmParts (bank : Bool) (m : Idm) : List Part :=
  match m.mode with
  | .postInc | .preDec =>
    match m.idx with
    | .id0 => [.idh bank, .idl0 bank]
    | .id1 => [.idh bank, .idl1 bank]
  | .plus | .minus => []

/-! ### The second operand of the ALU instructions and loads (rule R140) -/

/-- The four forms of `<op2>`. -/
inductive Source where
  | imm (v : Byte)
  | adr (a : Byte)
  | reg (g : Gpr)
  | idm (m : Idm)
  deriving DecidableEq, Repr

/-- Its 8-bit value; `none` only for an `@idm` form that has no meaning (rules R65, R140). -/
def Source.value (s : State) : Source → Option Byte
  | .imm v => some v
  | .adr a => some (s.dmRead (s.directAddr a))
  | .reg g => some (s.x g)
  | .idm m =>
    match idmDisplacement s.chip m with
    | some disp => some (s.dmRead (s.idmAddr m disp))
    | none => none

/-- What fetching it changes: an index register, or nothing. -/
def Source.parts (s : State) : Source → List Part
  | .imm _ => []
  | .adr _ => []
  | .reg _ => []
  | .idm m => idmParts s.idb m

/-- ADD, SUB, CP, AND, OR, XOR and LD with each form of the second operand (rules R141 to R146, R201 to R207). -/
def addForm (d : Gpr) : Source → Instr
  | .imm v => .addImm d v
  | .adr a => .addAdr d a
  | .reg g => .addReg d g
  | .idm m => .addIdm d m

def subForm (d : Gpr) : Source → Instr
  | .imm v => .subImm d v
  | .adr a => .subAdr d a
  | .reg g => .subReg d g
  | .idm m => .subIdm d m

def cpForm (d : Gpr) : Source → Instr
  | .imm v => .cpImm d v
  | .adr a => .cpAdr d a
  | .reg g => .cpReg d g
  | .idm m => .cpIdm d m

def andForm (d : Gpr) : Source → Instr
  | .imm v => .andImm d v
  | .adr a => .andAdr d a
  | .reg g => .andReg d g
  | .idm m => .andIdm d m

def orForm (d : Gpr) : Source → Instr
  | .imm v => .orImm d v
  | .adr a => .orAdr d a
  | .reg g => .orReg d g
  | .idm m => .orIdm d m

def xorForm (d : Gpr) : Source → Instr
  | .imm v => .xorImm d v
  | .adr a => .xorAdr d a
  | .reg g => .xorReg d g
  | .idm m => .xorIdm d m

def ldForm (d : Gpr) : Source → Instr
  | .imm v => .ldImm d v
  | .adr a => .ldAdr d a
  | .reg g => .ldReg d g
  | .idm m => .ldIdm d m

/-! ### Flags in exact arithmetic -/

/-- V says that the exact signed result `y` lies outside -128..127, N that it is negative (rules R9, R10, R157; that V is
signed overflow is the spec's general knowledge, log entry 45). -/
def SignedFlags (y : Int) (t : State) : Prop := t.v = decide (y < -128 ∨ 127 < y) ∧ t.n = decide (y < 0)

/-- The flags after an addition with exact unsigned sum `x` and exact signed sum `y` (rules R9, R10). -/
def SumFlags (x : Nat) (y : Int) (t : State) : Prop :=
  t.c = decide (256 ≤ x) ∧ t.z = decide (x % 256 = 0) ∧ SignedFlags y t

/-- The flags after a subtraction with exact unsigned difference `x` and exact signed difference `y`: C = 1 means no
borrow (rules R9, R10, R142). -/
def DifferenceFlags (x y : Int) (t : State) : Prop :=
  t.c = decide (0 ≤ x) ∧ t.z = decide (x % 256 = 0) ∧ SignedFlags y t

/-- Z and N of a byte that is moved or computed bit by bit (rule R11). -/
def ByteFlags (r : Byte) (t : State) : Prop := t.z = decide (r.toNat = 0) ∧ t.n = decide (128 ≤ r.toNat)

/-- The parts an instruction that writes Rd of the current bank and the listed flags changes, PC among them. -/
def writesGpr (s : State) (d : Gpr) (flags : List Part) : List Part := .pc :: .gpr s.bankSel d :: flags

/-- Rd of the current bank takes the exact unsigned sum `x` modulo 256, the four flags follow `x` and the exact signed
sum `y`, PC advances, and nothing but these and `extra` changes (rules R10, R38). -/
def WritesSum (s : State) (d : Gpr) (extra : List Part) (x : Nat) (y : Int) (o : Res State) : Prop :=
  Completes o fun t =>
    (t.xb s.bankSel d).toNat = x % 256 ∧ SumFlags x y t ∧ t.pc = seq s.pc 1 ∧
      OnlyChanges (writesGpr s d (flagParts ++ extra)) s t

/-- The same for an exact unsigned difference `x` and an exact signed difference `y`. -/
def WritesDifference (s : State) (d : Gpr) (extra : List Part) (x y : Int) (o : Res State) : Prop :=
  Completes o fun t =>
    ((t.xb s.bankSel d).toNat : Int) = x % 256 ∧ DifferenceFlags x y t ∧ t.pc = seq s.pc 1 ∧
      OnlyChanges (writesGpr s d (flagParts ++ extra)) s t

/-- The flags follow the exact differences `x` and `y`, no register takes the result (rules R143, R149). -/
def Compares (s : State) (extra : List Part) (x y : Int) (o : Res State) : Prop :=
  Completes o fun t =>
    DifferenceFlags x y t ∧ t.pc = seq s.pc 1 ∧ OnlyChanges (.pc :: (flagParts ++ extra)) s t

/-- Rd of the current bank takes `r`, Z and N follow it, PC advances, and nothing but these and `extra` changes (rule
R11). -/
def WritesByte (s : State) (d : Gpr) (extra : List Part) (r : Byte) (o : Res State) : Prop :=
  Completes o fun t =>
    t.xb s.bankSel d = r ∧ ByteFlags r t ∧ t.pc = seq s.pc 1 ∧
      OnlyChanges (writesGpr s d (.flagZ :: .flagN :: extra)) s t

/-- Rd of the current bank takes `r`, C takes `c`, Z and N follow `r`, V is kept (rule R180). -/
def WritesShift (s : State) (d : Gpr) (r : Nat) (c : Bool) (o : Res State) : Prop :=
  Completes o fun t =>
    (t.xb s.bankSel d).toNat = r ∧ t.c = c ∧ t.z = decide (r = 0) ∧ t.n = decide (128 ≤ r) ∧ t.pc = seq s.pc 1 ∧
      OnlyChanges (writesGpr s d [.flagC, .flagZ, .flagN]) s t

/-- `r` is `m` with bit `bs` replaced by `v` (rule R260). -/
def EditsBit (m r : Byte) (bs : BitVec 3) (v : Bool) : Prop :=
  ∀ k : Fin 8, r.getLsbD k.val = if k.val = bs.toNat then v else m.getLsbD k.val

/-! ### Addresses of program memory and the stack in exact arithmetic -/

/-- PC becomes `p` when the 20-bit address `a` is loaded: all of it with NP64KW = 1, PC[15:0] alone with 0 (rule R231). -/
def LoadsPc (s : State) (a p : PAddr) : Prop :=
  if s.chip.np64kw then p = a else p.toNat = s.pc.toNat / 65536 * 65536 + a.toNat % 65536

/-- The address `a` stands on the stack of `t` where `s` had its first free slot (rules R40, R42). -/
def PushedAddr (s t : State) (a : PAddr) : Prop :=
  t.sptr = s.sptr + 2#6 ∧ t.hsUsed = s.hsUsed + 2 ∧
    t.hsSlot s.sptr = (if s.chip.np64kw then .addr20 a else .addr16 (BitVec.ofNat 16 a.toNat)) ∧
    t.hsSlot (s.sptr + 1#6) = .unspecified

/-- What a push of an address changes. -/
def pushAddrParts (s : State) : List Part := [.sptr, .slot s.sptr, .slot (s.sptr + 1#6)]

/-- The byte `v` stands on the stack of `t` where `s` had its first free slot (rules R40, R41). -/
def PushedByte (s t : State) (v : Byte) : Prop :=
  t.sptr = s.sptr + 1#6 ∧ t.hsUsed = s.hsUsed + 1 ∧ t.hsSlot s.sptr = .byte v

/-- A push of `k` slots fits within HS_DEPTH (rule R44). -/
def HasRoom (s : State) (k : Nat) : Prop := s.hsUsed + k ≤ s.chip.hsDepth.val

/-- A push of `k` slots has no meaning: beyond HS_DEPTH on a chip without the stack-full exception (rule R44, decision
D32), beyond the 64 slots on any chip (log entry 15). -/
def NoRoom (s : State) (k : Nat) : Prop := ¬HasRoom s k ∧ (s.chip.stackFull = .refuse ∨ 64 < s.hsUsed + k)

/-- On a chip with the stack-full exception a push of `k` slots goes beyond HS_DEPTH, within the 64 slots (rule R324's
variant; log entry 15). -/
def PassesDepth (s : State) (k : Nat) : Prop := ¬HasRoom s k ∧ s.hsUsed + k ≤ 64

/-- A push in `s` that passes HS_DEPTH raises the exception once: it waits in `t` if the stack was within HS_DEPTH before,
or if it waited already (log entry 15). -/
def RaisesStackFull (s t : State) : Prop :=
  t.sfPending = (s.sfPending || decide (s.hsUsed ≤ s.chip.hsDepth.val))

/-- The slot two below `sptr` holds the address `a`, as wide as the chip needs (rules R40, R43). -/
def TopAddr (s : State) (a : PAddr) : Prop :=
  2 ≤ s.hsUsed ∧
    (s.hsSlot (s.sptr - 2#6) = .addr20 a ∨
      (s.chip.np64kw = false ∧ s.hsSlot (s.sptr - 2#6) = .addr16 (BitVec.ofNat 16 a.toNat)))

/-- The slot below `sptr` holds the byte `v`, as a byte or as the low byte of an address (rules R40, R283). -/
def TopByte (s : State) (v : Byte) : Prop := 1 ≤ s.hsUsed ∧ slotByte (s.hsSlot (s.sptr - 1#6)) = some v

/-- IL takes the return address `ret`; ILX only with NP64KW = 1, its bits [7:4] cleared (rules R28, R237). -/
def SavesLink (s t : State) (ret : PAddr) : Prop :=
  t.ill.toNat = ret.toNat % 256 ∧ t.ilh.toNat = ret.toNat / 256 % 256 ∧
    if s.chip.np64kw then t.ilx.toNat = ret.toNat / 65536 else t.ilx = s.ilx

/-- IL[19:0] as a number: ILX[3:0], ILH, ILL (rule R28). -/
def State.ilNat (s : State) : Nat := s.ilx.toNat % 16 * 65536 + s.ilh.toNat * 256 + s.ill.toNat

/-! ### What happens at a boundary (rules R320 to R324, R333) -/

/-- A request that ends STOP or IDLE: one that is deliverable, or under WAKE_MASKED any (rule R333, decision D31). -/
def WakeRequested (s : State) : Prop :=
  s.deliverable0 = true ∨ s.deliverable1 = true ∨
    (s.chip.wakeMasked = true ∧ (s.inputs.irq0 = true ∨ s.inputs.irq1 = true))

/-- A boundary at which an exception may be taken: no reset, not locked, and no instruction that belongs to the one before
is to come, a delay slot or the one after STOP or IDLE (rules R321, R333; the latter is log entry 31). -/
structure OpenBoundary (s : State) : Prop where
  noReset : s.resetPin = false
  notLocked : s.run ≠ .locked
  noSlot : s.delay = none
  noHalt : s.haltAfter = none

/-- At this boundary the core, running or halted, takes the interrupt whose vector is `v`: the deliverable one, by
IRQ_PRIORITY if both are (rules R320 to R323, R333). -/
def TakesInterrupt (s : State) (v : PAddr) : Prop :=
  OpenBoundary s ∧ s.sfPending = false ∧
    (s.deliverable0 = true ∧ (s.chip.irqPriority = .irq0First ∨ s.deliverable1 = false) ∧
        v = s.chip.vecIrq0.address s.pm ∨
      s.deliverable1 = true ∧ (s.chip.irqPriority = .irq1First ∨ s.deliverable0 = false) ∧
        v = s.chip.vecIrq1.address s.pm)

/-- At this boundary the core, running or woken by a request, takes the stack-full exception of a chip that has it, whose
vector is `v` (rule R324's variant; log entries 15 and 33). -/
def TakesStackFull (s : State) (v : PAddr) : Prop :=
  OpenBoundary s ∧ s.sfPending = true ∧ (s.run = .running ∨ WakeRequested s) ∧
    ∃ r, s.chip.stackFull = .trap r ∧ v = r.address s.pm

/-! ### Words that are no instruction (rules R119, R120, R128) -/

/-- The rows of rule R119's table: `L` = IR[7:0] between the two bounds and `c` = IR[11:10] in the list. -/
def invalidRows : List (Nat × Nat × List Nat) :=
  [(0x04, 0x07, [3]), (0x08, 0x0B, [0, 1, 2, 3]), (0x0C, 0x0F, [3]), (0x10, 0x17, [2, 3]), (0x20, 0x27, [2, 3]),
    (0x2C, 0x2F, [1, 3]), (0x30, 0x37, [1, 2, 3]), (0x38, 0x3F, [0, 1, 2, 3]), (0x80, 0xCF, [0, 1, 2, 3])]

/-- A word the source marks "invalid" (rule R119). -/
def InvalidWord (w : Word) : Prop :=
  w.toNat / 4096 = 8 ∧
    ∃ r ∈ invalidRows, r.1 ≤ w.toNat % 256 ∧ w.toNat % 256 ≤ r.2.1 ∧ w.toNat / 1024 % 4 ∈ r.2.2

/-- A word the source marks "reserved": ALUop2 code 111 and MODop1 codes 101 to 111 (rule R120). -/
def ReservedWord (w : Word) : Prop :=
  w.toNat / 1024 = 0x21 ∧ w.toNat % 256 = 0x17 ∨
    w.toNat / 1024 = 0x20 ∧ 0x35 ≤ w.toNat % 256 ∧ w.toNat % 256 ≤ 0x37

/-- A word of PUSH GPR or POP GPR whose two register fields differ (rule R128). -/
def DifferingWord (w : Word) : Prop :=
  w.toNat / 2048 = 0x10 ∧ w.toNat / 4 % 64 = 0x0A ∧ w.toNat / 256 % 4 ≠ w.toNat % 4

/-! ### Which instructions write which flags and special registers -/

/-- The flags an instruction may write, by the table of rule R32; all of SR1 for the two that load it. -/
def flagsWritten : Instr → List Part
  | .addImm _ _ | .addIdm _ _ | .addAdr _ _ | .addReg _ _ | .subImm _ _ | .subIdm _ _ | .subAdr _ _ | .subReg _ _
  | .cpImm _ _ | .cpIdm _ _ | .cpAdr _ _ | .cpReg _ _ | .adcAdr _ _ | .adcReg _ _ | .sbcAdr _ _ | .sbcReg _ _
  | .cpcAdr _ _ | .cpcReg _ _ | .inc _ | .incc _ | .dec _ | .decc _ | .com2 _ | .comc _ | .sla _ => flagParts
  | .sl _ | .rlc _ | .rl _ | .sra _ | .sr _ | .rrc _ | .rr _ => [.flagC, .flagZ, .flagN]
  | .andImm _ _ | .andIdm _ _ | .andAdr _ _ | .andReg _ _ | .orImm _ _ | .orIdm _ _ | .orAdr _ _ | .orReg _ _
  | .xorImm _ _ | .xorIdm _ _ | .xorAdr _ _ | .xorReg _ _ | .tmImm _ _ | .com _ | .ldImm _ _ | .ldIdm _ _ | .ldAdr _ _
  | .ldReg _ _ | .ldGprSpr _ _ | .ldFromTbl _ | .ldFromTbh _ | .ldBank _ _ _ _ | .popGpr _ | .cldLoad _ _ =>
    [.flagZ, .flagN]
  | .bits _ _ | .bitr _ _ | .bitc _ _ | .bitt _ _ => [.flagZ]
  | .ldSprGpr r _ | .popSpr r => if r = .sr1 then flagParts else []
  | _ => []

/-- The instructions rule R27 lists as the writers of SR0. -/
def writesSr0 : Instr → Bool
  | .ldSpr0Imm r _ => r == .sr0
  | .ldSprGpr r _ => r == .sr0
  | .popSpr r => r == .sr0
  | .andSr0 _ => true
  | .orSr0 _ => true
  | .bank _ => true
  | .iret => true
  | _ => false

/-- The writers of TBH and TBL (rule R29). -/
def writesTable : Instr → Bool
  | .ldc => true
  | .ldcInc => true
  | .ldTbl _ => true
  | .ldTbh _ => true
  | _ => false

/-- The writers of TF (rule R33). -/
def writesTf : Instr → Bool
  | .bms _ => true
  | .bmc _ => true
  | _ => false

/-! ### The invariant -/

/-- A slot holds a 16-bit address only with NP64KW = 0 and a 20-bit address only with NP64KW = 1 (rules R40, R42). -/
def slotFits (np64kw : Bool) : HsSlot → Bool
  | .unspecified => true
  | .byte _ => true
  | .addr16 _ => !np64kw
  | .addr20 _ => np64kw

/-- What every step keeps. -/
structure State.Inv (s : State) : Prop where
  /-- Data memory is in canonical form within its 65536 cells (rule R61). -/
  dm : memWf dmSize s.dm = true
  /-- Program memory is in canonical form within its 2^20 words (rule R67). -/
  pm : memWf pmSize s.pm = true
  /-- A full stack of 64 slots has `sptr` wrapped to 0 (rule R44). -/
  full : s.hsFull = true → s.sptr = 0#6
  /-- No more than HS_DEPTH slots are in use where a push beyond them has no meaning (rule R44). -/
  depth : s.chip.stackFull = .refuse → s.hsUsed ≤ s.chip.hsDepth.val
  /-- The stack-full exception waits only where the chip has it (rule R324). -/
  waits : s.chip.stackFull = .refuse → s.sfPending = false
  /-- Addresses on the stack have the width of the chip's program counter (rule R42). -/
  slots : ∀ i : BitVec 6, slotFits s.chip.np64kw (s.hsSlot i) = true

end Sys2Proof.Machine
end

