-- ==== Sys2Proof/Certificates/Slice0/Obligations.lean ====
section
/-! DEFINITION. The statements for the provers. Each docstring names the rules of spec/ it formalises, the instructions it
says complete, and what in it is the spec's own decision or the model's choice. Everywhere `seq` is the spec's `Seq`
(rule R38), whose wrap in the page is decision D16 (log entry 18), V is signed overflow by the spec's general knowledge
GK2 (log entry 45), and the index registers are those of the bank SR0[2] selects, decision D26 (log entry 35). -/

open Sys2Proof Sys2Proof.Machine

/-! ### Reset and what every step keeps -/

/-- What reset leaves. SR0, `sptr`, PC at VEC_RESET, the empty stack of unspecified slots, and no pending target, halt or
lock are rules R40, R48 and R350 with the values of decision D13. The model's choices, which no rule gives: the vector
00000h (log entry 8); zero in R0 to R3 of all banks, the index, link and table registers, SR1 and TF (log entry 21), in
every byte of data memory (log entry 22) and in every word of program memory, for no program is loaded (log entry 23);
no stack-full exception waiting, no reset requested, no event recorded (log entries 28, 29). -/
def Obligations.ResetState : Prop :=
  State.reset.sr0 = 0x00#8 ∧ State.reset.sptr = 0#6 ∧ State.reset.hsUsed = 0 ∧
    State.reset.pc = State.reset.chip.vecReset.address State.reset.pm ∧
    State.reset.delay = none ∧ State.reset.haltAfter = none ∧ State.reset.run = .running ∧
    (∀ i : BitVec 6, State.reset.hsSlot i = .unspecified) ∧ State.reset.events = [] ∧
    State.reset.pc = 0x00000#20 ∧ (∀ (b : BitVec 2) (g : Gpr), State.reset.xb b g = 0#8) ∧
    (∀ k : Bool, State.reset.idxBank k = { idh := 0#8, idl0 := 0#8, idl1 := 0#8 }) ∧
    State.reset.ilx = 0#8 ∧ State.reset.ilh = 0#8 ∧ State.reset.ill = 0#8 ∧ State.reset.tbh = 0#8 ∧
    State.reset.tbl = 0#8 ∧ State.reset.sr1 = 0#8 ∧ State.reset.tf = false ∧
    (∀ a : DAddr, State.reset.dmCell a = 0#8) ∧ (∀ a : PAddr, memRead State.reset.pm a.toNat = 0#16) ∧
    State.reset.sfPending = false ∧ State.reset.resetPin = false

/-- The invariant holds at reset. -/
def Obligations.ResetInv : Prop := State.reset.Inv

/-- Every step from a state with the invariant keeps it, whatever instruction, interrupt or reset it serves. -/
def Obligations.StepKeepsInv : Prop := ∀ s t : State, s.Inv → step s = .next t → t.Inv

/-- No step changes the chip's parameters (rule R4: constant over a run, decision D1) or a word of program memory (rules
R67, R78). -/
def Obligations.StepKeepsProgram : Prop :=
  ∀ s t : State, step s = .next t → t.chip = s.chip ∧ ∀ a : PAddr, memRead t.pm a.toNat = memRead s.pm a.toNat

/-- TF is changed by BMS and BMC alone, SR0 by the instructions of rule R27 alone, TBH and TBL by LDC and their own loads
alone (rules R27, R29, R33, the first two partly derived by the spec). -/
def Obligations.SpecialRegisterWriters : Prop :=
  ∀ (i : Instr) (s t : State), exec i s = .next t →
    (writesTf i = false → t.tf = s.tf) ∧ (writesSr0 i = false → t.sr0 = s.sr0) ∧
      (writesTable i = false → t.tbh = s.tbh ∧ t.tbl = s.tbl)

/-- A flag an instruction's rule does not list keeps its value (rule R7; the lists are rule R32's table). For the one flag
of one instruction that the spec leaves to a parameter, C after AND of two registers, LOGIC_C_RULE must be KEEP. -/
def Obligations.UnlistedFlagsKept : Prop :=
  ∀ (i : Instr) (s t : State), exec i s = .next t →
    ∀ p ∈ flagParts, p ∉ flagsWritten i → (p = .flagC → ∀ d g, i = .andReg d g → s.chip.logicC = .keep) → p.same s t

/-! ### Encoding -/

/-- Decoding the encoding of any well-formed instruction gives it back, with every operand at every value. -/
def Obligations.DecodeEncode : Prop :=
  ∀ (c : Chip) (i : Instr) (next : Word), i.wellFormed c = true → (i.isLong = true → next = encodeSecond i) →
    decode c (encodeFirst c i) next = .ok i

/-- What decodes is well formed, and its first word says its length (rules R90, R123, the latter derived by the spec);
the word after a one-word instruction has no part in it. -/
def Obligations.DecodedInstructions : Prop :=
  ∀ (c : Chip) (w next : Word) (i : Instr), decode c w next = .ok i →
    i.wellFormed c = true ∧ isFirstOfTwo w = i.isLong ∧ (i.isLong = false → ∀ next', decode c w next' = .ok i)

/-- Exactly the words of rule R119 are invalid, those of rule R120 reserved, and PUSH and POP with two different register
fields rejected (rule R128, decision D27): every other word is an instruction (rule R118). -/
def Obligations.RejectedWords : Prop :=
  ∀ (c : Chip) (w next : Word),
    (decode c w next = .error .invalid ↔ InvalidWord w) ∧ (decode c w next = .error .reserved ↔ ReservedWord w) ∧
      (decode c w next = .error .fieldsDiffer ↔ DifferingWord w)

/-- The groups whose words all have eight operand bits or more: match, mask and fields of rules R100, R102, R103, R104,
R115, R116 and R117. The codes of the registers, `gprCode` and `spr0Code`, are decision D6, which the spec takes from
general knowledge (GK3, GK4; log entry 16); `condCode` is rule R97. -/
def Obligations.EncodingsWithImmediates : Prop :=
  ∀ (c : Chip) (w next : Word) (d : Gpr) (r : Spr0) (cc : Cond), gprCode d = w.extractLsb' 8 2 →
    spr0Code r = w.extractLsb' 8 2 → condCode cc = w.extractLsb' 8 4 →
    let low := w.extractLsb' 0 8
    let bs := w.extractLsb' 8 3
    (w &&& 0xFC00#16 = 0x0000#16 → decode c w next = .ok (.addImm d low)) ∧
    (w &&& 0xFC00#16 = 0x0400#16 → decode c w next = .ok (.subImm d low)) ∧
    (w &&& 0xFC00#16 = 0x0800#16 → decode c w next = .ok (.cpImm d low)) ∧
    (w &&& 0xFC00#16 = 0x0C00#16 → decode c w next = .ok (.ldImm d low)) ∧
    (w &&& 0xFC00#16 = 0x1000#16 → decode c w next = .ok (.tmImm d low)) ∧
    (w &&& 0xFC00#16 = 0x1400#16 → decode c w next = .ok (.andImm d low)) ∧
    (w &&& 0xFC00#16 = 0x1800#16 → decode c w next = .ok (.orImm d low)) ∧
    (w &&& 0xFC00#16 = 0x1C00#16 → decode c w next = .ok (.xorImm d low)) ∧
    (w &&& 0xFC00#16 = 0x4000#16 → decode c w next = .ok (.addAdr d low)) ∧
    (w &&& 0xFC00#16 = 0x4400#16 → decode c w next = .ok (.subAdr d low)) ∧
    (w &&& 0xFC00#16 = 0x4800#16 → decode c w next = .ok (.cpAdr d low)) ∧
    (w &&& 0xFC00#16 = 0x4C00#16 → decode c w next = .ok (.ldAdr d low)) ∧
    (w &&& 0xF800#16 = 0x5000#16 → decode c w next = .ok (.bitt low bs)) ∧
    (w &&& 0xF800#16 = 0x5800#16 → decode c w next = .ok (.bits low bs)) ∧
    (w &&& 0xFC00#16 = 0x6000#16 → decode c w next = .ok (.adcAdr d low)) ∧
    (w &&& 0xFC00#16 = 0x6400#16 → decode c w next = .ok (.sbcAdr d low)) ∧
    (w &&& 0xFC00#16 = 0x6800#16 → decode c w next = .ok (.cpcAdr d low)) ∧
    (w &&& 0xFC00#16 = 0x6C00#16 → decode c w next = .ok (.stAdr low d)) ∧
    (w &&& 0xF800#16 = 0x7000#16 → decode c w next = .ok (.bitr low bs)) ∧
    (w &&& 0xF800#16 = 0x7800#16 → decode c w next = .ok (.bitc low bs)) ∧
    (w &&& 0xFC00#16 = 0x9000#16 → decode c w next = .ok (.ldSpr0Imm r low)) ∧
    (w &&& 0xFC00#16 = 0x9400#16 → decode c w next = .ok (.andAdr d low)) ∧
    (w &&& 0xFC00#16 = 0x9800#16 → decode c w next = .ok (.orAdr d low)) ∧
    (w &&& 0xFC00#16 = 0x9C00#16 → decode c w next = .ok (.xorAdr d low)) ∧
    (w &&& 0xE000#16 = 0xA000#16 → decode c w next = .ok (.jr cc (w.extractLsb' 12 1 ++ low))) ∧
    (w &&& 0xF000#16 = 0xC000#16 → decode c w next = .ok (.calls (w.extractLsb' 0 12))) ∧
    (w &&& 0xF000#16 = 0xD000#16 → decode c w next = .ok (.lnks (w.extractLsb' 0 12))) ∧
    (w &&& 0xFC00#16 = 0xE000#16 → decode c w next = .ok (.cldLoad d low)) ∧
    (w &&& 0xFC00#16 = 0xE400#16 → decode c w next = .ok (.cldStore low d)) ∧
    (w &&& 0xFC00#16 = 0xE800#16 → decode c w next = .ok (.jnzd d low)) ∧
    (w &&& 0xFC00#16 = 0xEC00#16 → decode c w next = .ok (.sys low)) ∧
    (w &&& 0xF000#16 = 0xF000#16 → decode c w next = .ok (.cop (w.extractLsb' 0 12)))

/-- The other groups: match, mask and fields of rules R101, R106 to R114 and R126 to R128, bits printed "x" ignored (rule
R121). The codes of the registers are decision D6 (log entry 16), those of BMS and BMC D8 (log entry 6), the bank fields
D9 (log entry 7): each of IR[5:2], counted from IR[2], is one bit of one bank number, the one BANKLD_FIELDS says. -/
def Obligations.EncodingsWithRegisters : Prop :=
  ∀ (c : Chip) (w next : Word) (d g : Gpr) (r : Spr) (cc : Cond) (m : Idm), gprCode d = w.extractLsb' 8 2 →
    gprCode g = w.extractLsb' 0 2 → sprCode r = w.extractLsb' 0 3 → condCode cc = w.extractLsb' 8 4 →
    idxCode m.idx = w.extractLsb' 7 1 → modeCode m.mode = w.extractLsb' 5 2 → m.off = w.extractLsb' 0 5 →
    let imm := w.extractLsb' 8 2 ++ w.extractLsb' 0 6
    let sel := w.extractLsb' 8 2 ++ w.extractLsb' 0 2
    let p := bankdPlace c.bankFields
    let q := banksPlace c.bankFields
    (w &&& 0xFC00#16 = 0x2000#16 → decode c w next = .ok (.addIdm d m)) ∧
    (w &&& 0xFC00#16 = 0x2400#16 → decode c w next = .ok (.subIdm d m)) ∧
    (w &&& 0xFC00#16 = 0x2800#16 → decode c w next = .ok (.cpIdm d m)) ∧
    (w &&& 0xFC00#16 = 0x2C00#16 → decode c w next = .ok (.ldIdm d m)) ∧
    (w &&& 0xFC00#16 = 0x3000#16 → decode c w next = .ok (.stIdm m d)) ∧
    (w &&& 0xFC00#16 = 0x3400#16 → decode c w next = .ok (.andIdm d m)) ∧
    (w &&& 0xFC00#16 = 0x3800#16 → decode c w next = .ok (.orIdm d m)) ∧
    (w &&& 0xFC00#16 = 0x3C00#16 → decode c w next = .ok (.xorIdm d m)) ∧
    (w &&& 0xFCFC#16 = 0x8000#16 → decode c w next = .ok (.addReg d g)) ∧
    (w &&& 0xFCFC#16 = 0x8400#16 → decode c w next = .ok (.subReg d g)) ∧
    (w &&& 0xFCFC#16 = 0x8800#16 → decode c w next = .ok (.cpReg d g)) ∧
    (w &&& 0xFCFC#16 = 0x8004#16 → decode c w next = .ok (.adcReg d g)) ∧
    (w &&& 0xFCFC#16 = 0x8404#16 → decode c w next = .ok (.sbcReg d g)) ∧
    (w &&& 0xFCFC#16 = 0x8804#16 → decode c w next = .ok (.cpcReg d g)) ∧
    (w &&& 0xFCFC#16 = 0x800C#16 → decode c w next = .ok (.andReg d g)) ∧
    (w &&& 0xFCFC#16 = 0x840C#16 → decode c w next = .ok (.orReg d g)) ∧
    (w &&& 0xFCFC#16 = 0x880C#16 → decode c w next = .ok (.xorReg d g)) ∧
    (w &&& 0xFCFC#16 = 0x8828#16 → decode c w next = .ok (.ldReg d g)) ∧
    (w &&& 0xFCFF#16 = 0x8010#16 → decode c w next = .ok (.sla d)) ∧
    (w &&& 0xFCFF#16 = 0x8011#16 → decode c w next = .ok (.sl d)) ∧
    (w &&& 0xFCFF#16 = 0x8012#16 → decode c w next = .ok (.rlc d)) ∧
    (w &&& 0xFCFF#16 = 0x8013#16 → decode c w next = .ok (.rl d)) ∧
    (w &&& 0xFCFF#16 = 0x8014#16 → decode c w next = .ok (.sra d)) ∧
    (w &&& 0xFCFF#16 = 0x8015#16 → decode c w next = .ok (.sr d)) ∧
    (w &&& 0xFCFF#16 = 0x8016#16 → decode c w next = .ok (.rrc d)) ∧
    (w &&& 0xFCFF#16 = 0x8017#16 → decode c w next = .ok (.rr d)) ∧
    (w &&& 0xFCFF#16 = 0x8410#16 → decode c w next = .ok (.inc d)) ∧
    (w &&& 0xFCFF#16 = 0x8411#16 → decode c w next = .ok (.incc d)) ∧
    (w &&& 0xFCFF#16 = 0x8412#16 → decode c w next = .ok (.dec d)) ∧
    (w &&& 0xFCFF#16 = 0x8413#16 → decode c w next = .ok (.decc d)) ∧
    (w &&& 0xFCFF#16 = 0x8414#16 → decode c w next = .ok (.com d)) ∧
    (w &&& 0xFCFF#16 = 0x8415#16 → decode c w next = .ok (.com2 d)) ∧
    (w &&& 0xFCFF#16 = 0x8416#16 → decode c w next = .ok (.comc d)) ∧
    (w &&& 0xFCF8#16 = 0x8018#16 → decode c w next = .ok (.ldSprGpr r d)) ∧
    (w &&& 0xFCF8#16 = 0x8418#16 → decode c w next = .ok (.ldGprSpr d r)) ∧
    (w &&& 0xFCF8#16 = 0x8818#16 → decode c w next = .ok (.swap d r)) ∧
    (w &&& 0xFCFA#16 = 0x8C18#16 → decode c w next = .ok (.ldTbl d)) ∧
    (w &&& 0xFCFA#16 = 0x8C1A#16 → decode c w next = .ok (.ldTbh d)) ∧
    (w &&& 0xFCF8#16 = 0x8020#16 → decode c w next = .ok (.pushSpr r)) ∧
    (w &&& 0xFCF8#16 = 0x8420#16 → decode c w next = .ok (.popSpr r)) ∧
    (w &&& 0xFCFC#16 = 0x8028#16 → d = g → decode c w next = .ok (.pushGpr d)) ∧
    (w &&& 0xFCFC#16 = 0x8428#16 → d = g → decode c w next = .ok (.popGpr d)) ∧
    (w &&& 0xFCFE#16 = 0x8C28#16 → decode c w next = .ok (.ldFromTbl d)) ∧
    (w &&& 0xFCFE#16 = 0x8C2A#16 → decode c w next = .ok (.ldFromTbh d)) ∧
    (w &&& 0xFCFC#16 = 0x802C#16 → decode c w next = .ok .pop) ∧
    (w &&& 0xFCFE#16 = 0x882C#16 → decode c w next = .ok .ldc) ∧
    (w &&& 0xFCFE#16 = 0x882E#16 → decode c w next = .ok .ldcInc) ∧
    (w &&& 0xFCFF#16 = 0x8030#16 → decode c w next = .ok .lret) ∧
    (w &&& 0xFCFF#16 = 0x8031#16 → decode c w next = .ok .ret) ∧
    (w &&& 0xFCFF#16 = 0x8032#16 → decode c w next = .ok .iret) ∧
    (w &&& 0xFCFF#16 = 0x8033#16 → decode c w next = .ok .nop) ∧
    (w &&& 0xFCFF#16 = 0x8034#16 → decode c w next = .ok .brk) ∧
    [p.1, p.2, q.1, q.2].Perm [3, 2, 1, 0] ∧
    (w &&& 0xFCC0#16 = 0x8040#16 → decode c w next =
      .ok (.ldBank (w.extractLsb' (p.1 + 2) 1 ++ w.extractLsb' (p.2 + 2) 1) d
        (w.extractLsb' (q.1 + 2) 1 ++ w.extractLsb' (q.2 + 2) 1) g)) ∧
    (w &&& 0xFCC0#16 = 0x8440#16 → decode c w next = .ok (.andSr0 imm)) ∧
    (w &&& 0xFCC0#16 = 0x8840#16 → decode c w next = .ok (.orSr0 imm)) ∧
    (w &&& 0xFCC0#16 = 0x8C40#16 → decode c w next = .ok (.bank (w.extractLsb' 3 2))) ∧
    (w &&& 0xFCFC#16 = 0x8C00#16 → decode c w next = .ok (if c.selectsBms sel then .bms sel else .bmc sel)) ∧
    (w &&& 0xF0F0#16 = 0x80D0#16 → decode c w next = .ok (.lcall cc (w.extractLsb' 0 4 ++ next))) ∧
    (w &&& 0xF0F0#16 = 0x80E0#16 → decode c w next = .ok (.llnk cc (w.extractLsb' 0 4 ++ next))) ∧
    (w &&& 0xF0F0#16 = 0x80F0#16 → decode c w next = .ok (.ljp cc (w.extractLsb' 0 4 ++ next)))

/-- Words the spec prints with its examples decode to the instructions they stand for. -/
def Obligations.PrintedWords : Prop :=
  ∀ c : Chip,
    decode c 0x0034#16 0#16 = .ok (.addImm .r0 0x34#8) ∧ decode c 0x2D3E#16 0#16 = .ok (.ldIdm .r1 ⟨.id0, .preDec, 30#5⟩) ∧
    decode c 0x5B25#16 0#16 = .ok (.bits 0x25#8 3#3) ∧ decode c 0x8801#16 0#16 = .ok (.cpReg .r0 .r1) ∧
    decode c 0x8113#16 0#16 = .ok (.rl .r1) ∧ decode c 0x831E#16 0#16 = .ok (.ldSprGpr .ill .r3) ∧
    decode c 0x8B42#16 0#16 = .ok (.orSr0 0xC2#8) ∧ decode c 0x84D1#16 0x0107#16 = .ok (.lcall .nz 0x10107#20) ∧
    decode c 0xB3A9#16 0#16 = .ok (.jr .z 0x1A9#9) ∧ decode c 0xFD01#16 0#16 = .ok (.cop 0xD01#12)

/-! ### Steps, boundaries, exceptions, reset -/

/-- A step runs the decoded instruction (rules R36, R37, R75): with no reset requested, the core running and no exception
taken at the boundary, when the mapped words at PC decode to `i`, step is exec of `i`. Around exec step does this: it
holds back what a JNZD or STOP before left pending (`beginInstr`), completes it afterwards and samples the next inputs
(`endInstr`), and refuses in a delay slot what is not 1W1C. With nothing pending, step is exec of `i` followed by the
sampling alone. That the second word stands at `Seq(PC, 1)` is decision D35 (log entry 43), the refusal decision D25 (log
entry 34), the set 1W1C partly the spec's general knowledge GK8 (log entry 20). -/
def Obligations.StepRunsDecodedInstruction : Prop :=
  ∀ (s : State) (i : Instr), s.resetPin = false → s.run = .running → boundaryException s = none →
    s.pmMapped s.pc = true → (i.isLong = true → s.pmMapped (seq s.pc 1) = true) →
    decode s.chip (memRead s.pm s.pc.toNat) (if i.isLong then memRead s.pm (seq s.pc 1).toNat else 0#16) = .ok i →
    (slotAllows s i = true → step s = andThen (exec i s.beginInstr) fun t => .next (endInstr s t)) ∧
    (slotAllows s i = false → step s = .refused .delaySlotNotOneCycle) ∧
    (s.delay = none → s.haltAfter = none → step s = andThen (exec i s) fun t => .next t.sample)

/-- A word that is no instruction stops the run by name (rules R119, R120, R128: the refusals are decisions D24, D27), and
so does a fetch from unmapped program memory (rule R67, decision D5): of the first word, and of the second word of LCALL,
LLNK and LJP, which stands at `Seq(PC, 1)` (rule R37, decision D35, log entry 43). -/
def Obligations.BadFetchStops : Prop :=
  ∀ s : State, s.resetPin = false → s.run = .running → boundaryException s = none →
    (s.pmMapped s.pc = false → step s = .fault .pmUnmapped) ∧
    (s.pmMapped s.pc = true →
      (InvalidWord (memRead s.pm s.pc.toNat) → step s = .refused .invalidInstruction) ∧
      (ReservedWord (memRead s.pm s.pc.toNat) → step s = .refused .reservedInstruction) ∧
      (DifferingWord (memRead s.pm s.pc.toNat) → step s = .refused .pushPopFieldsDiffer) ∧
      (memRead s.pm s.pc.toNat &&& 0xF0F0#16 ∈ [0x80D0#16, 0x80E0#16, 0x80F0#16] → s.pmMapped (seq s.pc 1) = false →
        step s = .fault .pmUnmapped))

/-- After the one-cycle instruction in a delay slot PC is the pending target and nothing is pending any more (rules R236,
R352; decision D25). BREAK there, which holds PC, is log entry 32 and not covered. -/
def Obligations.DelaySlotThenTarget : Prop :=
  ∀ (s t : State) (i : Instr) (a : PAddr), s.resetPin = false → s.run = .running → s.delay = some a →
    fetchInstr s = .next i → oneCycle i = true → i ≠ .brk → exec i s.beginInstr = .next t →
    Completes (step s) fun u =>
      u.pc = a ∧ u.delay = none ∧ (s.haltAfter = none → u.run = .running) ∧ OnlyChanges [.pc, .run, .inputs, .tick] t u

/-- The one instruction after STOP or IDLE is executed, and then the core is halted (rules R333, R353; decision D31). No
interrupt is taken in between, the model's choice (log entry 31). Of every instruction but BREAK; that it holds of three
cases too is not rule R333's nor D31's but the model's choice (log entry 33): after a second STOP or IDLE the core halts in
the state the first one asked for and what the second one asks for stays pending; after JNZD it halts before the delay
slot, the target pending; after a push that raises the stack-full exception it halts with the exception waiting, where
rule R324's variant would enter it. -/
def Obligations.HaltAfterNextInstruction : Prop :=
  ∀ (s t : State) (i : Instr) (m : HaltMode), s.resetPin = false → s.run = .running → s.haltAfter = some m →
    s.delay = none → fetchInstr s = .next i → exec i s.beginInstr = .next t → i ≠ .brk →
    Completes (step s) fun u => u.run = .halted m ∧ OnlyChanges [.run, .inputs, .tick] t u

/-- A locked core, and a halted one that no request wakes, keeps its whole state (rules R287, R333, R334; decisions D30,
D31): a step changes the inputs of the next one and their number alone. A halted core that a request wakes where no
exception is taken runs again, and nothing else changes, nothing is pushed: when the request is masked and WAKE_MASKED
lets it wake (rule R333, decision D31), and before a delay slot or the instruction after a second STOP or IDLE (log entry
33). -/
def Obligations.LockedAndHaltedRest : Prop :=
  ∀ s : State, s.resetPin = false →
    (s.run = .locked ∨ (∃ m, s.run = .halted m) ∧ ¬WakeRequested s →
      Completes (step s) (OnlyChanges [.inputs, .tick] s)) ∧
    ((∃ m, s.run = .halted m) → WakeRequested s →
      (s.sfPending = false ∧ s.deliverable0 = false ∧ s.deliverable1 = false) ∨ s.delay.isSome = true ∨
        s.haltAfter.isSome = true →
      Completes (step s) fun t => t.run = .running ∧ OnlyChanges [.run, .inputs, .tick] s t)

/-- Interrupt entry, of a running core or of a halted one that the request wakes (rules R321, R322, R323, R333; the sequence
is decision D11, the priority and boundaries D12): the address of the next instruction is pushed, ie is cleared, PC is
the vector, one address or a function of the program image (decision D10, log entry 8), nothing else changes. -/
def Obligations.InterruptEntry : Prop :=
  ∀ (s : State) (v : PAddr), TakesInterrupt s v → HasRoom s 2 →
    Completes (step s) fun t =>
      PushedAddr s t s.pc ∧ t.ie = false ∧ t.pc = v ∧ t.run = .running ∧
        OnlyChanges ([.pc, .sr0 1, .run, .inputs, .tick] ++ pushAddrParts s) s t

/-- When no exception is taken: before a delay slot or the instruction after STOP or IDLE, and when nothing waits and no
request is deliverable (rules R320, R321; decisions D12 and, for STOP and IDLE, log entry 31). A request is deliverable
when it, its own enable and the global enable are all 1. -/
def Obligations.NoExceptionTaken : Prop :=
  ∀ s : State,
    (s.delay.isSome = true ∨ s.haltAfter.isSome = true → boundaryException s = none) ∧
    (s.sfPending = false →
      ¬(s.sr0.getLsbD 1 = true ∧ s.sr0.getLsbD 6 = true ∧ s.inputs.irq0 = true) →
      ¬(s.sr0.getLsbD 1 = true ∧ s.sr0.getLsbD 7 = true ∧ s.inputs.irq1 = true) →
      boundaryException s = none)

/-- The stack-full exception of rule R324's variant, on a chip that has it (log entry 15): PUSH GPR, PUSH SPR, CALLS, a
taken LCALL (pushGpr, pushSpr, calls, lcall) and an interrupt's entry that go beyond HS_DEPTH complete, and the one that
crosses it leaves the exception waiting; at the next open boundary, or when a request wakes a halted core (log entry 33),
control goes to VEC_SF with the address of the next instruction pushed and ie cleared. -/
def Obligations.StackFullException : Prop :=
  ∀ (d : Gpr) (r : Spr) (cc : Cond) (off : BitVec 12) (imm v : PAddr) (vec : VectorRule) (s : State),
    s.chip.stackFull = .trap vec →
    (PassesDepth s 1 →
      (Completes (exec (.pushGpr d) s) fun t =>
        PushedByte s t (s.x d) ∧ RaisesStackFull s t ∧ t.pc = seq s.pc 1 ∧
          OnlyChanges [.pc, .sptr, .slot s.sptr, .sfPending] s t) ∧
      Completes (exec (.pushSpr r) s) fun t =>
        PushedByte s t (s.spr r) ∧ RaisesStackFull s t ∧ t.pc = seq s.pc 1 ∧
          OnlyChanges [.pc, .sptr, .slot s.sptr, .sfPending] s t) ∧
    (PassesDepth s 2 →
      (Completes (exec (.calls off) s) fun t =>
        PushedAddr s t (seq s.pc 1) ∧ RaisesStackFull s t ∧ t.pc.toNat = s.pc.toNat / 4096 * 4096 + off.toNat ∧
          OnlyChanges (.pc :: .sfPending :: pushAddrParts s) s t) ∧
      (s.cond cc = true → Completes (exec (.lcall cc imm) s) fun t =>
        PushedAddr s t (seq s.pc 2) ∧ RaisesStackFull s t ∧ LoadsPc s imm t.pc ∧
          OnlyChanges (.pc :: .sfPending :: pushAddrParts s) s t) ∧
      (TakesInterrupt s v → Completes (step s) fun t =>
        PushedAddr s t s.pc ∧ RaisesStackFull s t ∧ t.ie = false ∧ t.pc = v ∧ t.run = .running ∧
          OnlyChanges ([.pc, .sr0 1, .sfPending, .run, .inputs, .tick] ++ pushAddrParts s) s t)) ∧
    (TakesStackFull s v → s.chip.hsDepth.val < s.hsUsed → s.hsUsed + 2 ≤ 64 →
      Completes (step s) fun t =>
        PushedAddr s t s.pc ∧ t.ie = false ∧ t.pc = v ∧ t.sfPending = false ∧ t.run = .running ∧
          OnlyChanges ([.pc, .sr0 1, .sfPending, .run, .inputs, .tick] ++ pushAddrParts s) s t)

/-- Reset in any state, locked and halted ones too (rules R48, R350; the values are decision D13): the decided items get
their values; program memory, the image, stays (rule R48), and so do the parameters (rule R4). The model's choices (log
entry 29): reset is a step of its own that a request asks for and that withdraws the request, the record of past events
stays, and a stack-full exception that waits is dropped. -/
def Obligations.ResetStep : Prop :=
  ∀ s : State, s.resetPin = true →
    Completes (step s) fun t =>
      t.sr0 = 0x00#8 ∧ t.sptr = 0#6 ∧ t.hsUsed = 0 ∧ t.pc = s.chip.vecReset.address s.pm ∧
        t.delay = none ∧ t.haltAfter = none ∧ t.run = .running ∧ t.sfPending = false ∧ t.resetPin = false ∧ (∀ i : BitVec 6, t.hsSlot i = .unspecified) ∧
        memWf dmSize t.dm = true ∧ (∀ a : PAddr, (Part.pm a).same s t) ∧ t.chip = s.chip ∧ t.events = s.events

/-- Entry and IRET are inverse (rules R240, R323, R325; the entry sequence is decision D11, log entry 30, and R325 is
derived by the spec from it): IRET as the first instruction of a handler goes back to where the interrupt fell, with ie
set, and leaves everything but two free stack slots as before. -/
def Obligations.InterruptThenReturn : Prop :=
  ∀ (s t : State) (v : PAddr), HasRoom s 2 → takeException v s = .next t →
    Completes (exec .iret t) fun u =>
      u.ie = true ∧ u.sptr = s.sptr ∧ u.hsUsed = s.hsUsed ∧ LoadsPc t s.pc u.pc ∧
        OnlyChanges [.pc, .sr0 1, .slot s.sptr, .slot (s.sptr + 1#6)] s u

/-! ### Operand addresses -/

/-- The direct address: page 00h or IDH by eid, the offset below it (rule R63). That the IDH is the one of the index bank
SR0[2] selects is decision D26 (log entry 35). -/
def Obligations.DirectAddress : Prop :=
  ∀ (s : State) (adr : Byte),
    (s.directAddr adr).toNat =
      (if s.sr0.getLsbD 0 then 256 * (s.idxBank (s.sr0.getLsbD 2)).idh.toNat else 0) + adr.toNat

/-- The four modes of an indexed operand (rule R64; the ones extension of the minus modes is derived by the spec, rule
R65): the address accessed and the index register afterwards, modulo 65536. The register is the one of the bank SR0[2]
selects (decision D26, log entry 35). -/
def Obligations.IndexedAddress : Prop :=
  ∀ (s : State) (x : IdxReg) (off : BitVec 5),
    let id := 256 * s.idx.idh.toNat + (match x with | .id0 => s.idx.idl0.toNat | .id1 => s.idx.idl1.toNat)
    (s.idReg x).toNat = id ∧
    (∃ disp, idmDisplacement s.chip ⟨x, .postInc, off⟩ = some disp ∧
      (s.idmAddr ⟨x, .postInc, off⟩ disp).toNat = id ∧
      ((s.idmUpdate ⟨x, .postInc, off⟩ disp).idReg x).toNat = (id + off.toNat) % 65536) ∧
    (∃ disp, idmDisplacement s.chip ⟨x, .plus, off⟩ = some disp ∧
      (s.idmAddr ⟨x, .plus, off⟩ disp).toNat = (id + off.toNat) % 65536 ∧ s.idmUpdate ⟨x, .plus, off⟩ disp = s) ∧
    (off ≠ 0#5 →
      (∃ disp, idmDisplacement s.chip ⟨x, .preDec, off⟩ = some disp ∧
        (s.idmAddr ⟨x, .preDec, off⟩ disp).toNat = (id + 65536 - (32 - off.toNat)) % 65536 ∧
        ((s.idmUpdate ⟨x, .preDec, off⟩ disp).idReg x).toNat = (id + 65536 - (32 - off.toNat)) % 65536) ∧
      (∃ disp, idmDisplacement s.chip ⟨x, .minus, off⟩ = some disp ∧
        (s.idmAddr ⟨x, .minus, off⟩ disp).toNat = (id + 65536 - (32 - off.toNat)) % 65536 ∧
        s.idmUpdate ⟨x, .minus, off⟩ disp = s))

/-- An instruction with an indexed operand leaves its index register, the one of the bank SR0[2] selects (decision D26, log
entry 35), as the operand's update does, also CP (rules R64, R80, R140, R203). -/
def Obligations.IndexRegisterAfterAccess : Prop :=
  ∀ (i : Instr) (m : Idm) (disp : DAddr) (s t : State), i.idm? = some m → idmDisplacement s.chip m = some disp →
    exec i s = .next t →
    ∀ x : IdxReg, t.idReg x = (s.idmUpdate m disp).idReg x

/-- A minus mode with the offset field 00000 stops every instruction that has an indexed operand, on a chip with
IDM_NEG0 = refuse (rules R65, R101, R140; decision D17). -/
def Obligations.MinusZeroStops : Prop :=
  ∀ (i : Instr) (m : Idm) (s : State), i.idm? = some m → m.minusZero = true → s.chip.idmNeg0 = .refuse →
    exec i s = .refused .idmMinusZero

/-! ### ALU -/

/-- ADD in all four forms (addImm, addIdm, addAdr, addReg): the sum modulo 256 and its flags (rules R9, R10, R140, R141). -/
def Obligations.AddAddsOperand : Prop :=
  ∀ (d : Gpr) (src : Source) (b : Byte) (s : State), src.value s = some b →
    WritesSum s d (src.parts s) ((s.x d).toNat + b.toNat) ((s.x d).toInt + b.toInt) (exec (addForm d src) s)

/-- SUB in all four forms (subImm, subIdm, subAdr, subReg): the difference modulo 256, C = 1 for no borrow (rules R9, R10,
R140, R142). -/
def Obligations.SubSubtractsOperand : Prop :=
  ∀ (d : Gpr) (src : Source) (b : Byte) (s : State), src.value s = some b →
    WritesDifference s d (src.parts s) (((s.x d).toNat : Int) - b.toNat) ((s.x d).toInt - b.toInt) (exec (subForm d src) s)

/-- CP in all four forms (cpImm, cpIdm, cpAdr, cpReg): the flags of SUB, no register written (rules R140, R143). -/
def Obligations.CpComparesOperand : Prop :=
  ∀ (d : Gpr) (src : Source) (b : Byte) (s : State), src.value s = some b →
    Compares s (src.parts s) (((s.x d).toNat : Int) - b.toNat) ((s.x d).toInt - b.toInt) (exec (cpForm d src) s)

/-- AND in all four forms (andImm, andIdm, andAdr, andReg): the conjunction, Z and N; C and V are kept, but for the
register form on a chip with LOGIC_C_RULE = AND_RR_CLEARS, which clears C (rules R140, R144; decision D15). -/
def Obligations.AndMasksOperand : Prop :=
  (∀ (d : Gpr) (src : Source) (b : Byte) (s : State), src.value s = some b →
    (s.chip.logicC = .keep ∨ ∀ g, src ≠ .reg g) →
    WritesByte s d (src.parts s) (s.x d &&& b) (exec (andForm d src) s)) ∧
  ∀ (d g : Gpr) (s : State), s.chip.logicC = .andRRClears →
    WritesByte s d [.flagC] (s.x d &&& s.x g) (exec (.andReg d g) s) ∧
      Completes (exec (.andReg d g) s) fun t => t.c = false

/-- OR and XOR in all four forms (orImm, orIdm, orAdr, orReg, xorImm, xorIdm, xorAdr, xorReg): every bit of the result, Z
and N, C and V kept (rules R11, R140, R145, R146). -/
def Obligations.OrXorCombineOperand : Prop :=
  ∀ (d : Gpr) (src : Source) (b : Byte) (s : State), src.value s = some b →
    WritesByte s d (src.parts s) (s.x d ||| b) (exec (orForm d src) s) ∧
      WritesByte s d (src.parts s) (s.x d ^^^ b) (exec (xorForm d src) s)

/-- ADC, SBC and CPC with a direct or a register operand (adcAdr, adcReg, sbcAdr, sbcReg, cpcAdr, cpcReg): the carry before
the instruction takes part, for SBC and CPC as the complement of a borrow (rules R140, R147, R148, R149). -/
def Obligations.CarryFormsUseCarry : Prop :=
  ∀ (d g : Gpr) (adr : Byte) (s : State),
    let a := s.x d
    let m := s.dmRead (s.directAddr adr)
    let b := s.x g
    let c := s.c.toNat
    WritesSum s d [] (a.toNat + m.toNat + c) (a.toInt + m.toInt + c) (exec (.adcAdr d adr) s) ∧
    WritesSum s d [] (a.toNat + b.toNat + c) (a.toInt + b.toInt + c) (exec (.adcReg d g) s) ∧
    WritesDifference s d [] ((a.toNat : Int) - m.toNat - (1 - c)) (a.toInt - m.toInt - (1 - c)) (exec (.sbcAdr d adr) s) ∧
    WritesDifference s d [] ((a.toNat : Int) - b.toNat - (1 - c)) (a.toInt - b.toInt - (1 - c)) (exec (.sbcReg d g) s) ∧
    Compares s [] ((a.toNat : Int) - m.toNat - (1 - c)) (a.toInt - m.toInt - (1 - c)) (exec (.cpcAdr d adr) s) ∧
    Compares s [] ((a.toNat : Int) - b.toNat - (1 - c)) (a.toInt - b.toInt - (1 - c)) (exec (.cpcReg d g) s)

/-- The one-register arithmetic (inc, incc, dec, decc, com, com2, comc): INC adds 1, INCC the carry, DEC subtracts 1, DECC
subtracts 1 without carry, COM complements, COM2 negates, COMC complements and adds the carry (rules R150 to R156). -/
def Obligations.OneRegisterArithmetic : Prop :=
  ∀ (d : Gpr) (s : State),
    let a := s.x d
    let c := s.c.toNat
    WritesSum s d [] (a.toNat + 1) (a.toInt + 1) (exec (.inc d) s) ∧
    WritesSum s d [] (a.toNat + c) (a.toInt + c) (exec (.incc d) s) ∧
    WritesDifference s d [] ((a.toNat : Int) - 1) (a.toInt - 1) (exec (.dec d) s) ∧
    WritesDifference s d [] ((a.toNat : Int) - (1 - c)) (a.toInt - (1 - c)) (exec (.decc d) s) ∧
    WritesByte s d [] (~~~a) (exec (.com d) s) ∧
    WritesSum s d [] (256 - a.toNat) (-a.toInt) (exec (.com2 d) s) ∧
    WritesSum s d [] (255 - a.toNat + c) (-a.toInt - 1 + c) (exec (.comc d) s)

/-- After CP in any form the conditions mean what their names say: NC, C, ULE, UGT compare the operands as unsigned
numbers, MI, ZP, PL, ZN as signed numbers, Z and NZ say whether they are equal (rules R143, R230; derived by the spec
from rule R10). -/
def Obligations.ConditionsAfterCompare : Prop :=
  ∀ (d : Gpr) (src : Source) (b : Byte) (s t : State), src.value s = some b → exec (cpForm d src) s = .next t →
    let a := s.x d
    t.cond .nc = decide (a.toNat < b.toNat) ∧ t.cond .c = decide (b.toNat ≤ a.toNat) ∧
    t.cond .ule = decide (a.toNat ≤ b.toNat) ∧ t.cond .ugt = decide (b.toNat < a.toNat) ∧
    t.cond .z = decide (a = b) ∧ t.cond .nz = decide (a ≠ b) ∧
    t.cond .mi = decide (a.toInt < b.toInt) ∧ t.cond .zp = decide (b.toInt ≤ a.toInt) ∧
    t.cond .pl = decide (b.toInt < a.toInt) ∧ t.cond .zn = decide (a.toInt ≤ b.toInt)

/-! ### Shift and rotate -/

/-- The shifts and rotates that keep V (sl, rlc, rl, sra, sr, rrc, rr). To the left: twice the operand, the bit that leaves
goes to C, and 0, the old C or the bit that left comes in. To the right: half the operand, its lowest bit goes to C, and
the sign, 0, the old C or the bit that left comes in at the top (rules R180, R182 to R188). -/
def Obligations.ShiftsAndRotates : Prop :=
  ∀ (d : Gpr) (s : State),
    let a := (s.x d).toNat
    WritesShift s d (2 * a % 256) (decide (128 ≤ a)) (exec (.sl d) s) ∧
    WritesShift s d (2 * a % 256 + s.c.toNat) (decide (128 ≤ a)) (exec (.rlc d) s) ∧
    WritesShift s d (2 * a % 256 + a / 128) (decide (128 ≤ a)) (exec (.rl d) s) ∧
    WritesShift s d (a / 2 + 128 * (a / 128)) (decide (a % 2 = 1)) (exec (.sra d) s) ∧
    WritesShift s d (a / 2) (decide (a % 2 = 1)) (exec (.sr d) s) ∧
    WritesShift s d (a / 2 + 128 * s.c.toNat) (decide (a % 2 = 1)) (exec (.rrc d) s) ∧
    WritesShift s d (a / 2 + 128 * (a % 2)) (decide (a % 2 = 1)) (exec (.rr d) s)

/-- SLA (sla): SL that also sets V when twice the signed operand does not fit; N is bit 7 of the result, or the sign of
the exact result on a chip with SLA_N_RULE = V_XOR_MSB (rule R181; decision D14). -/
def Obligations.ShiftLeftArithmetic : Prop :=
  ∀ (d : Gpr) (s : State),
    let a := s.x d
    Completes (exec (.sla d) s) fun t =>
      (t.xb s.bankSel d).toNat = 2 * a.toNat % 256 ∧ t.c = decide (128 ≤ a.toNat) ∧ t.z = decide (2 * a.toNat % 256 = 0) ∧
        t.v = decide (2 * a.toInt < -128 ∨ 127 < 2 * a.toInt) ∧
        (s.chip.slaN = .msb → t.n = decide (128 ≤ 2 * a.toNat % 256)) ∧
        (s.chip.slaN = .vXorMsb → t.n = decide (a.toInt < 0)) ∧ t.pc = seq s.pc 1 ∧
        OnlyChanges (writesGpr s d flagParts) s t

/-! ### Loads and stores -/

/-- The loads into a GPR of the current bank (ldImm, ldIdm, ldAdr, ldReg, ldGprSpr, ldFromTbl, ldFromTbh): the byte, Z and N
from it, C and V kept (rules R200, R201, R202, R204, R207, R208, R211). -/
def Obligations.LoadsIntoGpr : Prop :=
  (∀ (d : Gpr) (src : Source) (b : Byte) (s : State), src.value s = some b →
    WritesByte s d (src.parts s) b (exec (ldForm d src) s)) ∧
  ∀ (d : Gpr) (r : Spr) (s : State),
    WritesByte s d [] (s.spr r) (exec (.ldGprSpr d r) s) ∧ WritesByte s d [] s.tbl (exec (.ldFromTbl d) s) ∧
      WritesByte s d [] s.tbh (exec (.ldFromTbh d) s)

/-- LD between named banks (ldBank): neither need be the current one, SR0 is not written (rules R21, R210; where the bank
numbers stand in the word is decision D9). -/
def Obligations.LoadBetweenBanks : Prop :=
  ∀ (bankd banks : BitVec 2) (d g : Gpr) (s : State),
    Completes (exec (.ldBank bankd d banks g) s) fun t =>
      t.xb bankd d = s.xb banks g ∧ ByteFlags (s.xb banks g) t ∧ t.pc = seq s.pc 1 ∧
        OnlyChanges [.pc, .gpr bankd d, .flagZ, .flagN] s t

/-- The loads into special and table registers (ldSpr0Imm, ldSprGpr, ldTbl, ldTbh): no flag, but what SR1 itself receives
(rules R206, R209, R212). The GPR is the one of the old bank. The index registers written are those of the bank SR0[2]
selects before, the other bank keeps its own (rule R25, decision D26, log entry 35). -/
def Obligations.LoadsIntoSpecialRegisters : Prop :=
  ∀ (r : Spr) (r0 : Spr0) (imm : Byte) (d : Gpr) (s : State),
    (Completes (exec (.ldSpr0Imm r0 imm) s) fun t =>
      t.spr (spr0ToSpr r0) = imm ∧ t.pc = seq s.pc 1 ∧ OnlyChanges (.pc :: sprParts s.idb (spr0ToSpr r0)) s t) ∧
    (Completes (exec (.ldSprGpr r d) s) fun t =>
      t.spr r = s.x d ∧ t.pc = seq s.pc 1 ∧ OnlyChanges (.pc :: sprParts s.idb r) s t) ∧
    (Completes (exec (.ldTbl d) s) fun t => t.tbl = s.x d ∧ t.pc = seq s.pc 1 ∧ OnlyChanges [.pc, .tbl] s t) ∧
    Completes (exec (.ldTbh d) s) fun t => t.tbh = s.x d ∧ t.pc = seq s.pc 1 ∧ OnlyChanges [.pc, .tbh] s t

/-- The two stores to a mapped address (stAdr, stIdm) of a memory in canonical form: the byte stands at the address, every
other byte of memory reads as before, no flag (rules R61, R203, R205). -/
def Obligations.StoresWriteOneByte : Prop :=
  (∀ (d : Gpr) (adr : Byte) (s : State), memWf dmSize s.dm = true → s.dmMapped (s.directAddr adr) = true →
    Completes (exec (.stAdr adr d) s) fun t =>
      t.dmRead (s.directAddr adr) = s.x d ∧ t.pc = seq s.pc 1 ∧ OnlyChanges [.pc, .dm (s.directAddr adr)] s t) ∧
  ∀ (d : Gpr) (m : Idm) (disp : DAddr) (s : State), memWf dmSize s.dm = true → idmDisplacement s.chip m = some disp →
    s.dmMapped (s.idmAddr m disp) = true →
    Completes (exec (.stIdm m d) s) fun t =>
      t.dmRead (s.idmAddr m disp) = s.x d ∧ t.pc = seq s.pc 1 ∧
        OnlyChanges (.pc :: .dm (s.idmAddr m disp) :: idmParts s.idb m) s t

/-- A write to an unmapped data address stops: the two stores, and BITS, BITR, BITC with TF = 1 (rule R66; decision D29). -/
def Obligations.UnmappedStoreStops : Prop :=
  ∀ (adr : Byte) (d : Gpr) (bs : BitVec 3) (m : Idm) (disp : DAddr) (s : State),
    (s.dmMapped (s.directAddr adr) = false → exec (.stAdr adr d) s = .fault .dmUnmappedWrite) ∧
    (idmDisplacement s.chip m = some disp → s.dmMapped (s.idmAddr m disp) = false →
      exec (.stIdm m d) s = .fault .dmUnmappedWrite) ∧
    (s.dmMapped (s.directAddr adr) = false → s.tf = true →
      exec (.bits adr bs) s = .fault .dmUnmappedWrite ∧ exec (.bitr adr bs) s = .fault .dmUnmappedWrite ∧
        exec (.bitc adr bs) s = .fault .dmUnmappedWrite)

/-! ### Branches, calls, links, returns -/

/-- The sixteen conditions over the flags, the Stack Full condition and EC[2:0] as the step presents them (rule R230; that
the last four are free inputs is decisions D2 and D3). -/
def Obligations.ConditionTable : Prop :=
  ∀ s : State,
    s.cond .always = true ∧ s.cond .nc = !s.c ∧ s.cond .c = s.c ∧ s.cond .z = s.z ∧ s.cond .nz = !s.z ∧ s.cond .ov = s.v ∧
    s.cond .ule = !s.cond .ugt ∧ s.cond .ugt = (s.c && !s.z) ∧ s.cond .zp = !s.n ∧ s.cond .mi = s.n ∧
    s.cond .pl = (!s.n && !s.z) ∧ s.cond .zn = !s.cond .pl ∧ s.cond .sf = s.inputs.sf ∧
    s.cond .ec0 = s.inputs.ec.getLsbD 0 ∧ s.cond .ec1 = s.inputs.ec.getLsbD 1 ∧ s.cond .ec2 = s.inputs.ec.getLsbD 2

/-- JR and LJP (jr, ljp). JR: the signed offset is added to the offset of the JR's own address, in its page. LJP: the
target. Not taken, each goes past its own words (rules R231, R232, R233; NP64KW is decision D1). -/
def Obligations.Jumps : Prop :=
  ∀ (cc : Cond) (off : BitVec 9) (imm : PAddr) (s : State),
    (Completes (exec (.jr cc off) s) fun t =>
      (if s.cond cc then
        t.pc.toNat / 4096 = s.pc.toNat / 4096 ∧
          ((t.pc.toNat % 4096 : Nat) : Int) = (((s.pc.toNat % 4096 : Nat) : Int) + off.toInt) % 4096
      else t.pc = seq s.pc 1) ∧ OnlyChanges [.pc] s t) ∧
    Completes (exec (.ljp cc imm) s) fun t =>
      (if s.cond cc then LoadsPc s imm t.pc else t.pc = seq s.pc 2) ∧ OnlyChanges [.pc] s t

/-- CALLS and LCALL (calls, lcall) with room for two slots: the return address on the stack, PC at the target; LCALL with a
false condition pushes nothing, room or no room (rules R231, R234, R235). -/
def Obligations.CallsPushReturnAddress : Prop :=
  ∀ (cc : Cond) (off : BitVec 12) (imm : PAddr) (s : State),
    (HasRoom s 2 →
      (Completes (exec (.calls off) s) fun t =>
        PushedAddr s t (seq s.pc 1) ∧ t.pc.toNat = s.pc.toNat / 4096 * 4096 + off.toNat ∧
          OnlyChanges (.pc :: pushAddrParts s) s t) ∧
      (s.cond cc = true → Completes (exec (.lcall cc imm) s) fun t =>
        PushedAddr s t (seq s.pc 2) ∧ LoadsPc s imm t.pc ∧ OnlyChanges (.pc :: pushAddrParts s) s t)) ∧
    (s.cond cc = false → Completes (exec (.lcall cc imm) s) fun t => t.pc = seq s.pc 2 ∧ OnlyChanges [.pc] s t)

/-- LNKS and LLNK (lnks, llnk): the return address in IL, PC at the target, the stack untouched; LLNK with a false
condition leaves IL alone (rules R231, R237, R238; ILX[7:4] is decision D34). -/
def Obligations.LinksSaveReturnAddress : Prop :=
  ∀ (cc : Cond) (off : BitVec 12) (imm : PAddr) (s : State),
    (Completes (exec (.lnks off) s) fun t =>
      SavesLink s t (seq s.pc 1) ∧ t.pc.toNat = s.pc.toNat / 4096 * 4096 + off.toNat ∧
        OnlyChanges [.pc, .ill, .ilh, .ilx] s t) ∧
    (s.cond cc = true → Completes (exec (.llnk cc imm) s) fun t =>
      SavesLink s t (seq s.pc 2) ∧ LoadsPc s imm t.pc ∧ OnlyChanges [.pc, .ill, .ilh, .ilx] s t) ∧
    (s.cond cc = false → Completes (exec (.llnk cc imm) s) fun t => t.pc = seq s.pc 2 ∧ OnlyChanges [.pc] s t)

/-- RET, IRET and LRET (ret, iret, lret): PC from the stack or from IL, `sptr` lowered by 2 for the first two, ie set by
IRET alone (rules R43, R231, R239, R240, R241). -/
def Obligations.ReturnsLoadPc : Prop :=
  ∀ (a : PAddr) (s : State),
    (TopAddr s a →
      (Completes (exec .ret s) fun t => LoadsPc s a t.pc ∧ t.sptr = s.sptr - 2#6 ∧ OnlyChanges [.pc, .sptr] s t) ∧
      (Completes (exec .iret s) fun t =>
        LoadsPc s a t.pc ∧ t.sptr = s.sptr - 2#6 ∧ t.ie = true ∧ OnlyChanges [.pc, .sptr, .sr0 1] s t)) ∧
    (a.toNat = s.ilNat → Completes (exec .lret s) fun t => LoadsPc s a t.pc ∧ OnlyChanges [.pc] s t)

/-- A call and its return, a link and its return: RET after CALLS or a taken LCALL, LRET after LNKS or a taken LLNK, goes
to the instruction after the call and leaves the stack pointer as before the call (rules R234 to R242). -/
def Obligations.CallThenReturn : Prop :=
  ∀ (cc : Cond) (off : BitVec 12) (imm : PAddr) (s t : State), s.cond cc = true →
    (HasRoom s 2 →
      (exec (.calls off) s = .next t → Completes (exec .ret t) fun u =>
        u.pc = seq s.pc 1 ∧ OnlyChanges [.pc, .slot s.sptr, .slot (s.sptr + 1#6)] s u) ∧
      (exec (.lcall cc imm) s = .next t → Completes (exec .ret t) fun u =>
        u.pc = seq s.pc 2 ∧ OnlyChanges [.pc, .slot s.sptr, .slot (s.sptr + 1#6)] s u)) ∧
    (exec (.lnks off) s = .next t → Completes (exec .lret t) fun u =>
      u.pc = seq s.pc 1 ∧ OnlyChanges [.pc, .ill, .ilh, .ilx] s u) ∧
    (exec (.llnk cc imm) s = .next t → Completes (exec .lret t) fun u =>
      u.pc = seq s.pc 2 ∧ OnlyChanges [.pc, .ill, .ilh, .ilx] s u)

/-- JNZD (jnzd): Rn of bank 3 is decreased in any case, the delay slot is next, and after it the target, 256 - imm words
before the slot in its page, when Rn was not zero, or the instruction after the slot when it was; imm = 00h has no
meaning when the jump is taken (rules R21, R236; the readings are decision D25). -/
def Obligations.LoopJump : Prop :=
  ∀ (n : Gpr) (imm : Byte) (s : State),
    (s.xb 3#2 n ≠ 0#8 → imm ≠ 0#8 → Completes (exec (.jnzd n imm) s) fun t =>
      (t.xb 3#2 n).toNat = (s.xb 3#2 n).toNat - 1 ∧ t.pc = seq s.pc 1 ∧
        (∃ a, t.delay = some a ∧ a.toNat / 4096 = s.pc.toNat / 4096 ∧
          ((a.toNat % 4096 : Nat) : Int) = (((seq s.pc 1).toNat % 4096 : Nat) - (256 - (imm.toNat : Int))) % 4096) ∧
        OnlyChanges [.pc, .gpr 3#2 n, .delay] s t) ∧
    (s.xb 3#2 n = 0#8 → Completes (exec (.jnzd n imm) s) fun t =>
      t.xb 3#2 n = 0xFF#8 ∧ t.pc = seq s.pc 1 ∧ t.delay = some (seq s.pc 2) ∧
        OnlyChanges [.pc, .gpr 3#2 n, .delay] s t) ∧
    (s.xb 3#2 n ≠ 0#8 → imm = 0#8 → exec (.jnzd n imm) s = .refused .jnzdZeroOffset)

/-! ### Bit manipulation -/

/-- BITS, BITR and BITC with TF = 0 (bits, bitr, bitc): the byte with one bit set, cleared or complemented goes to R3 of the
current bank, memory is unchanged, Z follows the whole byte (rules R260 to R263). -/
def Obligations.BitOperationsToR3 : Prop :=
  ∀ (adr : Byte) (bs : BitVec 3) (s : State), s.tf = false →
    let m := s.dmRead (s.directAddr adr)
    let toR3 (v : Bool) (o : Res State) : Prop :=
      Completes o fun t =>
        EditsBit m (t.xb s.bankSel .r3) bs v ∧ t.z = decide (t.xb s.bankSel .r3 = 0#8) ∧ t.pc = seq s.pc 1 ∧
          OnlyChanges (writesGpr s .r3 [.flagZ]) s t
    toR3 true (exec (.bits adr bs) s) ∧ toR3 false (exec (.bitr adr bs) s) ∧
      toR3 (!m.getLsbD bs.toNat) (exec (.bitc adr bs) s)

/-- The same three with TF = 1 and a mapped address of a memory in canonical form: the edited byte goes back to memory, no
register is touched (rules R61, R260 to R263). -/
def Obligations.BitOperationsToMemory : Prop :=
  ∀ (adr : Byte) (bs : BitVec 3) (s : State), s.tf = true → memWf dmSize s.dm = true →
    s.dmMapped (s.directAddr adr) = true →
    let ea := s.directAddr adr
    let m := s.dmRead ea
    let toMemory (v : Bool) (o : Res State) : Prop :=
      Completes o fun t =>
        EditsBit m (t.dmRead ea) bs v ∧ t.z = decide (t.dmRead ea = 0#8) ∧ t.pc = seq s.pc 1 ∧
          OnlyChanges [.pc, .flagZ, .dm ea] s t
    toMemory true (exec (.bits adr bs) s) ∧ toMemory false (exec (.bitr adr bs) s) ∧
      toMemory (!m.getLsbD bs.toNat) (exec (.bitc adr bs) s)

/-- BITT and TM (bitt, tmImm): Z is the complement of the tested bit; Z and N of the conjunction; no register and no memory
written (rules R264, R267). -/
def Obligations.TestsWriteFlagsOnly : Prop :=
  ∀ (adr imm : Byte) (bs : BitVec 3) (d : Gpr) (s : State),
    (Completes (exec (.bitt adr bs) s) fun t =>
      t.z = !(s.dmRead (s.directAddr adr)).getLsbD bs.toNat ∧ t.pc = seq s.pc 1 ∧ OnlyChanges [.pc, .flagZ] s t) ∧
    Completes (exec (.tmImm d imm) s) fun t =>
      ByteFlags (s.x d &&& imm) t ∧ t.pc = seq s.pc 1 ∧ OnlyChanges [.pc, .flagZ, .flagN] s t

/-- BMS, BMC, AND SR0, OR SR0 and BANK (bms, bmc, andSr0, orSr0, bank): TF, SR0 bit by bit, the bank number; no flag (rules
R265, R266, R268, R269, R270). Which word is BMS and which BMC is decision D8. -/
def Obligations.ModeInstructions : Prop :=
  ∀ (sel : BitVec 4) (imm : Byte) (b : BitVec 2) (s : State),
    (Completes (exec (.bms sel) s) fun t => t.tf = true ∧ t.pc = seq s.pc 1 ∧ OnlyChanges [.pc, .tf] s t) ∧
    (Completes (exec (.bmc sel) s) fun t => t.tf = false ∧ t.pc = seq s.pc 1 ∧ OnlyChanges [.pc, .tf] s t) ∧
    (Completes (exec (.andSr0 imm) s) fun t =>
      (∀ k : Fin 8, t.sr0.getLsbD k.val = (s.sr0.getLsbD k.val && imm.getLsbD k.val)) ∧ t.pc = seq s.pc 1 ∧
        OnlyChanges (.pc :: sr0Parts) s t) ∧
    (Completes (exec (.orSr0 imm) s) fun t =>
      (∀ k : Fin 8, t.sr0.getLsbD k.val = (s.sr0.getLsbD k.val || imm.getLsbD k.val)) ∧ t.pc = seq s.pc 1 ∧
        OnlyChanges (.pc :: sr0Parts) s t) ∧
    Completes (exec (.bank b) s) fun t =>
      t.bankSel = b ∧ t.pc = seq s.pc 1 ∧ OnlyChanges [.pc, .sr0 3, .sr0 4] s t

/-! ### Miscellaneous -/

/-- SWAP (swap): both values as they were before, no flag; SR0 and SR1 stop it (rule R280; the stop is decision D24; the
bank of the index registers D26, log entry 35). -/
def Obligations.SwapExchanges : Prop :=
  ∀ (d : Gpr) (r : Spr) (s : State),
    (r ≠ .sr0 → r ≠ .sr1 → Completes (exec (.swap d r) s) fun t =>
      t.spr r = s.x d ∧ t.xb s.bankSel d = s.spr r ∧ t.pc = seq s.pc 1 ∧
        OnlyChanges (writesGpr s d (sprParts s.idb r)) s t) ∧
    (r = .sr0 ∨ r = .sr1 → exec (.swap d r) s = .refused .swapStatusRegister)

/-- PushByte, PopByte, PushAddr and PopAddr as rules R41, R42 and R43 write them, within the stack's range. -/
def Obligations.StackPrimitives : Prop :=
  ∀ (s : State) (v : Byte) (a : PAddr),
    (HasRoom s 1 → Completes (pushByte v s) fun t => t.hsSlot s.sptr = .byte v ∧ t.sptr = s.sptr + 1#6) ∧
    (TopByte s v → ∃ t, popByte s = .next (v, t) ∧ t.sptr = s.sptr - 1#6 ∧ ∀ i : BitVec 6, t.hsSlot i = s.hsSlot i) ∧
    (HasRoom s 2 → Completes (pushAddr a s) fun t =>
      t.hsSlot s.sptr = (if s.chip.np64kw then .addr20 a else .addr16 (a.extractLsb' 0 16)) ∧ t.sptr = s.sptr + 2#6) ∧
    (TopAddr s a → Completes (popAddr s) fun t => LoadsPc s a t.pc ∧ t.sptr = s.sptr - 2#6)

/-- PUSH GPR and PUSH SPR (pushGpr, pushSpr) with room: the byte on the stack (rules R41, R281, R282; of the index
registers that of the bank SR0[2] selects, decision D26, log entry 35). -/
def Obligations.PushStoresByte : Prop :=
  ∀ (d : Gpr) (r : Spr) (s : State), HasRoom s 1 →
    (Completes (exec (.pushGpr d) s) fun t =>
      PushedByte s t (s.x d) ∧ t.pc = seq s.pc 1 ∧ OnlyChanges [.pc, .sptr, .slot s.sptr] s t) ∧
    Completes (exec (.pushSpr r) s) fun t =>
      PushedByte s t (s.spr r) ∧ t.pc = seq s.pc 1 ∧ OnlyChanges [.pc, .sptr, .slot s.sptr] s t

/-- POP GPR, POP SPR and POP (popGpr, popSpr, pop): the byte below `sptr` and, for a GPR, Z and N; POP lowers `sptr` by 2
and reads nothing (rules R41, R283, R284, R285; of the index registers that of the bank SR0[2] selects is written,
decision D26, log entry 35). -/
def Obligations.PopLoadsByte : Prop :=
  ∀ (d : Gpr) (r : Spr) (v : Byte) (s : State),
    (TopByte s v →
      (Completes (exec (.popGpr d) s) fun t =>
        t.xb s.bankSel d = v ∧ ByteFlags v t ∧ t.sptr = s.sptr - 1#6 ∧ t.pc = seq s.pc 1 ∧
          OnlyChanges (writesGpr s d [.flagZ, .flagN, .sptr]) s t) ∧
      (Completes (exec (.popSpr r) s) fun t =>
        t.spr r = v ∧ t.sptr = s.sptr - 1#6 ∧ t.pc = seq s.pc 1 ∧
          OnlyChanges (.pc :: .sptr :: sprParts s.idb r) s t)) ∧
    (2 ≤ s.hsUsed → Completes (exec .pop s) fun t =>
      t.sptr = s.sptr - 2#6 ∧ t.pc = seq s.pc 1 ∧ OnlyChanges [.pc, .sptr] s t)

/-- Where the stack's range or contents stop an instruction or an exception's entry: a push beyond HS_DEPTH on a chip
without the stack-full exception, the entry's own push too (rule R323), a push beyond the 64 slots on a chip with it (log
entry 15), a pop below the bottom, and the pop of a part of a slot that no push wrote (rules R40, R44, R324; decisions D4,
D23, D32). -/
def Obligations.StackRangeStops : Prop :=
  ∀ (d : Gpr) (r : Spr) (cc : Cond) (off : BitVec 12) (imm : PAddr) (s : State),
    (NoRoom s 1 →
      exec (.pushGpr d) s = .fault .hsRange ∧ exec (.pushSpr r) s = .fault .hsRange) ∧
    (NoRoom s 2 →
      exec (.calls off) s = .fault .hsRange ∧ (s.cond cc = true → exec (.lcall cc imm) s = .fault .hsRange) ∧
        ∀ v : PAddr, TakesInterrupt s v ∨ TakesStackFull s v → step s = .fault .hsRange) ∧
    (s.hsUsed = 0 → exec (.popGpr d) s = .fault .hsRange ∧ exec (.popSpr r) s = .fault .hsRange) ∧
    (s.hsUsed < 2 → exec .pop s = .fault .hsRange ∧ exec .ret s = .fault .hsRange ∧ exec .iret s = .fault .hsRange) ∧
    (1 ≤ s.hsUsed → s.hsSlot (s.sptr - 1#6) = .unspecified →
      exec (.popGpr d) s = .fault .hsMixedWidth ∧ exec (.popSpr r) s = .fault .hsMixedWidth) ∧
    (2 ≤ s.hsUsed → (s.hsSlot (s.sptr - 2#6) = .unspecified ∨ ∃ v, s.hsSlot (s.sptr - 2#6) = .byte v) →
      exec .ret s = .fault .hsMixedWidth ∧ exec .iret s = .fault .hsMixedWidth)

/-- NOP, BREAK, SYS and COP (nop, brk, sys, cop): PC alone; the lock, with PC held; the event and PC; and for the codes 0Ah
and 05h, where the platform decodes them, the halt that waits for the next instruction (rules R69, R286, R287, R288, R291,
R333; the lock is decision D30, the halt D31). -/
def Obligations.ControlInstructions : Prop :=
  ∀ (imm : Byte) (code : BitVec 12) (s : State),
    (Completes (exec .nop s) fun t => t.pc = seq s.pc 1 ∧ OnlyChanges [.pc] s t) ∧
    (Completes (exec .brk s) fun t => t.run = .locked ∧ OnlyChanges [.run] s t) ∧
    (Completes (exec (.cop code) s) fun t =>
      t.events = .cop code :: s.events ∧ t.pc = seq s.pc 1 ∧ OnlyChanges [.pc, .events] s t) ∧
    (Completes (exec (.sys imm) s) fun t =>
      t.events = .sys imm :: s.events ∧ t.pc = seq s.pc 1 ∧
        t.haltAfter =
          (if s.chip.decodesStopIdle = true ∧ imm = 0x0A#8 then some .stop
          else if s.chip.decodesStopIdle = true ∧ imm = 0x05#8 then some .idle
          else s.haltAfter) ∧
        OnlyChanges [.pc, .events, .haltAfter] s t)

/-- CLD both ways (cldLoad, cldStore): the coprocessor's byte, a free value, goes to the GPR with Z and N from it, or the
GPR's byte goes out; either is an event (rules R69, R289, R290; the oracle is decision D19). -/
def Obligations.CoprocessorTransfers : Prop :=
  ∀ (d : Gpr) (imm : Byte) (s : State),
    (Completes (exec (.cldLoad d imm) s) fun t =>
      t.xb s.bankSel d = s.inputs.copByte ∧ ByteFlags s.inputs.copByte t ∧ t.events = .copRead imm :: s.events ∧
        t.pc = seq s.pc 1 ∧ OnlyChanges (writesGpr s d [.flagZ, .flagN, .events]) s t) ∧
    Completes (exec (.cldStore imm d) s) fun t =>
      t.events = .copWrite imm (s.x d) :: s.events ∧ t.pc = seq s.pc 1 ∧ OnlyChanges [.pc, .events] s t

/-- LDC (ldc, ldcInc): TBH and TBL take the two halves of the word at IL, all 20 bits of it; with @IL+ ILL alone is
increased, modulo 256; an unmapped address stops both (rules R67, R292, R293; the halves are decision D28, the missing
carry D18, the stop D5). -/
def Obligations.ProgramMemoryLoads : Prop :=
  ∀ (a : PAddr) (s : State), a.toNat = s.ilNat →
    (s.pmMapped a = true →
      (Completes (exec .ldc s) fun t =>
        t.tbh.toNat = (memRead s.pm a.toNat).toNat / 256 ∧ t.tbl.toNat = (memRead s.pm a.toNat).toNat % 256 ∧
          t.pc = seq s.pc 1 ∧ OnlyChanges [.pc, .tbh, .tbl] s t) ∧
      (Completes (exec .ldcInc s) fun t =>
        t.tbh.toNat = (memRead s.pm a.toNat).toNat / 256 ∧ t.tbl.toNat = (memRead s.pm a.toNat).toNat % 256 ∧
          t.ill.toNat = (s.ill.toNat + 1) % 256 ∧ t.pc = seq s.pc 1 ∧ OnlyChanges [.pc, .tbh, .tbl, .ill] s t)) ∧
    (s.pmMapped a = false → exec .ldc s = .fault .pmUnmapped ∧ exec .ldcInc s = .fault .pmUnmapped)
end

