-- ==== Sys2Proof/Laws/Memory.lean ====
section
/-! SUPPORT. Memory: every operation keeps the canonical form; a read after a write gives the value written and every
other address reads as before. -/

-- One theorem at a time: the package is compiled as one text under a memory limit.
set_option Elab.async false

namespace Sys2Proof.Machine

variable {w : Nat}

@[simp] theorem memRead_nil (a : Nat) : memRead ([] : List (Nat × BitVec w)) a = memUnlisted := rfl

theorem memRead_cons (k : Nat) (v : BitVec w) (rest : List (Nat × BitVec w)) (a : Nat) :
    memRead ((k, v) :: rest) a = if k = a then v else memRead rest a := rfl

theorem memWfFrom_cons (bound lo k : Nat) (v : BitVec w) (rest : List (Nat × BitVec w)) :
    memWfFrom bound lo ((k, v) :: rest) = true ↔
      lo ≤ k ∧ k < bound ∧ v ≠ memUnlisted ∧ memWfFrom bound (k + 1) rest = true := by
  simp [memWfFrom, and_assoc]

/-- The form from a later address on is also the form from an earlier one. -/
theorem memWfFrom_mono {bound lo lo' : Nat} {m : List (Nat × BitVec w)} (h : memWfFrom bound lo m = true)
    (hlo : lo' ≤ lo) : memWfFrom bound lo' m = true := by
  cases m with
  | nil => rfl
  | cons c rest =>
    obtain ⟨k, v⟩ := c
    rw [memWfFrom_cons] at h ⊢
    exact ⟨by omega, h.2.1, h.2.2.1, h.2.2.2⟩

/-- An address below every cell is not listed. -/
theorem memRead_of_lt {bound lo : Nat} {m : List (Nat × BitVec w)} (h : memWfFrom bound lo m = true) {a : Nat}
    (ha : a < lo) : memRead m a = memUnlisted := by
  induction m generalizing lo with
  | nil => rfl
  | cons c rest ih =>
    obtain ⟨k, v⟩ := c
    rw [memWfFrom_cons] at h
    rw [memRead_cons, if_neg (by omega)]
    exact ih h.2.2.2 (by omega)

/-- A write keeps the form. -/
theorem memWfFrom_memWrite {bound lo : Nat} {m : List (Nat × BitVec w)} (h : memWfFrom bound lo m = true) {a : Nat}
    (hlo : lo ≤ a) (ha : a < bound) (v : BitVec w) : memWfFrom bound lo (memWrite m a v) = true := by
  induction m generalizing lo with
  | nil =>
    by_cases hv : v = memUnlisted
    · simp [memWrite, hv, memWfFrom]
    · simp [memWrite, hv, memWfFrom, hlo, ha]
  | cons c rest ih =>
    obtain ⟨k, u⟩ := c
    have h' := (memWfFrom_cons ..).mp h
    unfold memWrite
    split
    · split
      · exact h
      · rename_i hv
        exact (memWfFrom_cons ..).mpr ⟨hlo, ha, hv, (memWfFrom_cons ..).mpr ⟨by omega, h'.2⟩⟩
    · split
      · split
        · exact memWfFrom_mono h'.2.2.2 (by omega)
        · rename_i hk hv
          exact (memWfFrom_cons ..).mpr ⟨hlo, ha, hv, hk ▸ h'.2.2.2⟩
      · exact (memWfFrom_cons ..).mpr ⟨h'.1, h'.2.1, h'.2.2.1, ih h'.2.2.2 (by omega)⟩

/-- A write keeps the canonical form. -/
theorem memWf_memWrite {bound : Nat} {m : List (Nat × BitVec w)} (h : memWf bound m = true) {a : Nat} (ha : a < bound)
    (v : BitVec w) : memWf bound (memWrite m a v) = true := memWfFrom_memWrite h (Nat.zero_le a) ha v

/-- The memory a list of cells describes is in canonical form, whatever the list. -/
theorem memWf_memOfCells (bound : Nat) (cells : List (Nat × BitVec w)) : memWf bound (memOfCells bound cells) = true := by
  induction cells with
  | nil => rfl
  | cons c rest ih =>
    obtain ⟨k, v⟩ := c
    unfold memOfCells
    split
    · rename_i hk
      exact memWf_memWrite ih hk v
    · exact ih

/-- Every other address reads as before a write, in any list. -/
theorem memRead_memWrite_ne (m : List (Nat × BitVec w)) {a b : Nat} (v : BitVec w) (h : b ≠ a) :
    memRead (memWrite m a v) b = memRead m b := by
  induction m with
  | nil =>
    unfold memWrite
    split
    · rfl
    · rw [memRead_cons, if_neg (by omega)]
  | cons c rest ih =>
    obtain ⟨k, u⟩ := c
    unfold memWrite
    split
    · split
      · rfl
      · rw [memRead_cons, if_neg (by omega)]
    · split
      · rename_i hk
        split
        · rw [memRead_cons, if_neg (by omega)]
        · rw [memRead_cons, memRead_cons, if_neg (by omega), if_neg (by omega)]
      · rw [memRead_cons, memRead_cons, ih]

/-- The address written reads as the value written. -/
theorem memRead_memWrite_same {bound lo : Nat} {m : List (Nat × BitVec w)} (h : memWfFrom bound lo m = true) (a : Nat)
    (v : BitVec w) : memRead (memWrite m a v) a = v := by
  induction m generalizing lo with
  | nil =>
    unfold memWrite
    split
    · rename_i hv
      exact hv.symm
    · simp [memRead]
  | cons c rest ih =>
    obtain ⟨k, u⟩ := c
    have h' := (memWfFrom_cons ..).mp h
    unfold memWrite
    split
    · rename_i hlt
      split
      · rename_i hv
        rw [hv, memRead_cons, if_neg (by omega)]
        exact memRead_of_lt h'.2.2.2 (by omega)
      · simp [memRead]
    · split
      · rename_i hk
        split
        · rename_i hv
          rw [hv]
          exact memRead_of_lt h'.2.2.2 (by omega)
        · simp [memRead]
      · rw [memRead_cons, if_neg (by omega)]
        exact ih h'.2.2.2

/-- The read of one address after a write to another or the same, in a canonical memory. -/
theorem memRead_memWrite {bound : Nat} {m : List (Nat × BitVec w)} (h : memWf bound m = true) (a b : Nat) (v : BitVec w) :
    memRead (memWrite m a v) b = if b = a then v else memRead m b := by
  split
  · rename_i hb
    rw [hb]
    exact memRead_memWrite_same h a v
  · rename_i hb
    exact memRead_memWrite_ne m v hb

/-- The memories of the reset state are in canonical form. -/
theorem reset_memWf : memWf dmSize State.reset.dm = true ∧ memWf pmSize State.reset.pm = true := ⟨rfl, rfl⟩

end Sys2Proof.Machine
end

