-- ==== Sys2Proof/Laws/State.lean ====
section
/-! SUPPORT. One lemma per field per update: what each named update of Ops, Flags and Fetch leaves and writes. -/

-- One theorem at a time: the package is compiled as one text under a memory limit.
set_option Elab.async false

namespace Sys2Proof.Machine

/-! ### `setIe` -/

@[simp] theorem State.setIe_gpr (s : State) (v : Bool) : (s.setIe v).gpr = s.gpr := rfl
@[simp] theorem State.setIe_idx0 (s : State) (v : Bool) : (s.setIe v).idx0 = s.idx0 := rfl
@[simp] theorem State.setIe_idx1 (s : State) (v : Bool) : (s.setIe v).idx1 = s.idx1 := rfl
@[simp] theorem State.setIe_ilx (s : State) (v : Bool) : (s.setIe v).ilx = s.ilx := rfl
@[simp] theorem State.setIe_ilh (s : State) (v : Bool) : (s.setIe v).ilh = s.ilh := rfl
@[simp] theorem State.setIe_ill (s : State) (v : Bool) : (s.setIe v).ill = s.ill := rfl
@[simp] theorem State.setIe_sr1 (s : State) (v : Bool) : (s.setIe v).sr1 = s.sr1 := rfl
@[simp] theorem State.setIe_tbh (s : State) (v : Bool) : (s.setIe v).tbh = s.tbh := rfl
@[simp] theorem State.setIe_tbl (s : State) (v : Bool) : (s.setIe v).tbl = s.tbl := rfl
@[simp] theorem State.setIe_tf (s : State) (v : Bool) : (s.setIe v).tf = s.tf := rfl
@[simp] theorem State.setIe_pc (s : State) (v : Bool) : (s.setIe v).pc = s.pc := rfl
@[simp] theorem State.setIe_sptr (s : State) (v : Bool) : (s.setIe v).sptr = s.sptr := rfl
@[simp] theorem State.setIe_hsFull (s : State) (v : Bool) : (s.setIe v).hsFull = s.hsFull := rfl
@[simp] theorem State.setIe_hs (s : State) (v : Bool) : (s.setIe v).hs = s.hs := rfl
@[simp] theorem State.setIe_dm (s : State) (v : Bool) : (s.setIe v).dm = s.dm := rfl
@[simp] theorem State.setIe_pm (s : State) (v : Bool) : (s.setIe v).pm = s.pm := rfl
@[simp] theorem State.setIe_delay (s : State) (v : Bool) : (s.setIe v).delay = s.delay := rfl
@[simp] theorem State.setIe_haltAfter (s : State) (v : Bool) : (s.setIe v).haltAfter = s.haltAfter := rfl
@[simp] theorem State.setIe_run (s : State) (v : Bool) : (s.setIe v).run = s.run := rfl
@[simp] theorem State.setIe_sfPending (s : State) (v : Bool) : (s.setIe v).sfPending = s.sfPending := rfl
@[simp] theorem State.setIe_resetPin (s : State) (v : Bool) : (s.setIe v).resetPin = s.resetPin := rfl
@[simp] theorem State.setIe_inputs (s : State) (v : Bool) : (s.setIe v).inputs = s.inputs := rfl
@[simp] theorem State.setIe_tick (s : State) (v : Bool) : (s.setIe v).tick = s.tick := rfl
@[simp] theorem State.setIe_events (s : State) (v : Bool) : (s.setIe v).events = s.events := rfl
@[simp] theorem State.setIe_chip (s : State) (v : Bool) : (s.setIe v).chip = s.chip := rfl

/-! ### `setBankSel` -/

@[simp] theorem State.setBankSel_gpr (s : State) (b : BitVec 2) : (s.setBankSel b).gpr = s.gpr := rfl
@[simp] theorem State.setBankSel_idx0 (s : State) (b : BitVec 2) : (s.setBankSel b).idx0 = s.idx0 := rfl
@[simp] theorem State.setBankSel_idx1 (s : State) (b : BitVec 2) : (s.setBankSel b).idx1 = s.idx1 := rfl
@[simp] theorem State.setBankSel_ilx (s : State) (b : BitVec 2) : (s.setBankSel b).ilx = s.ilx := rfl
@[simp] theorem State.setBankSel_ilh (s : State) (b : BitVec 2) : (s.setBankSel b).ilh = s.ilh := rfl
@[simp] theorem State.setBankSel_ill (s : State) (b : BitVec 2) : (s.setBankSel b).ill = s.ill := rfl
@[simp] theorem State.setBankSel_sr1 (s : State) (b : BitVec 2) : (s.setBankSel b).sr1 = s.sr1 := rfl
@[simp] theorem State.setBankSel_tbh (s : State) (b : BitVec 2) : (s.setBankSel b).tbh = s.tbh := rfl
@[simp] theorem State.setBankSel_tbl (s : State) (b : BitVec 2) : (s.setBankSel b).tbl = s.tbl := rfl
@[simp] theorem State.setBankSel_tf (s : State) (b : BitVec 2) : (s.setBankSel b).tf = s.tf := rfl
@[simp] theorem State.setBankSel_pc (s : State) (b : BitVec 2) : (s.setBankSel b).pc = s.pc := rfl
@[simp] theorem State.setBankSel_sptr (s : State) (b : BitVec 2) : (s.setBankSel b).sptr = s.sptr := rfl
@[simp] theorem State.setBankSel_hsFull (s : State) (b : BitVec 2) : (s.setBankSel b).hsFull = s.hsFull := rfl
@[simp] theorem State.setBankSel_hs (s : State) (b : BitVec 2) : (s.setBankSel b).hs = s.hs := rfl
@[simp] theorem State.setBankSel_dm (s : State) (b : BitVec 2) : (s.setBankSel b).dm = s.dm := rfl
@[simp] theorem State.setBankSel_pm (s : State) (b : BitVec 2) : (s.setBankSel b).pm = s.pm := rfl
@[simp] theorem State.setBankSel_delay (s : State) (b : BitVec 2) : (s.setBankSel b).delay = s.delay := rfl
@[simp] theorem State.setBankSel_haltAfter (s : State) (b : BitVec 2) : (s.setBankSel b).haltAfter = s.haltAfter := rfl
@[simp] theorem State.setBankSel_run (s : State) (b : BitVec 2) : (s.setBankSel b).run = s.run := rfl
@[simp] theorem State.setBankSel_sfPending (s : State) (b : BitVec 2) : (s.setBankSel b).sfPending = s.sfPending := rfl
@[simp] theorem State.setBankSel_resetPin (s : State) (b : BitVec 2) : (s.setBankSel b).resetPin = s.resetPin := rfl
@[simp] theorem State.setBankSel_inputs (s : State) (b : BitVec 2) : (s.setBankSel b).inputs = s.inputs := rfl
@[simp] theorem State.setBankSel_tick (s : State) (b : BitVec 2) : (s.setBankSel b).tick = s.tick := rfl
@[simp] theorem State.setBankSel_events (s : State) (b : BitVec 2) : (s.setBankSel b).events = s.events := rfl
@[simp] theorem State.setBankSel_chip (s : State) (b : BitVec 2) : (s.setBankSel b).chip = s.chip := rfl

/-! ### `setXb` -/

@[simp] theorem State.setXb_idx0 (s : State) (b : BitVec 2) (g : Gpr) (v : Byte) : (s.setXb b g v).idx0 = s.idx0 := rfl
@[simp] theorem State.setXb_idx1 (s : State) (b : BitVec 2) (g : Gpr) (v : Byte) : (s.setXb b g v).idx1 = s.idx1 := rfl
@[simp] theorem State.setXb_sr0 (s : State) (b : BitVec 2) (g : Gpr) (v : Byte) : (s.setXb b g v).sr0 = s.sr0 := rfl
@[simp] theorem State.setXb_ilx (s : State) (b : BitVec 2) (g : Gpr) (v : Byte) : (s.setXb b g v).ilx = s.ilx := rfl
@[simp] theorem State.setXb_ilh (s : State) (b : BitVec 2) (g : Gpr) (v : Byte) : (s.setXb b g v).ilh = s.ilh := rfl
@[simp] theorem State.setXb_ill (s : State) (b : BitVec 2) (g : Gpr) (v : Byte) : (s.setXb b g v).ill = s.ill := rfl
@[simp] theorem State.setXb_sr1 (s : State) (b : BitVec 2) (g : Gpr) (v : Byte) : (s.setXb b g v).sr1 = s.sr1 := rfl
@[simp] theorem State.setXb_tbh (s : State) (b : BitVec 2) (g : Gpr) (v : Byte) : (s.setXb b g v).tbh = s.tbh := rfl
@[simp] theorem State.setXb_tbl (s : State) (b : BitVec 2) (g : Gpr) (v : Byte) : (s.setXb b g v).tbl = s.tbl := rfl
@[simp] theorem State.setXb_tf (s : State) (b : BitVec 2) (g : Gpr) (v : Byte) : (s.setXb b g v).tf = s.tf := rfl
@[simp] theorem State.setXb_pc (s : State) (b : BitVec 2) (g : Gpr) (v : Byte) : (s.setXb b g v).pc = s.pc := rfl
@[simp] theorem State.setXb_sptr (s : State) (b : BitVec 2) (g : Gpr) (v : Byte) : (s.setXb b g v).sptr = s.sptr := rfl
@[simp] theorem State.setXb_hsFull (s : State) (b : BitVec 2) (g : Gpr) (v : Byte) : (s.setXb b g v).hsFull = s.hsFull := rfl
@[simp] theorem State.setXb_hs (s : State) (b : BitVec 2) (g : Gpr) (v : Byte) : (s.setXb b g v).hs = s.hs := rfl
@[simp] theorem State.setXb_dm (s : State) (b : BitVec 2) (g : Gpr) (v : Byte) : (s.setXb b g v).dm = s.dm := rfl
@[simp] theorem State.setXb_pm (s : State) (b : BitVec 2) (g : Gpr) (v : Byte) : (s.setXb b g v).pm = s.pm := rfl
@[simp] theorem State.setXb_delay (s : State) (b : BitVec 2) (g : Gpr) (v : Byte) : (s.setXb b g v).delay = s.delay := rfl
@[simp] theorem State.setXb_haltAfter (s : State) (b : BitVec 2) (g : Gpr) (v : Byte) : (s.setXb b g v).haltAfter = s.haltAfter := rfl
@[simp] theorem State.setXb_run (s : State) (b : BitVec 2) (g : Gpr) (v : Byte) : (s.setXb b g v).run = s.run := rfl
@[simp] theorem State.setXb_sfPending (s : State) (b : BitVec 2) (g : Gpr) (v : Byte) : (s.setXb b g v).sfPending = s.sfPending := rfl
@[simp] theorem State.setXb_resetPin (s : State) (b : BitVec 2) (g : Gpr) (v : Byte) : (s.setXb b g v).resetPin = s.resetPin := rfl
@[simp] theorem State.setXb_inputs (s : State) (b : BitVec 2) (g : Gpr) (v : Byte) : (s.setXb b g v).inputs = s.inputs := rfl
@[simp] theorem State.setXb_tick (s : State) (b : BitVec 2) (g : Gpr) (v : Byte) : (s.setXb b g v).tick = s.tick := rfl
@[simp] theorem State.setXb_events (s : State) (b : BitVec 2) (g : Gpr) (v : Byte) : (s.setXb b g v).events = s.events := rfl
@[simp] theorem State.setXb_chip (s : State) (b : BitVec 2) (g : Gpr) (v : Byte) : (s.setXb b g v).chip = s.chip := rfl

/-! ### `setX` -/

@[simp] theorem State.setX_idx0 (s : State) (g : Gpr) (v : Byte) : (s.setX g v).idx0 = s.idx0 := rfl
@[simp] theorem State.setX_idx1 (s : State) (g : Gpr) (v : Byte) : (s.setX g v).idx1 = s.idx1 := rfl
@[simp] theorem State.setX_sr0 (s : State) (g : Gpr) (v : Byte) : (s.setX g v).sr0 = s.sr0 := rfl
@[simp] theorem State.setX_ilx (s : State) (g : Gpr) (v : Byte) : (s.setX g v).ilx = s.ilx := rfl
@[simp] theorem State.setX_ilh (s : State) (g : Gpr) (v : Byte) : (s.setX g v).ilh = s.ilh := rfl
@[simp] theorem State.setX_ill (s : State) (g : Gpr) (v : Byte) : (s.setX g v).ill = s.ill := rfl
@[simp] theorem State.setX_sr1 (s : State) (g : Gpr) (v : Byte) : (s.setX g v).sr1 = s.sr1 := rfl
@[simp] theorem State.setX_tbh (s : State) (g : Gpr) (v : Byte) : (s.setX g v).tbh = s.tbh := rfl
@[simp] theorem State.setX_tbl (s : State) (g : Gpr) (v : Byte) : (s.setX g v).tbl = s.tbl := rfl
@[simp] theorem State.setX_tf (s : State) (g : Gpr) (v : Byte) : (s.setX g v).tf = s.tf := rfl
@[simp] theorem State.setX_pc (s : State) (g : Gpr) (v : Byte) : (s.setX g v).pc = s.pc := rfl
@[simp] theorem State.setX_sptr (s : State) (g : Gpr) (v : Byte) : (s.setX g v).sptr = s.sptr := rfl
@[simp] theorem State.setX_hsFull (s : State) (g : Gpr) (v : Byte) : (s.setX g v).hsFull = s.hsFull := rfl
@[simp] theorem State.setX_hs (s : State) (g : Gpr) (v : Byte) : (s.setX g v).hs = s.hs := rfl
@[simp] theorem State.setX_dm (s : State) (g : Gpr) (v : Byte) : (s.setX g v).dm = s.dm := rfl
@[simp] theorem State.setX_pm (s : State) (g : Gpr) (v : Byte) : (s.setX g v).pm = s.pm := rfl
@[simp] theorem State.setX_delay (s : State) (g : Gpr) (v : Byte) : (s.setX g v).delay = s.delay := rfl
@[simp] theorem State.setX_haltAfter (s : State) (g : Gpr) (v : Byte) : (s.setX g v).haltAfter = s.haltAfter := rfl
@[simp] theorem State.setX_run (s : State) (g : Gpr) (v : Byte) : (s.setX g v).run = s.run := rfl
@[simp] theorem State.setX_sfPending (s : State) (g : Gpr) (v : Byte) : (s.setX g v).sfPending = s.sfPending := rfl
@[simp] theorem State.setX_resetPin (s : State) (g : Gpr) (v : Byte) : (s.setX g v).resetPin = s.resetPin := rfl
@[simp] theorem State.setX_inputs (s : State) (g : Gpr) (v : Byte) : (s.setX g v).inputs = s.inputs := rfl
@[simp] theorem State.setX_tick (s : State) (g : Gpr) (v : Byte) : (s.setX g v).tick = s.tick := rfl
@[simp] theorem State.setX_events (s : State) (g : Gpr) (v : Byte) : (s.setX g v).events = s.events := rfl
@[simp] theorem State.setX_chip (s : State) (g : Gpr) (v : Byte) : (s.setX g v).chip = s.chip := rfl

/-! ### `setIdx` -/

@[simp] theorem State.setIdx_gpr (s : State) (b : IndexBank) : (s.setIdx b).gpr = s.gpr := by unfold State.setIdx; split <;> rfl
@[simp] theorem State.setIdx_sr0 (s : State) (b : IndexBank) : (s.setIdx b).sr0 = s.sr0 := by unfold State.setIdx; split <;> rfl
@[simp] theorem State.setIdx_ilx (s : State) (b : IndexBank) : (s.setIdx b).ilx = s.ilx := by unfold State.setIdx; split <;> rfl
@[simp] theorem State.setIdx_ilh (s : State) (b : IndexBank) : (s.setIdx b).ilh = s.ilh := by unfold State.setIdx; split <;> rfl
@[simp] theorem State.setIdx_ill (s : State) (b : IndexBank) : (s.setIdx b).ill = s.ill := by unfold State.setIdx; split <;> rfl
@[simp] theorem State.setIdx_sr1 (s : State) (b : IndexBank) : (s.setIdx b).sr1 = s.sr1 := by unfold State.setIdx; split <;> rfl
@[simp] theorem State.setIdx_tbh (s : State) (b : IndexBank) : (s.setIdx b).tbh = s.tbh := by unfold State.setIdx; split <;> rfl
@[simp] theorem State.setIdx_tbl (s : State) (b : IndexBank) : (s.setIdx b).tbl = s.tbl := by unfold State.setIdx; split <;> rfl
@[simp] theorem State.setIdx_tf (s : State) (b : IndexBank) : (s.setIdx b).tf = s.tf := by unfold State.setIdx; split <;> rfl
@[simp] theorem State.setIdx_pc (s : State) (b : IndexBank) : (s.setIdx b).pc = s.pc := by unfold State.setIdx; split <;> rfl
@[simp] theorem State.setIdx_sptr (s : State) (b : IndexBank) : (s.setIdx b).sptr = s.sptr := by unfold State.setIdx; split <;> rfl
@[simp] theorem State.setIdx_hsFull (s : State) (b : IndexBank) : (s.setIdx b).hsFull = s.hsFull := by unfold State.setIdx; split <;> rfl
@[simp] theorem State.setIdx_hs (s : State) (b : IndexBank) : (s.setIdx b).hs = s.hs := by unfold State.setIdx; split <;> rfl
@[simp] theorem State.setIdx_dm (s : State) (b : IndexBank) : (s.setIdx b).dm = s.dm := by unfold State.setIdx; split <;> rfl
@[simp] theorem State.setIdx_pm (s : State) (b : IndexBank) : (s.setIdx b).pm = s.pm := by unfold State.setIdx; split <;> rfl
@[simp] theorem State.setIdx_delay (s : State) (b : IndexBank) : (s.setIdx b).delay = s.delay := by unfold State.setIdx; split <;> rfl
@[simp] theorem State.setIdx_haltAfter (s : State) (b : IndexBank) : (s.setIdx b).haltAfter = s.haltAfter := by unfold State.setIdx; split <;> rfl
@[simp] theorem State.setIdx_run (s : State) (b : IndexBank) : (s.setIdx b).run = s.run := by unfold State.setIdx; split <;> rfl
@[simp] theorem State.setIdx_sfPending (s : State) (b : IndexBank) : (s.setIdx b).sfPending = s.sfPending := by unfold State.setIdx; split <;> rfl
@[simp] theorem State.setIdx_resetPin (s : State) (b : IndexBank) : (s.setIdx b).resetPin = s.resetPin := by unfold State.setIdx; split <;> rfl
@[simp] theorem State.setIdx_inputs (s : State) (b : IndexBank) : (s.setIdx b).inputs = s.inputs := by unfold State.setIdx; split <;> rfl
@[simp] theorem State.setIdx_tick (s : State) (b : IndexBank) : (s.setIdx b).tick = s.tick := by unfold State.setIdx; split <;> rfl
@[simp] theorem State.setIdx_events (s : State) (b : IndexBank) : (s.setIdx b).events = s.events := by unfold State.setIdx; split <;> rfl
@[simp] theorem State.setIdx_chip (s : State) (b : IndexBank) : (s.setIdx b).chip = s.chip := by unfold State.setIdx; split <;> rfl

/-! ### `setIdReg` -/

@[simp] theorem State.setIdReg_gpr (s : State) (r : IdxReg) (a : DAddr) : (s.setIdReg r a).gpr = s.gpr := by cases r <;> simp [State.setIdReg]
@[simp] theorem State.setIdReg_sr0 (s : State) (r : IdxReg) (a : DAddr) : (s.setIdReg r a).sr0 = s.sr0 := by cases r <;> simp [State.setIdReg]
@[simp] theorem State.setIdReg_ilx (s : State) (r : IdxReg) (a : DAddr) : (s.setIdReg r a).ilx = s.ilx := by cases r <;> simp [State.setIdReg]
@[simp] theorem State.setIdReg_ilh (s : State) (r : IdxReg) (a : DAddr) : (s.setIdReg r a).ilh = s.ilh := by cases r <;> simp [State.setIdReg]
@[simp] theorem State.setIdReg_ill (s : State) (r : IdxReg) (a : DAddr) : (s.setIdReg r a).ill = s.ill := by cases r <;> simp [State.setIdReg]
@[simp] theorem State.setIdReg_sr1 (s : State) (r : IdxReg) (a : DAddr) : (s.setIdReg r a).sr1 = s.sr1 := by cases r <;> simp [State.setIdReg]
@[simp] theorem State.setIdReg_tbh (s : State) (r : IdxReg) (a : DAddr) : (s.setIdReg r a).tbh = s.tbh := by cases r <;> simp [State.setIdReg]
@[simp] theorem State.setIdReg_tbl (s : State) (r : IdxReg) (a : DAddr) : (s.setIdReg r a).tbl = s.tbl := by cases r <;> simp [State.setIdReg]
@[simp] theorem State.setIdReg_tf (s : State) (r : IdxReg) (a : DAddr) : (s.setIdReg r a).tf = s.tf := by cases r <;> simp [State.setIdReg]
@[simp] theorem State.setIdReg_pc (s : State) (r : IdxReg) (a : DAddr) : (s.setIdReg r a).pc = s.pc := by cases r <;> simp [State.setIdReg]
@[simp] theorem State.setIdReg_sptr (s : State) (r : IdxReg) (a : DAddr) : (s.setIdReg r a).sptr = s.sptr := by cases r <;> simp [State.setIdReg]
@[simp] theorem State.setIdReg_hsFull (s : State) (r : IdxReg) (a : DAddr) : (s.setIdReg r a).hsFull = s.hsFull := by cases r <;> simp [State.setIdReg]
@[simp] theorem State.setIdReg_hs (s : State) (r : IdxReg) (a : DAddr) : (s.setIdReg r a).hs = s.hs := by cases r <;> simp [State.setIdReg]
@[simp] theorem State.setIdReg_dm (s : State) (r : IdxReg) (a : DAddr) : (s.setIdReg r a).dm = s.dm := by cases r <;> simp [State.setIdReg]
@[simp] theorem State.setIdReg_pm (s : State) (r : IdxReg) (a : DAddr) : (s.setIdReg r a).pm = s.pm := by cases r <;> simp [State.setIdReg]
@[simp] theorem State.setIdReg_delay (s : State) (r : IdxReg) (a : DAddr) : (s.setIdReg r a).delay = s.delay := by cases r <;> simp [State.setIdReg]
@[simp] theorem State.setIdReg_haltAfter (s : State) (r : IdxReg) (a : DAddr) : (s.setIdReg r a).haltAfter = s.haltAfter := by cases r <;> simp [State.setIdReg]
@[simp] theorem State.setIdReg_run (s : State) (r : IdxReg) (a : DAddr) : (s.setIdReg r a).run = s.run := by cases r <;> simp [State.setIdReg]
@[simp] theorem State.setIdReg_sfPending (s : State) (r : IdxReg) (a : DAddr) : (s.setIdReg r a).sfPending = s.sfPending := by cases r <;> simp [State.setIdReg]
@[simp] theorem State.setIdReg_resetPin (s : State) (r : IdxReg) (a : DAddr) : (s.setIdReg r a).resetPin = s.resetPin := by cases r <;> simp [State.setIdReg]
@[simp] theorem State.setIdReg_inputs (s : State) (r : IdxReg) (a : DAddr) : (s.setIdReg r a).inputs = s.inputs := by cases r <;> simp [State.setIdReg]
@[simp] theorem State.setIdReg_tick (s : State) (r : IdxReg) (a : DAddr) : (s.setIdReg r a).tick = s.tick := by cases r <;> simp [State.setIdReg]
@[simp] theorem State.setIdReg_events (s : State) (r : IdxReg) (a : DAddr) : (s.setIdReg r a).events = s.events := by cases r <;> simp [State.setIdReg]
@[simp] theorem State.setIdReg_chip (s : State) (r : IdxReg) (a : DAddr) : (s.setIdReg r a).chip = s.chip := by cases r <;> simp [State.setIdReg]

/-! ### `setSpr` -/

@[simp] theorem State.setSpr_gpr (s : State) (r : Spr) (v : Byte) : (s.setSpr r v).gpr = s.gpr := by cases r <;> simp [State.setSpr]
@[simp] theorem State.setSpr_tbh (s : State) (r : Spr) (v : Byte) : (s.setSpr r v).tbh = s.tbh := by cases r <;> simp [State.setSpr]
@[simp] theorem State.setSpr_tbl (s : State) (r : Spr) (v : Byte) : (s.setSpr r v).tbl = s.tbl := by cases r <;> simp [State.setSpr]
@[simp] theorem State.setSpr_tf (s : State) (r : Spr) (v : Byte) : (s.setSpr r v).tf = s.tf := by cases r <;> simp [State.setSpr]
@[simp] theorem State.setSpr_pc (s : State) (r : Spr) (v : Byte) : (s.setSpr r v).pc = s.pc := by cases r <;> simp [State.setSpr]
@[simp] theorem State.setSpr_sptr (s : State) (r : Spr) (v : Byte) : (s.setSpr r v).sptr = s.sptr := by cases r <;> simp [State.setSpr]
@[simp] theorem State.setSpr_hsFull (s : State) (r : Spr) (v : Byte) : (s.setSpr r v).hsFull = s.hsFull := by cases r <;> simp [State.setSpr]
@[simp] theorem State.setSpr_hs (s : State) (r : Spr) (v : Byte) : (s.setSpr r v).hs = s.hs := by cases r <;> simp [State.setSpr]
@[simp] theorem State.setSpr_dm (s : State) (r : Spr) (v : Byte) : (s.setSpr r v).dm = s.dm := by cases r <;> simp [State.setSpr]
@[simp] theorem State.setSpr_pm (s : State) (r : Spr) (v : Byte) : (s.setSpr r v).pm = s.pm := by cases r <;> simp [State.setSpr]
@[simp] theorem State.setSpr_delay (s : State) (r : Spr) (v : Byte) : (s.setSpr r v).delay = s.delay := by cases r <;> simp [State.setSpr]
@[simp] theorem State.setSpr_haltAfter (s : State) (r : Spr) (v : Byte) : (s.setSpr r v).haltAfter = s.haltAfter := by cases r <;> simp [State.setSpr]
@[simp] theorem State.setSpr_run (s : State) (r : Spr) (v : Byte) : (s.setSpr r v).run = s.run := by cases r <;> simp [State.setSpr]
@[simp] theorem State.setSpr_sfPending (s : State) (r : Spr) (v : Byte) : (s.setSpr r v).sfPending = s.sfPending := by cases r <;> simp [State.setSpr]
@[simp] theorem State.setSpr_resetPin (s : State) (r : Spr) (v : Byte) : (s.setSpr r v).resetPin = s.resetPin := by cases r <;> simp [State.setSpr]
@[simp] theorem State.setSpr_inputs (s : State) (r : Spr) (v : Byte) : (s.setSpr r v).inputs = s.inputs := by cases r <;> simp [State.setSpr]
@[simp] theorem State.setSpr_tick (s : State) (r : Spr) (v : Byte) : (s.setSpr r v).tick = s.tick := by cases r <;> simp [State.setSpr]
@[simp] theorem State.setSpr_events (s : State) (r : Spr) (v : Byte) : (s.setSpr r v).events = s.events := by cases r <;> simp [State.setSpr]
@[simp] theorem State.setSpr_chip (s : State) (r : Spr) (v : Byte) : (s.setSpr r v).chip = s.chip := by cases r <;> simp [State.setSpr]

/-! ### `advance` -/

@[simp] theorem State.advance_gpr (s : State) (n : Nat) : (s.advance n).gpr = s.gpr := rfl
@[simp] theorem State.advance_idx0 (s : State) (n : Nat) : (s.advance n).idx0 = s.idx0 := rfl
@[simp] theorem State.advance_idx1 (s : State) (n : Nat) : (s.advance n).idx1 = s.idx1 := rfl
@[simp] theorem State.advance_sr0 (s : State) (n : Nat) : (s.advance n).sr0 = s.sr0 := rfl
@[simp] theorem State.advance_ilx (s : State) (n : Nat) : (s.advance n).ilx = s.ilx := rfl
@[simp] theorem State.advance_ilh (s : State) (n : Nat) : (s.advance n).ilh = s.ilh := rfl
@[simp] theorem State.advance_ill (s : State) (n : Nat) : (s.advance n).ill = s.ill := rfl
@[simp] theorem State.advance_sr1 (s : State) (n : Nat) : (s.advance n).sr1 = s.sr1 := rfl
@[simp] theorem State.advance_tbh (s : State) (n : Nat) : (s.advance n).tbh = s.tbh := rfl
@[simp] theorem State.advance_tbl (s : State) (n : Nat) : (s.advance n).tbl = s.tbl := rfl
@[simp] theorem State.advance_tf (s : State) (n : Nat) : (s.advance n).tf = s.tf := rfl
@[simp] theorem State.advance_sptr (s : State) (n : Nat) : (s.advance n).sptr = s.sptr := rfl
@[simp] theorem State.advance_hsFull (s : State) (n : Nat) : (s.advance n).hsFull = s.hsFull := rfl
@[simp] theorem State.advance_hs (s : State) (n : Nat) : (s.advance n).hs = s.hs := rfl
@[simp] theorem State.advance_dm (s : State) (n : Nat) : (s.advance n).dm = s.dm := rfl
@[simp] theorem State.advance_pm (s : State) (n : Nat) : (s.advance n).pm = s.pm := rfl
@[simp] theorem State.advance_delay (s : State) (n : Nat) : (s.advance n).delay = s.delay := rfl
@[simp] theorem State.advance_haltAfter (s : State) (n : Nat) : (s.advance n).haltAfter = s.haltAfter := rfl
@[simp] theorem State.advance_run (s : State) (n : Nat) : (s.advance n).run = s.run := rfl
@[simp] theorem State.advance_sfPending (s : State) (n : Nat) : (s.advance n).sfPending = s.sfPending := rfl
@[simp] theorem State.advance_resetPin (s : State) (n : Nat) : (s.advance n).resetPin = s.resetPin := rfl
@[simp] theorem State.advance_inputs (s : State) (n : Nat) : (s.advance n).inputs = s.inputs := rfl
@[simp] theorem State.advance_tick (s : State) (n : Nat) : (s.advance n).tick = s.tick := rfl
@[simp] theorem State.advance_events (s : State) (n : Nat) : (s.advance n).events = s.events := rfl
@[simp] theorem State.advance_chip (s : State) (n : Nat) : (s.advance n).chip = s.chip := rfl

/-! ### `setPc` -/

@[simp] theorem State.setPc_gpr (s : State) (a : PAddr) : (s.setPc a).gpr = s.gpr := rfl
@[simp] theorem State.setPc_idx0 (s : State) (a : PAddr) : (s.setPc a).idx0 = s.idx0 := rfl
@[simp] theorem State.setPc_idx1 (s : State) (a : PAddr) : (s.setPc a).idx1 = s.idx1 := rfl
@[simp] theorem State.setPc_sr0 (s : State) (a : PAddr) : (s.setPc a).sr0 = s.sr0 := rfl
@[simp] theorem State.setPc_ilx (s : State) (a : PAddr) : (s.setPc a).ilx = s.ilx := rfl
@[simp] theorem State.setPc_ilh (s : State) (a : PAddr) : (s.setPc a).ilh = s.ilh := rfl
@[simp] theorem State.setPc_ill (s : State) (a : PAddr) : (s.setPc a).ill = s.ill := rfl
@[simp] theorem State.setPc_sr1 (s : State) (a : PAddr) : (s.setPc a).sr1 = s.sr1 := rfl
@[simp] theorem State.setPc_tbh (s : State) (a : PAddr) : (s.setPc a).tbh = s.tbh := rfl
@[simp] theorem State.setPc_tbl (s : State) (a : PAddr) : (s.setPc a).tbl = s.tbl := rfl
@[simp] theorem State.setPc_tf (s : State) (a : PAddr) : (s.setPc a).tf = s.tf := rfl
@[simp] theorem State.setPc_sptr (s : State) (a : PAddr) : (s.setPc a).sptr = s.sptr := rfl
@[simp] theorem State.setPc_hsFull (s : State) (a : PAddr) : (s.setPc a).hsFull = s.hsFull := rfl
@[simp] theorem State.setPc_hs (s : State) (a : PAddr) : (s.setPc a).hs = s.hs := rfl
@[simp] theorem State.setPc_dm (s : State) (a : PAddr) : (s.setPc a).dm = s.dm := rfl
@[simp] theorem State.setPc_pm (s : State) (a : PAddr) : (s.setPc a).pm = s.pm := rfl
@[simp] theorem State.setPc_delay (s : State) (a : PAddr) : (s.setPc a).delay = s.delay := rfl
@[simp] theorem State.setPc_haltAfter (s : State) (a : PAddr) : (s.setPc a).haltAfter = s.haltAfter := rfl
@[simp] theorem State.setPc_run (s : State) (a : PAddr) : (s.setPc a).run = s.run := rfl
@[simp] theorem State.setPc_sfPending (s : State) (a : PAddr) : (s.setPc a).sfPending = s.sfPending := rfl
@[simp] theorem State.setPc_resetPin (s : State) (a : PAddr) : (s.setPc a).resetPin = s.resetPin := rfl
@[simp] theorem State.setPc_inputs (s : State) (a : PAddr) : (s.setPc a).inputs = s.inputs := rfl
@[simp] theorem State.setPc_tick (s : State) (a : PAddr) : (s.setPc a).tick = s.tick := rfl
@[simp] theorem State.setPc_events (s : State) (a : PAddr) : (s.setPc a).events = s.events := rfl
@[simp] theorem State.setPc_chip (s : State) (a : PAddr) : (s.setPc a).chip = s.chip := rfl

/-! ### `setLink` -/

@[simp] theorem State.setLink_gpr (s : State) (a : PAddr) : (s.setLink a).gpr = s.gpr := rfl
@[simp] theorem State.setLink_idx0 (s : State) (a : PAddr) : (s.setLink a).idx0 = s.idx0 := rfl
@[simp] theorem State.setLink_idx1 (s : State) (a : PAddr) : (s.setLink a).idx1 = s.idx1 := rfl
@[simp] theorem State.setLink_sr0 (s : State) (a : PAddr) : (s.setLink a).sr0 = s.sr0 := rfl
@[simp] theorem State.setLink_sr1 (s : State) (a : PAddr) : (s.setLink a).sr1 = s.sr1 := rfl
@[simp] theorem State.setLink_tbh (s : State) (a : PAddr) : (s.setLink a).tbh = s.tbh := rfl
@[simp] theorem State.setLink_tbl (s : State) (a : PAddr) : (s.setLink a).tbl = s.tbl := rfl
@[simp] theorem State.setLink_tf (s : State) (a : PAddr) : (s.setLink a).tf = s.tf := rfl
@[simp] theorem State.setLink_pc (s : State) (a : PAddr) : (s.setLink a).pc = s.pc := rfl
@[simp] theorem State.setLink_sptr (s : State) (a : PAddr) : (s.setLink a).sptr = s.sptr := rfl
@[simp] theorem State.setLink_hsFull (s : State) (a : PAddr) : (s.setLink a).hsFull = s.hsFull := rfl
@[simp] theorem State.setLink_hs (s : State) (a : PAddr) : (s.setLink a).hs = s.hs := rfl
@[simp] theorem State.setLink_dm (s : State) (a : PAddr) : (s.setLink a).dm = s.dm := rfl
@[simp] theorem State.setLink_pm (s : State) (a : PAddr) : (s.setLink a).pm = s.pm := rfl
@[simp] theorem State.setLink_delay (s : State) (a : PAddr) : (s.setLink a).delay = s.delay := rfl
@[simp] theorem State.setLink_haltAfter (s : State) (a : PAddr) : (s.setLink a).haltAfter = s.haltAfter := rfl
@[simp] theorem State.setLink_run (s : State) (a : PAddr) : (s.setLink a).run = s.run := rfl
@[simp] theorem State.setLink_sfPending (s : State) (a : PAddr) : (s.setLink a).sfPending = s.sfPending := rfl
@[simp] theorem State.setLink_resetPin (s : State) (a : PAddr) : (s.setLink a).resetPin = s.resetPin := rfl
@[simp] theorem State.setLink_inputs (s : State) (a : PAddr) : (s.setLink a).inputs = s.inputs := rfl
@[simp] theorem State.setLink_tick (s : State) (a : PAddr) : (s.setLink a).tick = s.tick := rfl
@[simp] theorem State.setLink_events (s : State) (a : PAddr) : (s.setLink a).events = s.events := rfl
@[simp] theorem State.setLink_chip (s : State) (a : PAddr) : (s.setLink a).chip = s.chip := rfl

/-! ### `setHsSlot` -/

@[simp] theorem State.setHsSlot_gpr (s : State) (i : BitVec 6) (v : HsSlot) : (s.setHsSlot i v).gpr = s.gpr := rfl
@[simp] theorem State.setHsSlot_idx0 (s : State) (i : BitVec 6) (v : HsSlot) : (s.setHsSlot i v).idx0 = s.idx0 := rfl
@[simp] theorem State.setHsSlot_idx1 (s : State) (i : BitVec 6) (v : HsSlot) : (s.setHsSlot i v).idx1 = s.idx1 := rfl
@[simp] theorem State.setHsSlot_sr0 (s : State) (i : BitVec 6) (v : HsSlot) : (s.setHsSlot i v).sr0 = s.sr0 := rfl
@[simp] theorem State.setHsSlot_ilx (s : State) (i : BitVec 6) (v : HsSlot) : (s.setHsSlot i v).ilx = s.ilx := rfl
@[simp] theorem State.setHsSlot_ilh (s : State) (i : BitVec 6) (v : HsSlot) : (s.setHsSlot i v).ilh = s.ilh := rfl
@[simp] theorem State.setHsSlot_ill (s : State) (i : BitVec 6) (v : HsSlot) : (s.setHsSlot i v).ill = s.ill := rfl
@[simp] theorem State.setHsSlot_sr1 (s : State) (i : BitVec 6) (v : HsSlot) : (s.setHsSlot i v).sr1 = s.sr1 := rfl
@[simp] theorem State.setHsSlot_tbh (s : State) (i : BitVec 6) (v : HsSlot) : (s.setHsSlot i v).tbh = s.tbh := rfl
@[simp] theorem State.setHsSlot_tbl (s : State) (i : BitVec 6) (v : HsSlot) : (s.setHsSlot i v).tbl = s.tbl := rfl
@[simp] theorem State.setHsSlot_tf (s : State) (i : BitVec 6) (v : HsSlot) : (s.setHsSlot i v).tf = s.tf := rfl
@[simp] theorem State.setHsSlot_pc (s : State) (i : BitVec 6) (v : HsSlot) : (s.setHsSlot i v).pc = s.pc := rfl
@[simp] theorem State.setHsSlot_sptr (s : State) (i : BitVec 6) (v : HsSlot) : (s.setHsSlot i v).sptr = s.sptr := rfl
@[simp] theorem State.setHsSlot_hsFull (s : State) (i : BitVec 6) (v : HsSlot) : (s.setHsSlot i v).hsFull = s.hsFull := rfl
@[simp] theorem State.setHsSlot_dm (s : State) (i : BitVec 6) (v : HsSlot) : (s.setHsSlot i v).dm = s.dm := rfl
@[simp] theorem State.setHsSlot_pm (s : State) (i : BitVec 6) (v : HsSlot) : (s.setHsSlot i v).pm = s.pm := rfl
@[simp] theorem State.setHsSlot_delay (s : State) (i : BitVec 6) (v : HsSlot) : (s.setHsSlot i v).delay = s.delay := rfl
@[simp] theorem State.setHsSlot_haltAfter (s : State) (i : BitVec 6) (v : HsSlot) : (s.setHsSlot i v).haltAfter = s.haltAfter := rfl
@[simp] theorem State.setHsSlot_run (s : State) (i : BitVec 6) (v : HsSlot) : (s.setHsSlot i v).run = s.run := rfl
@[simp] theorem State.setHsSlot_sfPending (s : State) (i : BitVec 6) (v : HsSlot) : (s.setHsSlot i v).sfPending = s.sfPending := rfl
@[simp] theorem State.setHsSlot_resetPin (s : State) (i : BitVec 6) (v : HsSlot) : (s.setHsSlot i v).resetPin = s.resetPin := rfl
@[simp] theorem State.setHsSlot_inputs (s : State) (i : BitVec 6) (v : HsSlot) : (s.setHsSlot i v).inputs = s.inputs := rfl
@[simp] theorem State.setHsSlot_tick (s : State) (i : BitVec 6) (v : HsSlot) : (s.setHsSlot i v).tick = s.tick := rfl
@[simp] theorem State.setHsSlot_events (s : State) (i : BitVec 6) (v : HsSlot) : (s.setHsSlot i v).events = s.events := rfl
@[simp] theorem State.setHsSlot_chip (s : State) (i : BitVec 6) (v : HsSlot) : (s.setHsSlot i v).chip = s.chip := rfl

/-! ### `raiseSptr` -/

@[simp] theorem State.raiseSptr_gpr (s : State) (k : Nat) : (s.raiseSptr k).gpr = s.gpr := rfl
@[simp] theorem State.raiseSptr_idx0 (s : State) (k : Nat) : (s.raiseSptr k).idx0 = s.idx0 := rfl
@[simp] theorem State.raiseSptr_idx1 (s : State) (k : Nat) : (s.raiseSptr k).idx1 = s.idx1 := rfl
@[simp] theorem State.raiseSptr_sr0 (s : State) (k : Nat) : (s.raiseSptr k).sr0 = s.sr0 := rfl
@[simp] theorem State.raiseSptr_ilx (s : State) (k : Nat) : (s.raiseSptr k).ilx = s.ilx := rfl
@[simp] theorem State.raiseSptr_ilh (s : State) (k : Nat) : (s.raiseSptr k).ilh = s.ilh := rfl
@[simp] theorem State.raiseSptr_ill (s : State) (k : Nat) : (s.raiseSptr k).ill = s.ill := rfl
@[simp] theorem State.raiseSptr_sr1 (s : State) (k : Nat) : (s.raiseSptr k).sr1 = s.sr1 := rfl
@[simp] theorem State.raiseSptr_tbh (s : State) (k : Nat) : (s.raiseSptr k).tbh = s.tbh := rfl
@[simp] theorem State.raiseSptr_tbl (s : State) (k : Nat) : (s.raiseSptr k).tbl = s.tbl := rfl
@[simp] theorem State.raiseSptr_tf (s : State) (k : Nat) : (s.raiseSptr k).tf = s.tf := rfl
@[simp] theorem State.raiseSptr_pc (s : State) (k : Nat) : (s.raiseSptr k).pc = s.pc := rfl
@[simp] theorem State.raiseSptr_hs (s : State) (k : Nat) : (s.raiseSptr k).hs = s.hs := rfl
@[simp] theorem State.raiseSptr_dm (s : State) (k : Nat) : (s.raiseSptr k).dm = s.dm := rfl
@[simp] theorem State.raiseSptr_pm (s : State) (k : Nat) : (s.raiseSptr k).pm = s.pm := rfl
@[simp] theorem State.raiseSptr_delay (s : State) (k : Nat) : (s.raiseSptr k).delay = s.delay := rfl
@[simp] theorem State.raiseSptr_haltAfter (s : State) (k : Nat) : (s.raiseSptr k).haltAfter = s.haltAfter := rfl
@[simp] theorem State.raiseSptr_run (s : State) (k : Nat) : (s.raiseSptr k).run = s.run := rfl
@[simp] theorem State.raiseSptr_sfPending (s : State) (k : Nat) : (s.raiseSptr k).sfPending = s.sfPending := rfl
@[simp] theorem State.raiseSptr_resetPin (s : State) (k : Nat) : (s.raiseSptr k).resetPin = s.resetPin := rfl
@[simp] theorem State.raiseSptr_inputs (s : State) (k : Nat) : (s.raiseSptr k).inputs = s.inputs := rfl
@[simp] theorem State.raiseSptr_tick (s : State) (k : Nat) : (s.raiseSptr k).tick = s.tick := rfl
@[simp] theorem State.raiseSptr_events (s : State) (k : Nat) : (s.raiseSptr k).events = s.events := rfl
@[simp] theorem State.raiseSptr_chip (s : State) (k : Nat) : (s.raiseSptr k).chip = s.chip := rfl

/-! ### `lowerSptr` -/

@[simp] theorem State.lowerSptr_gpr (s : State) (k : Nat) : (s.lowerSptr k).gpr = s.gpr := rfl
@[simp] theorem State.lowerSptr_idx0 (s : State) (k : Nat) : (s.lowerSptr k).idx0 = s.idx0 := rfl
@[simp] theorem State.lowerSptr_idx1 (s : State) (k : Nat) : (s.lowerSptr k).idx1 = s.idx1 := rfl
@[simp] theorem State.lowerSptr_sr0 (s : State) (k : Nat) : (s.lowerSptr k).sr0 = s.sr0 := rfl
@[simp] theorem State.lowerSptr_ilx (s : State) (k : Nat) : (s.lowerSptr k).ilx = s.ilx := rfl
@[simp] theorem State.lowerSptr_ilh (s : State) (k : Nat) : (s.lowerSptr k).ilh = s.ilh := rfl
@[simp] theorem State.lowerSptr_ill (s : State) (k : Nat) : (s.lowerSptr k).ill = s.ill := rfl
@[simp] theorem State.lowerSptr_sr1 (s : State) (k : Nat) : (s.lowerSptr k).sr1 = s.sr1 := rfl
@[simp] theorem State.lowerSptr_tbh (s : State) (k : Nat) : (s.lowerSptr k).tbh = s.tbh := rfl
@[simp] theorem State.lowerSptr_tbl (s : State) (k : Nat) : (s.lowerSptr k).tbl = s.tbl := rfl
@[simp] theorem State.lowerSptr_tf (s : State) (k : Nat) : (s.lowerSptr k).tf = s.tf := rfl
@[simp] theorem State.lowerSptr_pc (s : State) (k : Nat) : (s.lowerSptr k).pc = s.pc := rfl
@[simp] theorem State.lowerSptr_hs (s : State) (k : Nat) : (s.lowerSptr k).hs = s.hs := rfl
@[simp] theorem State.lowerSptr_dm (s : State) (k : Nat) : (s.lowerSptr k).dm = s.dm := rfl
@[simp] theorem State.lowerSptr_pm (s : State) (k : Nat) : (s.lowerSptr k).pm = s.pm := rfl
@[simp] theorem State.lowerSptr_delay (s : State) (k : Nat) : (s.lowerSptr k).delay = s.delay := rfl
@[simp] theorem State.lowerSptr_haltAfter (s : State) (k : Nat) : (s.lowerSptr k).haltAfter = s.haltAfter := rfl
@[simp] theorem State.lowerSptr_run (s : State) (k : Nat) : (s.lowerSptr k).run = s.run := rfl
@[simp] theorem State.lowerSptr_sfPending (s : State) (k : Nat) : (s.lowerSptr k).sfPending = s.sfPending := rfl
@[simp] theorem State.lowerSptr_resetPin (s : State) (k : Nat) : (s.lowerSptr k).resetPin = s.resetPin := rfl
@[simp] theorem State.lowerSptr_inputs (s : State) (k : Nat) : (s.lowerSptr k).inputs = s.inputs := rfl
@[simp] theorem State.lowerSptr_tick (s : State) (k : Nat) : (s.lowerSptr k).tick = s.tick := rfl
@[simp] theorem State.lowerSptr_events (s : State) (k : Nat) : (s.lowerSptr k).events = s.events := rfl
@[simp] theorem State.lowerSptr_chip (s : State) (k : Nat) : (s.lowerSptr k).chip = s.chip := rfl

/-! ### `emit` -/

@[simp] theorem State.emit_gpr (s : State) (e : CoreEvent) : (s.emit e).gpr = s.gpr := rfl
@[simp] theorem State.emit_idx0 (s : State) (e : CoreEvent) : (s.emit e).idx0 = s.idx0 := rfl
@[simp] theorem State.emit_idx1 (s : State) (e : CoreEvent) : (s.emit e).idx1 = s.idx1 := rfl
@[simp] theorem State.emit_sr0 (s : State) (e : CoreEvent) : (s.emit e).sr0 = s.sr0 := rfl
@[simp] theorem State.emit_ilx (s : State) (e : CoreEvent) : (s.emit e).ilx = s.ilx := rfl
@[simp] theorem State.emit_ilh (s : State) (e : CoreEvent) : (s.emit e).ilh = s.ilh := rfl
@[simp] theorem State.emit_ill (s : State) (e : CoreEvent) : (s.emit e).ill = s.ill := rfl
@[simp] theorem State.emit_sr1 (s : State) (e : CoreEvent) : (s.emit e).sr1 = s.sr1 := rfl
@[simp] theorem State.emit_tbh (s : State) (e : CoreEvent) : (s.emit e).tbh = s.tbh := rfl
@[simp] theorem State.emit_tbl (s : State) (e : CoreEvent) : (s.emit e).tbl = s.tbl := rfl
@[simp] theorem State.emit_tf (s : State) (e : CoreEvent) : (s.emit e).tf = s.tf := rfl
@[simp] theorem State.emit_pc (s : State) (e : CoreEvent) : (s.emit e).pc = s.pc := rfl
@[simp] theorem State.emit_sptr (s : State) (e : CoreEvent) : (s.emit e).sptr = s.sptr := rfl
@[simp] theorem State.emit_hsFull (s : State) (e : CoreEvent) : (s.emit e).hsFull = s.hsFull := rfl
@[simp] theorem State.emit_hs (s : State) (e : CoreEvent) : (s.emit e).hs = s.hs := rfl
@[simp] theorem State.emit_dm (s : State) (e : CoreEvent) : (s.emit e).dm = s.dm := rfl
@[simp] theorem State.emit_pm (s : State) (e : CoreEvent) : (s.emit e).pm = s.pm := rfl
@[simp] theorem State.emit_delay (s : State) (e : CoreEvent) : (s.emit e).delay = s.delay := rfl
@[simp] theorem State.emit_haltAfter (s : State) (e : CoreEvent) : (s.emit e).haltAfter = s.haltAfter := rfl
@[simp] theorem State.emit_run (s : State) (e : CoreEvent) : (s.emit e).run = s.run := rfl
@[simp] theorem State.emit_sfPending (s : State) (e : CoreEvent) : (s.emit e).sfPending = s.sfPending := rfl
@[simp] theorem State.emit_resetPin (s : State) (e : CoreEvent) : (s.emit e).resetPin = s.resetPin := rfl
@[simp] theorem State.emit_inputs (s : State) (e : CoreEvent) : (s.emit e).inputs = s.inputs := rfl
@[simp] theorem State.emit_tick (s : State) (e : CoreEvent) : (s.emit e).tick = s.tick := rfl
@[simp] theorem State.emit_chip (s : State) (e : CoreEvent) : (s.emit e).chip = s.chip := rfl

/-! ### `setFlags` -/

@[simp] theorem State.setFlags_gpr (s : State) (c z v n : Bool) : (s.setFlags c z v n).gpr = s.gpr := rfl
@[simp] theorem State.setFlags_idx0 (s : State) (c z v n : Bool) : (s.setFlags c z v n).idx0 = s.idx0 := rfl
@[simp] theorem State.setFlags_idx1 (s : State) (c z v n : Bool) : (s.setFlags c z v n).idx1 = s.idx1 := rfl
@[simp] theorem State.setFlags_sr0 (s : State) (c z v n : Bool) : (s.setFlags c z v n).sr0 = s.sr0 := rfl
@[simp] theorem State.setFlags_ilx (s : State) (c z v n : Bool) : (s.setFlags c z v n).ilx = s.ilx := rfl
@[simp] theorem State.setFlags_ilh (s : State) (c z v n : Bool) : (s.setFlags c z v n).ilh = s.ilh := rfl
@[simp] theorem State.setFlags_ill (s : State) (c z v n : Bool) : (s.setFlags c z v n).ill = s.ill := rfl
@[simp] theorem State.setFlags_tbh (s : State) (c z v n : Bool) : (s.setFlags c z v n).tbh = s.tbh := rfl
@[simp] theorem State.setFlags_tbl (s : State) (c z v n : Bool) : (s.setFlags c z v n).tbl = s.tbl := rfl
@[simp] theorem State.setFlags_tf (s : State) (c z v n : Bool) : (s.setFlags c z v n).tf = s.tf := rfl
@[simp] theorem State.setFlags_pc (s : State) (c z v n : Bool) : (s.setFlags c z v n).pc = s.pc := rfl
@[simp] theorem State.setFlags_sptr (s : State) (c z v n : Bool) : (s.setFlags c z v n).sptr = s.sptr := rfl
@[simp] theorem State.setFlags_hsFull (s : State) (c z v n : Bool) : (s.setFlags c z v n).hsFull = s.hsFull := rfl
@[simp] theorem State.setFlags_hs (s : State) (c z v n : Bool) : (s.setFlags c z v n).hs = s.hs := rfl
@[simp] theorem State.setFlags_dm (s : State) (c z v n : Bool) : (s.setFlags c z v n).dm = s.dm := rfl
@[simp] theorem State.setFlags_pm (s : State) (c z v n : Bool) : (s.setFlags c z v n).pm = s.pm := rfl
@[simp] theorem State.setFlags_delay (s : State) (c z v n : Bool) : (s.setFlags c z v n).delay = s.delay := rfl
@[simp] theorem State.setFlags_haltAfter (s : State) (c z v n : Bool) : (s.setFlags c z v n).haltAfter = s.haltAfter := rfl
@[simp] theorem State.setFlags_run (s : State) (c z v n : Bool) : (s.setFlags c z v n).run = s.run := rfl
@[simp] theorem State.setFlags_sfPending (s : State) (c z v n : Bool) : (s.setFlags c z v n).sfPending = s.sfPending := rfl
@[simp] theorem State.setFlags_resetPin (s : State) (c z v n : Bool) : (s.setFlags c z v n).resetPin = s.resetPin := rfl
@[simp] theorem State.setFlags_inputs (s : State) (c z v n : Bool) : (s.setFlags c z v n).inputs = s.inputs := rfl
@[simp] theorem State.setFlags_tick (s : State) (c z v n : Bool) : (s.setFlags c z v n).tick = s.tick := rfl
@[simp] theorem State.setFlags_events (s : State) (c z v n : Bool) : (s.setFlags c z v n).events = s.events := rfl
@[simp] theorem State.setFlags_chip (s : State) (c z v n : Bool) : (s.setFlags c z v n).chip = s.chip := rfl

/-! ### `beginInstr` -/

@[simp] theorem State.beginInstr_gpr (s : State) : (s.beginInstr).gpr = s.gpr := rfl
@[simp] theorem State.beginInstr_idx0 (s : State) : (s.beginInstr).idx0 = s.idx0 := rfl
@[simp] theorem State.beginInstr_idx1 (s : State) : (s.beginInstr).idx1 = s.idx1 := rfl
@[simp] theorem State.beginInstr_sr0 (s : State) : (s.beginInstr).sr0 = s.sr0 := rfl
@[simp] theorem State.beginInstr_ilx (s : State) : (s.beginInstr).ilx = s.ilx := rfl
@[simp] theorem State.beginInstr_ilh (s : State) : (s.beginInstr).ilh = s.ilh := rfl
@[simp] theorem State.beginInstr_ill (s : State) : (s.beginInstr).ill = s.ill := rfl
@[simp] theorem State.beginInstr_sr1 (s : State) : (s.beginInstr).sr1 = s.sr1 := rfl
@[simp] theorem State.beginInstr_tbh (s : State) : (s.beginInstr).tbh = s.tbh := rfl
@[simp] theorem State.beginInstr_tbl (s : State) : (s.beginInstr).tbl = s.tbl := rfl
@[simp] theorem State.beginInstr_tf (s : State) : (s.beginInstr).tf = s.tf := rfl
@[simp] theorem State.beginInstr_pc (s : State) : (s.beginInstr).pc = s.pc := rfl
@[simp] theorem State.beginInstr_sptr (s : State) : (s.beginInstr).sptr = s.sptr := rfl
@[simp] theorem State.beginInstr_hsFull (s : State) : (s.beginInstr).hsFull = s.hsFull := rfl
@[simp] theorem State.beginInstr_hs (s : State) : (s.beginInstr).hs = s.hs := rfl
@[simp] theorem State.beginInstr_dm (s : State) : (s.beginInstr).dm = s.dm := rfl
@[simp] theorem State.beginInstr_pm (s : State) : (s.beginInstr).pm = s.pm := rfl
@[simp] theorem State.beginInstr_run (s : State) : (s.beginInstr).run = s.run := rfl
@[simp] theorem State.beginInstr_sfPending (s : State) : (s.beginInstr).sfPending = s.sfPending := rfl
@[simp] theorem State.beginInstr_resetPin (s : State) : (s.beginInstr).resetPin = s.resetPin := rfl
@[simp] theorem State.beginInstr_inputs (s : State) : (s.beginInstr).inputs = s.inputs := rfl
@[simp] theorem State.beginInstr_tick (s : State) : (s.beginInstr).tick = s.tick := rfl
@[simp] theorem State.beginInstr_events (s : State) : (s.beginInstr).events = s.events := rfl
@[simp] theorem State.beginInstr_chip (s : State) : (s.beginInstr).chip = s.chip := rfl

/-! ### `sample` -/

@[simp] theorem State.sample_gpr (s : State) : (s.sample).gpr = s.gpr := rfl
@[simp] theorem State.sample_idx0 (s : State) : (s.sample).idx0 = s.idx0 := rfl
@[simp] theorem State.sample_idx1 (s : State) : (s.sample).idx1 = s.idx1 := rfl
@[simp] theorem State.sample_sr0 (s : State) : (s.sample).sr0 = s.sr0 := rfl
@[simp] theorem State.sample_ilx (s : State) : (s.sample).ilx = s.ilx := rfl
@[simp] theorem State.sample_ilh (s : State) : (s.sample).ilh = s.ilh := rfl
@[simp] theorem State.sample_ill (s : State) : (s.sample).ill = s.ill := rfl
@[simp] theorem State.sample_sr1 (s : State) : (s.sample).sr1 = s.sr1 := rfl
@[simp] theorem State.sample_tbh (s : State) : (s.sample).tbh = s.tbh := rfl
@[simp] theorem State.sample_tbl (s : State) : (s.sample).tbl = s.tbl := rfl
@[simp] theorem State.sample_tf (s : State) : (s.sample).tf = s.tf := rfl
@[simp] theorem State.sample_pc (s : State) : (s.sample).pc = s.pc := rfl
@[simp] theorem State.sample_sptr (s : State) : (s.sample).sptr = s.sptr := rfl
@[simp] theorem State.sample_hsFull (s : State) : (s.sample).hsFull = s.hsFull := rfl
@[simp] theorem State.sample_hs (s : State) : (s.sample).hs = s.hs := rfl
@[simp] theorem State.sample_dm (s : State) : (s.sample).dm = s.dm := rfl
@[simp] theorem State.sample_pm (s : State) : (s.sample).pm = s.pm := rfl
@[simp] theorem State.sample_delay (s : State) : (s.sample).delay = s.delay := rfl
@[simp] theorem State.sample_haltAfter (s : State) : (s.sample).haltAfter = s.haltAfter := rfl
@[simp] theorem State.sample_run (s : State) : (s.sample).run = s.run := rfl
@[simp] theorem State.sample_sfPending (s : State) : (s.sample).sfPending = s.sfPending := rfl
@[simp] theorem State.sample_resetPin (s : State) : (s.sample).resetPin = s.resetPin := rfl
@[simp] theorem State.sample_events (s : State) : (s.sample).events = s.events := rfl
@[simp] theorem State.sample_chip (s : State) : (s.sample).chip = s.chip := rfl

/-! ### What each update writes -/

@[simp] theorem State.advance_pc (s : State) (n : Nat) : (s.advance n).pc = seq s.pc n := rfl
@[simp] theorem State.setPc_pc (s : State) (a : PAddr) : (s.setPc a).pc = a := rfl
@[simp] theorem State.raiseSptr_sptr (s : State) (k : Nat) : (s.raiseSptr k).sptr = s.sptr + BitVec.ofNat 6 k := rfl
@[simp] theorem State.raiseSptr_hsFull (s : State) (k : Nat) : (s.raiseSptr k).hsFull = (s.hsUsed + k == 64) := rfl
@[simp] theorem State.lowerSptr_sptr (s : State) (k : Nat) : (s.lowerSptr k).sptr = s.sptr - BitVec.ofNat 6 k := rfl
@[simp] theorem State.lowerSptr_hsFull (s : State) (k : Nat) : (s.lowerSptr k).hsFull = false := rfl
@[simp] theorem State.emit_events (s : State) (e : CoreEvent) : (s.emit e).events = e :: s.events := rfl
@[simp] theorem State.beginInstr_delay (s : State) : s.beginInstr.delay = none := rfl
@[simp] theorem State.beginInstr_haltAfter (s : State) : s.beginInstr.haltAfter = none := rfl
@[simp] theorem State.sample_inputs (s : State) : s.sample.inputs = inputsAt (s.tick + 1) := rfl
@[simp] theorem State.sample_tick (s : State) : s.sample.tick = s.tick + 1 := rfl

end Sys2Proof.Machine
end

