-- ==== Sys2Proof/Laws/Ops.lean ====
section
/-! SUPPORT. The shared operations, each said once: registers read after writes, and for every operation that can stop,
what holds when it answers a next state. -/

-- One theorem at a time: the package is compiled as one text under a memory limit.
set_option Elab.async false

namespace Sys2Proof.Machine

/-! ### Sequencing -/

@[simp] theorem andThen_next {α β : Type} (a : α) (f : α → Res β) : andThen (.next a) f = f a := rfl
@[simp] theorem andThen_fault {α β : Type} (e : Fault) (f : α → Res β) : andThen (.fault e) f = .fault e := rfl
@[simp] theorem andThen_refused {α β : Type} (r : Refusal) (f : α → Res β) : andThen (.refused r) f = .refused r := rfl

/-- Two operations answer exactly when both do. -/
theorem andThen_eq_next {α β : Type} {o : Res α} {f : α → Res β} {b : β} :
    andThen o f = .next b ↔ ∃ a, o = .next a ∧ f a = .next b := by
  cases o <;> simp

/-! ### General registers -/

theorem gprIndex_inj {b b' : BitVec 2} {g g' : Gpr} : gprIndex b g = gprIndex b' g' ↔ b = b' ∧ g = g' := by
  constructor
  · intro h
    have hv : 4 * b.toNat + gprNum g = 4 * b'.toNat + gprNum g' := congrArg Fin.val h
    have h1 := gprNum_lt g
    have h2 := gprNum_lt g'
    refine ⟨BitVec.eq_of_toNat_eq (by omega), ?_⟩
    have hn : gprNum g = gprNum g' := by omega
    revert hn
    cases g <;> cases g' <;> decide
  · rintro ⟨rfl, rfl⟩
    rfl

/-- A register reads as last written, every other as before. -/
theorem State.xb_setXb (s : State) (b b' : BitVec 2) (g g' : Gpr) (v : Byte) :
    (s.setXb b g v).xb b' g' = if b' = b ∧ g' = g then v else s.xb b' g' := by
  unfold State.xb State.setXb
  simp only [Vector.get_eq_getElem, Vector.getElem_set]
  have h : ((gprIndex b g).val = (gprIndex b' g').val) ↔ (b' = b ∧ g' = g) := by
    rw [← Fin.ext_iff, gprIndex_inj]
    constructor <;> (rintro ⟨rfl, rfl⟩; exact ⟨rfl, rfl⟩)
  simp only [h]

@[simp] theorem State.xb_setXb_same (s : State) (b : BitVec 2) (g : Gpr) (v : Byte) : (s.setXb b g v).xb b g = v := by
  simp [State.xb_setXb]

/-- The register file reads the same in states that hold the same one. -/
theorem State.xb_congr {s t : State} (h : t.gpr = s.gpr) (b : BitVec 2) (g : Gpr) : t.xb b g = s.xb b g := by
  unfold State.xb
  rw [h]

/-! ### SR0 -/

theorem State.setIe_sr0_bit (s : State) (v : Bool) (k : Fin 8) :
    (s.setIe v).sr0.getLsbD k.val = if k = 1 then v else s.sr0.getLsbD k.val := by
  unfold State.setIe
  simp only [BitVec.getLsbD_append, BitVec.getLsbD_extractLsb', BitVec.getLsbD_ofBool]
  fin_cases k <;> simp

theorem State.setBankSel_sr0_bit (s : State) (b : BitVec 2) (k : Fin 8) :
    (s.setBankSel b).sr0.getLsbD k.val =
      if k = 3 then b.getLsbD 0 else if k = 4 then b.getLsbD 1 else s.sr0.getLsbD k.val := by
  unfold State.setBankSel
  simp only [BitVec.getLsbD_append, BitVec.getLsbD_extractLsb']
  fin_cases k <;> simp

@[simp] theorem State.setIe_ie (s : State) (v : Bool) : (s.setIe v).ie = v := s.setIe_sr0_bit v 1

@[simp] theorem State.setBankSel_bankSel (s : State) (b : BitVec 2) : (s.setBankSel b).bankSel = b := by
  apply BitVec.eq_of_getLsbD_eq
  intro i hi
  have h : i = 0 ∨ i = 1 := by omega
  rcases h with rfl | rfl
  · simpa [State.bankSel, BitVec.getLsbD_extractLsb'] using s.setBankSel_sr0_bit b 3
  · simpa [State.bankSel, BitVec.getLsbD_extractLsb'] using s.setBankSel_sr0_bit b 4

/-! ### Index registers -/

/-- The selected index bank reads as written. -/
@[simp] theorem State.setIdx_idx (s : State) (b : IndexBank) : (s.setIdx b).idx = b := by
  unfold State.idx State.idb
  rw [State.setIdx_sr0]
  unfold State.setIdx State.idb
  split <;> rfl

/-- ID0 or ID1 reads as written. -/
@[simp] theorem State.setIdReg_idReg (s : State) (r : IdxReg) (a : DAddr) : (s.setIdReg r a).idReg r = a := by
  have h : a.extractLsb' 8 8 ++ a.extractLsb' 0 8 = a := by
    apply BitVec.eq_of_getLsbD_eq
    intro i hi
    rw [BitVec.getLsbD_append]
    split
    · rename_i h
      simp [h]
    · rename_i h
      rw [BitVec.getLsbD_extractLsb', Nat.add_sub_cancel' (by omega), decide_eq_true (by omega), Bool.true_and]
  cases r <;> simp [State.setIdReg, State.idReg, h]

/-! ### Hardware stack -/

/-- A slot reads as last written, every other as before. -/
theorem State.hsSlot_setHsSlot (s : State) (i j : BitVec 6) (v : HsSlot) :
    (s.setHsSlot i v).hsSlot j = if j = i then v else s.hsSlot j := by
  unfold State.hsSlot State.setHsSlot
  simp only [Vector.get_eq_getElem, Vector.getElem_set]
  have h : (i.toNat = j.toNat) ↔ j = i := by
    rw [eq_comm, BitVec.toNat_inj]
  simp only [h]

/-- The stack reads the same in states that hold the same one. -/
theorem State.hsSlot_congr {s t : State} (h : t.hs = s.hs) (i : BitVec 6) : t.hsSlot i = s.hsSlot i := by
  unfold State.hsSlot
  rw [h]

/-- `needRoom`: the state, but for the stack-full exception it may raise under rule R324's variant. -/
theorem needRoom_spec {k : Nat} {s t : State} (h : needRoom k s = .next t) :
    (s.hsUsed + k ≤ s.chip.hsDepth.val ∧ t = s) ∨
    (∃ v, s.chip.stackFull = .trap v ∧ s.chip.hsDepth.val < s.hsUsed + k ∧ s.hsUsed + k ≤ 64 ∧
      t = { s with sfPending := s.sfPending || decide (s.hsUsed ≤ s.chip.hsDepth.val) }) := by
  unfold needRoom at h
  split at h
  · rename_i hd
    exact .inl ⟨hd, by cases h; rfl⟩
  · rename_i hd
    split at h
    · cases h
    · rename_i v hv
      split at h
      · rename_i h64
        exact .inr ⟨v, hv, by omega, h64, by cases h; rfl⟩
      · cases h

/-- Room within HS_DEPTH is enough. -/
theorem needRoom_of_room {k : Nat} {s : State} (h : s.hsUsed + k ≤ s.chip.hsDepth.val) : needRoom k s = .next s := by
  unfold needRoom
  rw [if_pos h]

/-- `PushByte`: one slot is written, `sptr` rises by 1. -/
theorem pushByte_spec {v : Byte} {s t : State} (h : pushByte v s = .next t) :
    ∃ u, needRoom 1 s = .next u ∧ t = (u.setHsSlot u.sptr (.byte v)).raiseSptr 1 := by
  obtain ⟨u, hu, ht⟩ := andThen_eq_next.mp h
  cases ht
  exact ⟨u, hu, rfl⟩

/-- `PushAddr`: an address slot and the unspecified slot above it, `sptr` rises by 2. -/
theorem pushAddr_spec {a : PAddr} {s t : State} (h : pushAddr a s = .next t) :
    ∃ u, needRoom 2 s = .next u ∧
      t = ((u.setHsSlot u.sptr (if u.chip.np64kw then .addr20 a else .addr16 (a.extractLsb' 0 16))).setHsSlot
        (u.sptr + 1#6) .unspecified).raiseSptr 2 := by
  obtain ⟨u, hu, ht⟩ := andThen_eq_next.mp h
  cases ht
  exact ⟨u, hu, rfl⟩

/-- Dropping slots lowers `sptr` and does nothing else. -/
theorem dropSlots_eq_next {k : Nat} {s t : State} : dropSlots k s = .next t ↔ k ≤ s.hsUsed ∧ t = s.lowerSptr k := by
  unfold dropSlots
  split <;> rename_i h <;> simp [h, eq_comm]

/-- `PopByte`: the low byte of the slot below `sptr`. -/
theorem popByte_eq_next {s : State} {p : Byte × State} :
    popByte s = .next p ↔ 1 ≤ s.hsUsed ∧ slotByte (s.hsSlot (s.sptr - 1#6)) = some p.1 ∧ p.2 = s.lowerSptr 1 := by
  unfold popByte
  rw [andThen_eq_next]
  constructor
  · rintro ⟨t, ht, hp⟩
    obtain ⟨hk, rfl⟩ := dropSlots_eq_next.mp ht
    have hs : (s.lowerSptr 1).sptr = s.sptr - 1#6 := rfl
    rw [hs] at hp
    split at hp
    · rename_i v hv
      cases hp
      exact ⟨hk, hv, rfl⟩
    · cases hp
  · rintro ⟨hk, hv, hp⟩
    refine ⟨s.lowerSptr 1, dropSlots_eq_next.mpr ⟨hk, rfl⟩, ?_⟩
    have hs : (s.lowerSptr 1).sptr = s.sptr - 1#6 := rfl
    rw [hs, hv, ← hp]

/-- `PopAddr` into PC: the address two slots below `sptr`. -/
theorem popAddr_eq_next {s t : State} :
    popAddr s = .next t ↔
      2 ≤ s.hsUsed ∧ ∃ a, s.slotAddr (s.hsSlot (s.sptr - 2#6)) = some a ∧ t = (s.lowerSptr 2).setPc a := by
  unfold popAddr
  rw [andThen_eq_next]
  constructor
  · rintro ⟨u, hu, hp⟩
    obtain ⟨hk, rfl⟩ := dropSlots_eq_next.mp hu
    have hs : (s.lowerSptr 2).sptr = s.sptr - 2#6 := rfl
    rw [hs] at hp
    split at hp
    · rename_i a ha
      cases hp
      exact ⟨hk, a, ha, rfl⟩
    · cases hp
  · rintro ⟨hk, a, ha, rfl⟩
    refine ⟨s.lowerSptr 2, dropSlots_eq_next.mpr ⟨hk, rfl⟩, ?_⟩
    have hs : (s.lowerSptr 2).sptr = s.sptr - 2#6 := rfl
    rw [hs, ha]

/-! ### Memory accesses -/

/-- A store goes to a mapped address and changes data memory alone. -/
theorem dmWrite_eq_next {a : DAddr} {v : Byte} {s t : State} :
    dmWrite a v s = .next t ↔ s.dmMapped a = true ∧ t = { s with dm := memWrite s.dm a.toNat v } := by
  unfold dmWrite
  split <;> rename_i h <;> simp [h, eq_comm]

/-- A program read is of a mapped address. -/
theorem pmRead_eq_next {a : PAddr} {s : State} {v : Word} :
    pmRead a s = .next v ↔ s.pmMapped a = true ∧ v = memRead s.pm a.toNat := by
  unfold pmRead
  split <;> rename_i h <;> simp [h, eq_comm]

/-- A data read depends on the chip, the input and the memory alone. -/
theorem State.dmRead_congr {s t : State} (hc : t.chip = s.chip) (hi : t.inputs = s.inputs) (hd : t.dm = s.dm)
    (a : DAddr) : t.dmRead a = s.dmRead a := by
  unfold State.dmRead State.dmMapped State.dmCell
  rw [hc, hi, hd]

/-! ### Operand forms -/

/-- An `@idm` source: the byte, the effect with it, the index update. -/
theorem withIdm_eq_next {m : Idm} {f : Byte → State → State} {s t : State} :
    withIdm m f s = .next t ↔
      ∃ disp, idmDisplacement s.chip m = some disp ∧ t = (f (s.dmRead (s.idmAddr m disp)) s).idmUpdate m disp := by
  unfold withIdm
  split
  · rename_i h
    simp [h]
  · rename_i disp h
    simp [h, eq_comm]

/-- A store to an `@idm` destination: the byte to a mapped address, then the index update. -/
theorem storeIdm_eq_next {m : Idm} {v : Byte} {s t : State} :
    storeIdm m v s = .next t ↔
      ∃ disp, idmDisplacement s.chip m = some disp ∧ s.dmMapped (s.idmAddr m disp) = true ∧
        t = ({ s with dm := memWrite s.dm (s.idmAddr m disp).toNat v } : State).idmUpdate m disp := by
  unfold storeIdm
  split
  · rename_i h
    simp [h]
  · rename_i disp h
    rw [andThen_eq_next]
    simp only [h, Option.some.injEq, exists_eq_left']
    constructor
    · rintro ⟨u, hu, ht⟩
      obtain ⟨hm, rfl⟩ := dmWrite_eq_next.mp hu
      cases ht
      exact ⟨hm, rfl⟩
    · rintro ⟨hm, rfl⟩
      exact ⟨_, dmWrite_eq_next.mpr ⟨hm, rfl⟩, rfl⟩

/-- The index update leaves the state or writes its index register. -/
theorem State.idmUpdate_spec (s : State) (m : Idm) (disp : DAddr) :
    s.idmUpdate m disp = s ∨ s.idmUpdate m disp = s.setIdReg m.idx (s.idReg m.idx + disp) := by
  unfold State.idmUpdate
  split
  · exact .inr rfl
  · exact .inr rfl
  · exact .inl rfl
  · exact .inl rfl

/-! ### Exceptions -/

/-- Taking an exception: the return address is pushed, ie is cleared, PC is the vector, and nothing else. -/
theorem takeException_eq_next {vector : PAddr} {s t : State} :
    takeException vector s = .next t ↔ ∃ u, pushAddr s.pc s = .next u ∧ t = (u.setIe false).setPc vector := by
  unfold takeException
  rw [andThen_eq_next]
  constructor
  · rintro ⟨u, hu, ht⟩
    cases ht
    exact ⟨u, hu, rfl⟩
  · rintro ⟨u, hu, rfl⟩
    exact ⟨u, hu, rfl⟩

/-- Returning from one: PC from the stack, ie set, and nothing else. -/
theorem returnFromException_eq_next {s t : State} :
    returnFromException s = .next t ↔ ∃ u, popAddr s = .next u ∧ t = u.setIe true := by
  unfold returnFromException
  rw [andThen_eq_next]
  constructor
  · rintro ⟨u, hu, ht⟩
    cases ht
    exact ⟨u, hu, rfl⟩
  · rintro ⟨u, hu, rfl⟩
    exact ⟨u, hu, rfl⟩

/-- The exception at a boundary is an entry from this state, or from it with the stack-full exception answered. -/
theorem boundaryException_spec {s : State} {o : Res State} (h : boundaryException s = some o) :
    s.boundaryClosed = false ∧
    ((∃ v, s.stackFullVector = some v ∧ o = takeException v { s with sfPending := false }) ∨
     (s.stackFullVector = none ∧ ∃ v, s.interruptVector = some v ∧ o = takeException v s)) := by
  unfold boundaryException at h
  split at h
  · cases h
  · rename_i hb
    refine ⟨by simpa using hb, ?_⟩
    split at h
    · rename_i v hv
      cases h
      exact .inl ⟨v, hv, rfl⟩
    · rename_i hv
      split at h
      · rename_i v hi
        cases h
        exact .inr ⟨hv, v, hi, rfl⟩
      · cases h

end Sys2Proof.Machine
end

