-- ==== Sys2Proof/Laws/Boundary.lean ====
section
/-! SUPPORT. What happens at a boundary, each said once: which vector an interrupt takes, when the core wakes, when a push
has no room, and the step in which an exception is taken or the core only wakes. -/

-- One theorem at a time: the package is compiled as one text under a memory limit.
set_option Elab.async false

namespace Sys2Proof.Machine

@[simp] theorem VectorRule.address_fixed (a : PAddr) (image : List (Nat × Word)) :
    (VectorRule.fixed a).address image = a := rfl

@[simp] theorem VectorRule.address_ofImage (k : Nat) (image : List (Nat × Word)) :
    (VectorRule.ofImage k).address image = Config.imageVector k image := rfl

/-! ### Requests -/

/-- The vector at a boundary: that of the deliverable interrupt, by IRQ_PRIORITY if both are. -/
theorem interruptVector_eq_some {s : State} {v : PAddr} :
    s.interruptVector = some v ↔
      (s.deliverable0 = true ∧ (s.chip.irqPriority = .irq0First ∨ s.deliverable1 = false) ∧
          v = s.chip.vecIrq0.address s.pm ∨
        s.deliverable1 = true ∧ (s.chip.irqPriority = .irq1First ∨ s.deliverable0 = false) ∧
          v = s.chip.vecIrq1.address s.pm) := by
  unfold State.interruptVector State.vector0 State.vector1
  cases s.chip.irqPriority <;> cases s.deliverable0 <;> cases s.deliverable1 <;> simp [eq_comm]

/-- No vector: no interrupt is deliverable. -/
theorem interruptVector_eq_none {s : State} :
    s.interruptVector = none ↔ s.deliverable0 = false ∧ s.deliverable1 = false := by
  unfold State.interruptVector
  cases s.chip.irqPriority <;> cases s.deliverable0 <;> cases s.deliverable1 <;> simp

/-- What wakes the core. -/
theorem wakes_iff {s : State} : s.wakes = true ↔ WakeRequested s := by
  simp [State.wakes, WakeRequested, or_assoc]

/-- The stack-full exception that is taken at an open boundary. -/
theorem stackFullVector_eq_some {s : State} {v : PAddr} :
    s.stackFullVector = some v ↔
      s.sfPending = true ∧ ∃ r, s.chip.stackFull = .trap r ∧ v = r.address s.pm := by
  unfold State.stackFullVector
  cases s.chip.stackFull <;> cases s.sfPending <;> simp [eq_comm]

/-- None is taken if none waits. -/
theorem stackFullVector_of_not_waiting {s : State} (h : s.sfPending = false) : s.stackFullVector = none := by
  unfold State.stackFullVector
  rw [h]
  cases s.chip.stackFull <;> rfl

/-! ### Room on the stack -/

/-- A push without room stops. -/
theorem needRoom_of_noRoom {k : Nat} {s : State} (h : NoRoom s k) : needRoom k s = .fault .hsRange := by
  obtain ⟨hd, h⟩ := h
  unfold HasRoom at hd
  unfold needRoom
  rw [if_neg hd]
  rcases h with h | h
  · rw [h]
  · cases s.chip.stackFull with
    | refuse => rfl
    | trap r => exact if_neg (by omega)

/-- A push beyond HS_DEPTH on a chip with the stack-full exception goes on and raises it. -/
theorem needRoom_of_passesDepth {k : Nat} {s : State} {r : VectorRule} (hr : s.chip.stackFull = .trap r)
    (h : PassesDepth s k) :
    needRoom k s = .next { s with sfPending := s.sfPending || decide (s.hsUsed ≤ s.chip.hsDepth.val) } := by
  obtain ⟨hd, h64⟩ := h
  unfold HasRoom at hd
  unfold needRoom
  rw [if_neg hd, hr]
  exact if_pos h64

/-- An entry without room for the return address stops. -/
theorem takeException_of_noRoom {v : PAddr} {s : State} (h : NoRoom s 2) : takeException v s = .fault .hsRange := by
  unfold takeException pushAddr
  rw [needRoom_of_noRoom h]
  rfl

/-! ### Steps at a boundary -/

/-- At an open boundary the stack-full exception, if it waits, is taken first. -/
theorem boundaryException_of_stackFull {s : State} {v : PAddr} (hc : s.boundaryClosed = false)
    (hv : s.stackFullVector = some v) :
    boundaryException s = some (takeException v { s with sfPending := false }) := by
  unfold boundaryException
  simp only [hc, hv, Bool.false_eq_true, if_false]

/-- Else the interrupt that has a vector. -/
theorem boundaryException_of_interrupt {s : State} {v : PAddr} (hc : s.boundaryClosed = false)
    (hs : s.stackFullVector = none) (hv : s.interruptVector = some v) :
    boundaryException s = some (takeException v s) := by
  unfold boundaryException
  simp only [hc, hs, hv, Bool.false_eq_true, if_false]

theorem OpenBoundary.boundaryClosed {s : State} (h : OpenBoundary s) : s.boundaryClosed = false := by
  unfold State.boundaryClosed
  rw [h.noSlot, h.noHalt]
  rfl

/-- The step of a core that is running, or that a request wakes, when an exception is taken: its entry alone. -/
theorem step_of_exception {s : State} {o : Res State} (h : OpenBoundary s) (hr : s.run = .running ∨ WakeRequested s)
    (ho : boundaryException { s with run := .running } = some o) : step s = andThen o fun t => .next t.sample := by
  unfold step
  rw [if_neg (by simp [h.noReset])]
  cases hs : s.run with
  | locked => exact absurd hs h.notLocked
  | running =>
    have : { s with run := .running } = s := by rw [← hs]
    rw [this] at ho
    simp only [ho]
  | halted m =>
    have hw : s.wakes = true := wakes_iff.mpr (hr.resolve_left (by simp [hs]))
    simp only [hw, if_true, ho]

/-- The step in which an interrupt is taken. -/
theorem step_of_takesInterrupt {s : State} {v : PAddr} (h : TakesInterrupt s v) :
    step s = andThen (takeException v { s with run := .running }) fun t => .next t.sample := by
  obtain ⟨hb, hp, hv⟩ := h
  refine step_of_exception hb (.inr ?_) ?_
  · rcases hv with ⟨hd, -⟩ | ⟨hd, -⟩
    · exact .inl hd
    · exact .inr (.inl hd)
  · exact boundaryException_of_interrupt (s := { s with run := .running }) hb.boundaryClosed
      (stackFullVector_of_not_waiting hp) (interruptVector_eq_some.mpr hv)

/-- The step in which the stack-full exception is taken. -/
theorem step_of_takesStackFull {s : State} {v : PAddr} (h : TakesStackFull s v) :
    step s = andThen (takeException v { s with run := .running, sfPending := false }) fun t => .next t.sample := by
  obtain ⟨hb, hp, hr, hv⟩ := h
  refine step_of_exception hb hr ?_
  exact boundaryException_of_stackFull (s := { s with run := .running }) hb.boundaryClosed
    (stackFullVector_eq_some.mpr ⟨hp, hv⟩)

/-- The step in which a request wakes a halted core and no exception is taken: the core runs again. -/
theorem step_of_wake {s : State} {m : HaltMode} (hn : s.resetPin = false) (hs : s.run = .halted m)
    (hw : WakeRequested s) (hb : boundaryException { s with run := .running } = none) :
    step s = .next { s with run := .running }.sample := by
  unfold step
  rw [if_neg (by simp [hn]), hs]
  simp only [wakes_iff.mpr hw, if_true, hb]

end Sys2Proof.Machine
end

