-- ==== Sys2Proof/Laws/Encoding.lean ====
section
/-! SUPPORT. Encoded words: every format is group, operation, IR[9:8] and a low byte (`wordOf`), and each slice the
decoder looks at is read off those four; codes of registers, modes and conditions read back. -/

-- One theorem at a time: the package is compiled as one text under a memory limit.
set_option Elab.async false

namespace Sys2Proof

/-- IR[15:13], IR[12:10], IR[9:8], IR[7:0]. -/
def wordOf (g o : BitVec 3) (t : BitVec 2) (l : Byte) : Word := g ++ o ++ t ++ l

/-! ### Slices of a word -/

section
variable (g o : BitVec 3) (t : BitVec 2) (l : Byte)

@[simp] theorem field_wordOf_group : field (wordOf g o t l) 13 3 = g := by
  apply BitVec.eq_of_getLsbD_eq
  intro i hi
  simp only [field, wordOf, BitVec.getLsbD_extractLsb', BitVec.getLsbD_append]
  interval_cases i <;> simp

@[simp] theorem field_wordOf_operation : field (wordOf g o t l) 10 3 = o := by
  apply BitVec.eq_of_getLsbD_eq
  intro i hi
  simp only [field, wordOf, BitVec.getLsbD_extractLsb', BitVec.getLsbD_append]
  interval_cases i <;> simp

@[simp] theorem field_wordOf_operationHigh : field (wordOf g o t l) 12 1 = o.extractLsb' 2 1 := by
  apply BitVec.eq_of_getLsbD_eq
  intro i hi
  simp only [field, wordOf, BitVec.getLsbD_extractLsb', BitVec.getLsbD_append]
  interval_cases i
  simp

@[simp] theorem field_wordOf_operationLow : field (wordOf g o t l) 10 2 = o.extractLsb' 0 2 := by
  apply BitVec.eq_of_getLsbD_eq
  intro i hi
  simp only [field, wordOf, BitVec.getLsbD_extractLsb', BitVec.getLsbD_append]
  interval_cases i <;> simp

@[simp] theorem field_wordOf_top : field (wordOf g o t l) 8 2 = t := by
  apply BitVec.eq_of_getLsbD_eq
  intro i hi
  simp only [field, wordOf, BitVec.getLsbD_extractLsb', BitVec.getLsbD_append]
  interval_cases i <;> simp

@[simp] theorem field_wordOf_bitNumber : field (wordOf g o t l) 8 3 = o.extractLsb' 0 1 ++ t := by
  apply BitVec.eq_of_getLsbD_eq
  intro i hi
  simp only [field, wordOf, BitVec.getLsbD_extractLsb', BitVec.getLsbD_append]
  interval_cases i <;> simp

@[simp] theorem field_wordOf_condition : field (wordOf g o t l) 8 4 = o.extractLsb' 0 2 ++ t := by
  apply BitVec.eq_of_getLsbD_eq
  intro i hi
  simp only [field, wordOf, BitVec.getLsbD_extractLsb', BitVec.getLsbD_append]
  interval_cases i <;> simp

@[simp] theorem field_wordOf_imm12 : field (wordOf g o t l) 0 12 = o.extractLsb' 0 2 ++ t ++ l := by
  apply BitVec.eq_of_getLsbD_eq
  intro i hi
  simp only [field, wordOf, BitVec.getLsbD_extractLsb', BitVec.getLsbD_append]
  interval_cases i <;> simp

@[simp] theorem field_wordOf_top4 : field (wordOf g o t l) 12 4 = g ++ o.extractLsb' 2 1 := by
  apply BitVec.eq_of_getLsbD_eq
  intro i hi
  simp only [field, wordOf, BitVec.getLsbD_extractLsb', BitVec.getLsbD_append]
  interval_cases i <;> simp

/-- A slice of IR[7:0] is that slice of the low byte. -/
theorem field_wordOf_low {lo len : Nat} (h : lo + len ≤ 8) : field (wordOf g o t l) lo len = l.extractLsb' lo len := by
  apply BitVec.eq_of_getLsbD_eq
  intro i hi
  simp only [field, wordOf, BitVec.getLsbD_extractLsb', BitVec.getLsbD_append]
  rw [if_pos (by omega)]

end

/-! ### Every format as the four parts -/

theorem encGpr_eq (g o : BitVec 3) (d : Gpr) (l : Byte) : encGpr g o d l = wordOf g o (gprCode d) l := rfl

theorem encOne_eq (o : BitVec 3) (d : Gpr) (l : Byte) : encOne o d l = wordOf 4#3 o (gprCode d) l := rfl

theorem encBit_eq (g : BitVec 3) (op : BitVec 1) (bs : BitVec 3) (adr : Byte) :
    encBit g op bs adr = wordOf g (1#1 ++ op ++ bs.extractLsb' 2 1) (bs.extractLsb' 0 2) adr := by
  apply BitVec.eq_of_getLsbD_eq
  intro i hi
  simp only [encBit, wordOf, BitVec.getLsbD_extractLsb', BitVec.getLsbD_append]
  interval_cases i <;> simp

theorem encRR_eq (op : BitVec 3) (d : Gpr) (mid : BitVec 6) (g : Gpr) :
    encRR op d mid g = wordOf 4#3 op (gprCode d) (mid ++ gprCode g) := by
  apply BitVec.eq_of_getLsbD_eq
  intro i hi
  simp only [encRR, wordOf, BitVec.getLsbD_append]
  interval_cases i <;> simp

theorem encSpr_eq (op : BitVec 3) (top : BitVec 2) (mid : BitVec 5) (r : Spr) :
    encSpr op top mid r = wordOf 4#3 op top (mid ++ sprCode r) := by
  apply BitVec.eq_of_getLsbD_eq
  intro i hi
  simp only [encSpr, wordOf, BitVec.getLsbD_append]
  interval_cases i <;> simp

theorem encSr0_eq (op : BitVec 3) (imm : Byte) :
    encSr0 op imm = wordOf 4#3 op (imm.extractLsb' 6 2) (1#2 ++ imm.extractLsb' 0 6) := by
  apply BitVec.eq_of_getLsbD_eq
  intro i hi
  simp only [encSr0, wordOf, BitVec.getLsbD_append]
  interval_cases i <;> simp

theorem encLong_eq (op : BitVec 4) (cc : Cond) (imm : PAddr) :
    encLong op cc imm =
      wordOf 4#3 (0#1 ++ (condCode cc).extractLsb' 2 2) ((condCode cc).extractLsb' 0 2) (op ++ imm.extractLsb' 16 4) := by
  apply BitVec.eq_of_getLsbD_eq
  intro i hi
  simp only [encLong, wordOf, BitVec.getLsbD_extractLsb', BitVec.getLsbD_append]
  interval_cases i <;> simp

theorem encBm_eq (sel : BitVec 4) :
    encBm sel = wordOf 4#3 3#3 (sel.extractLsb' 2 2) (0#6 ++ sel.extractLsb' 0 2) := by
  apply BitVec.eq_of_getLsbD_eq
  intro i hi
  simp only [encBm, wordOf, BitVec.getLsbD_extractLsb', BitVec.getLsbD_append]
  interval_cases i <;> simp

theorem encLdBank_eq (c : Chip) (bankd : BitVec 2) (d : Gpr) (banks : BitVec 2) (g : Gpr) :
    encLdBank c bankd d banks g =
      wordOf 4#3 0#3 (gprCode d)
        (1#2 ++ (placeBank bankd (bankdPlace c.bankFields) ||| placeBank banks (banksPlace c.bankFields)) ++
          gprCode g) := by
  apply BitVec.eq_of_getLsbD_eq
  intro i hi
  unfold encLdBank wordOf
  generalize placeBank bankd (bankdPlace c.bankFields) ||| placeBank banks (banksPlace c.bankFields) = n
  simp only [BitVec.getLsbD_append]
  interval_cases i <;> simp

/-- JR. -/
theorem encJr_eq (c : Chip) (cc : Cond) (imm : BitVec 9) :
    encodeFirst c (.jr cc imm) =
      wordOf 5#3 (imm.extractLsb' 8 1 ++ (condCode cc).extractLsb' 2 2) ((condCode cc).extractLsb' 0 2)
        (imm.extractLsb' 0 8) := by
  apply BitVec.eq_of_getLsbD_eq
  intro i hi
  simp only [encodeFirst, wordOf, BitVec.getLsbD_extractLsb', BitVec.getLsbD_append]
  interval_cases i <;> simp

/-- A 4-bit code above a 12-bit immediate: CALLS, LNKS, COP. -/
theorem encImm12_eq (code : BitVec 4) (imm : BitVec 12) :
    (code ++ imm : Word) =
      wordOf (code.extractLsb' 1 3) (code.extractLsb' 0 1 ++ imm.extractLsb' 10 2) (imm.extractLsb' 8 2)
        (imm.extractLsb' 0 8) := by
  apply BitVec.eq_of_getLsbD_eq
  intro i hi
  simp only [wordOf, BitVec.getLsbD_extractLsb', BitVec.getLsbD_append]
  interval_cases i <;> simp

/-- A 6-bit code above IR[9:8] and the low byte: `LD SPR0, #imm:8`, BANK, SYS. -/
theorem encTop6_eq (code : BitVec 6) (t : BitVec 2) (l : Byte) :
    (code ++ t ++ l : Word) = wordOf (code.extractLsb' 3 3) (code.extractLsb' 0 3) t l := by
  apply BitVec.eq_of_getLsbD_eq
  intro i hi
  simp only [wordOf, BitVec.getLsbD_extractLsb', BitVec.getLsbD_append]
  interval_cases i <;> simp

/-! ### Slices of the low bytes -/

theorem lowRR_slices (m : BitVec 6) (g : BitVec 2) :
    (m ++ g : Byte).extractLsb' 6 2 = m.extractLsb' 4 2 ∧ (m ++ g : Byte).extractLsb' 4 2 = m.extractLsb' 2 2 ∧
      (m ++ g : Byte).extractLsb' 2 4 = m.extractLsb' 0 4 ∧ (m ++ g : Byte).extractLsb' 0 2 = g := by
  revert m g
  decide +kernel

theorem lowSpr_slices (m : BitVec 5) (r : BitVec 3) :
    (m ++ r : Byte).extractLsb' 6 2 = m.extractLsb' 3 2 ∧ (m ++ r : Byte).extractLsb' 4 2 = m.extractLsb' 1 2 ∧
      (m ++ r : Byte).extractLsb' 2 4 = m.extractLsb' 0 3 ++ r.extractLsb' 2 1 ∧
      (m ++ r : Byte).extractLsb' 0 3 = r := by
  revert m r
  decide +kernel

theorem lowLong_slices (op x : BitVec 4) :
    (op ++ x : Byte).extractLsb' 6 2 = op.extractLsb' 2 2 ∧ (op ++ x : Byte).extractLsb' 4 2 = op.extractLsb' 0 2 ∧
      (op ++ x : Byte).extractLsb' 4 4 = op ∧ (op ++ x : Byte).extractLsb' 0 4 = x := by
  revert op x
  decide +kernel

theorem lowSr0_slices (m : BitVec 6) :
    (1#2 ++ m : Byte).extractLsb' 6 2 = 1#2 ∧ (1#2 ++ m : Byte).extractLsb' 0 6 = m := by
  revert m
  decide +kernel

theorem lowBank_slices (n : BitVec 4) (g : BitVec 2) :
    (1#2 ++ n ++ g : Byte).extractLsb' 6 2 = 1#2 ∧ (1#2 ++ n ++ g : Byte).extractLsb' 2 4 = n ∧
      (1#2 ++ n ++ g : Byte).extractLsb' 0 2 = g := by
  revert n g
  decide +kernel

/-! ### Bank numbers placed and read back, for every value of BANKLD_FIELDS -/

/-- Each of the four places holds one bit of `bankd` or `banks`. -/
theorem bankPlaces_perm (f : BankFields) :
    [(bankdPlace f).1, (bankdPlace f).2, (banksPlace f).1, (banksPlace f).2].Perm [3, 2, 1, 0] := by
  obtain ⟨p, r, r'⟩ := f
  cases p <;> cases r <;> cases r' <;> decide

@[simp] theorem bankNumber_bankd (f : BankFields) (bankd banks : BitVec 2) :
    bankNumber (placeBank bankd (bankdPlace f) ||| placeBank banks (banksPlace f)) (bankdPlace f) = bankd := by
  obtain ⟨p, r, r'⟩ := f
  revert bankd banks
  cases p <;> cases r <;> cases r' <;> decide

@[simp] theorem bankNumber_banks (f : BankFields) (bankd banks : BitVec 2) :
    bankNumber (placeBank bankd (bankdPlace f) ||| placeBank banks (banksPlace f)) (banksPlace f) = banks := by
  obtain ⟨p, r, r'⟩ := f
  revert bankd banks
  cases p <;> cases r <;> cases r' <;> decide

/-- Both bank numbers of a word put back are the word's IR[5:2]. -/
theorem placeBank_bankNumber (f : BankFields) (n : BitVec 4) :
    placeBank (bankNumber n (bankdPlace f)) (bankdPlace f) ||| placeBank (bankNumber n (banksPlace f)) (banksPlace f) = n := by
  obtain ⟨p, r, r'⟩ := f
  revert n
  cases p <;> cases r <;> cases r' <;> decide

theorem lowIdm_slices (x : BitVec 1) (m : BitVec 2) (off : BitVec 5) :
    (x ++ m ++ off : Byte).extractLsb' 7 1 = x ∧ (x ++ m ++ off : Byte).extractLsb' 5 2 = m ∧
      (x ++ m ++ off : Byte).extractLsb' 0 5 = off := by
  revert x m off
  decide +kernel

/-! ### Codes read back -/

@[simp] theorem gprOfCode_gprCode (g : Gpr) : gprOfCode (gprCode g) = g := by cases g <;> rfl

@[simp] theorem sprOfCode_sprCode (r : Spr) : sprOfCode (sprCode r) = r := by cases r <;> rfl

@[simp] theorem spr0OfCode_spr0Code (r : Spr0) : spr0OfCode (spr0Code r) = r := by cases r <;> rfl

@[simp] theorem idxOfCode_idxCode (x : IdxReg) : idxOfCode (idxCode x) = x := by cases x <;> rfl

@[simp] theorem modeOfCode_modeCode (m : IdmMode) : modeOfCode (modeCode m) = m := by cases m <;> rfl

@[simp] theorem condOfCode_condCode (cc : Cond) : condOfCode (condCode cc) = cc := by cases cc <;> rfl

/-- The long branches are the words that rule R123 says are the first of two. -/
theorem isFirstOfTwo_wordOf (g o : BitVec 3) (t : BitVec 2) (l : Byte) :
    isFirstOfTwo (wordOf g o t l) =
      (g ++ o.extractLsb' 2 1 == 8#4 && l.extractLsb' 6 2 == 3#2 && l.extractLsb' 4 2 != 0#2) := by
  unfold isFirstOfTwo
  rw [field_wordOf_top4, field_wordOf_low _ _ _ _ (by decide), field_wordOf_low _ _ _ _ (by decide)]

/-- No word outside group 100 is the first of two. -/
theorem isFirstOfTwo_of_group {g o : BitVec 3} {t : BitVec 2} {l : Byte} (h : g ≠ 4#3) :
    isFirstOfTwo (wordOf g o t l) = false := by
  rw [isFirstOfTwo_wordOf]
  have h' : g ++ o.extractLsb' 2 1 ≠ 8#4 := by
    revert g o
    decide
  simp [h']

/-- Nor is one whose IR[7:6] is not 11. -/
theorem isFirstOfTwo_of_low {g o : BitVec 3} {t : BitVec 2} {l : Byte} (h : l.extractLsb' 6 2 ≠ 3#2) :
    isFirstOfTwo (wordOf g o t l) = false := by
  rw [isFirstOfTwo_wordOf]
  simp [h]

/-- Nor is one with IR[12] = 1. -/
theorem isFirstOfTwo_of_operation {g o : BitVec 3} {t : BitVec 2} {l : Byte} (h : o.extractLsb' 2 1 = 1#1) :
    isFirstOfTwo (wordOf g o t l) = false := by
  rw [isFirstOfTwo_wordOf]
  have h' : g ++ o.extractLsb' 2 1 ≠ 8#4 := by
    revert g o
    decide
  simp [h']

/-- The first word of a long branch is. -/
theorem isFirstOfTwo_encLong (op : BitVec 4) (cc : Cond) (imm : PAddr) (h : op.extractLsb' 2 2 = 3#2)
    (h' : op.extractLsb' 0 2 ≠ 0#2) : isFirstOfTwo (encLong op cc imm) = true := by
  rw [encLong_eq, isFirstOfTwo_wordOf, (lowLong_slices _ _).1, (lowLong_slices _ _).2.1]
  have hc : 4#3 ++ (0#1 ++ (condCode cc).extractLsb' 2 2 : BitVec 3).extractLsb' 2 1 = 8#4 := by cases cc <;> decide
  simp [hc, h, h']

end Sys2Proof
end

