-- ==== Sys2Proof/Laws/Flags.lean ====
section
/-! SUPPORT. The flags read after each flag update, and the 8-bit addition in exact arithmetic. -/

-- One theorem at a time: the package is compiled as one text under a memory limit.
set_option Elab.async false

namespace Sys2Proof.Machine

@[simp] theorem State.setFlags_c (s : State) (c z v n : Bool) : (s.setFlags c z v n).c = c := by
  unfold State.setFlags State.c
  simp only [BitVec.getLsbD_append, BitVec.getLsbD_ofBool]
  simp

@[simp] theorem State.setFlags_z (s : State) (c z v n : Bool) : (s.setFlags c z v n).z = z := by
  unfold State.setFlags State.z
  simp only [BitVec.getLsbD_append, BitVec.getLsbD_ofBool]
  simp

@[simp] theorem State.setFlags_v (s : State) (c z v n : Bool) : (s.setFlags c z v n).v = v := by
  unfold State.setFlags State.v
  simp only [BitVec.getLsbD_append, BitVec.getLsbD_ofBool]
  simp

@[simp] theorem State.setFlags_n (s : State) (c z v n : Bool) : (s.setFlags c z v n).n = n := by
  unfold State.setFlags State.n
  simp only [BitVec.getLsbD_append, BitVec.getLsbD_ofBool]
  simp

/-- SR1[7:4] keep their values under every flag update. -/
@[simp] theorem State.setFlags_sr1Rest (s : State) (c z v n : Bool) :
    (s.setFlags c z v n).sr1.extractLsb' 4 4 = s.sr1.extractLsb' 4 4 := by
  apply BitVec.eq_of_getLsbD_eq
  intro i hi
  unfold State.setFlags
  simp only [BitVec.getLsbD_extractLsb', BitVec.getLsbD_append, BitVec.getLsbD_ofBool]
  have h : i = 0 ∨ i = 1 ∨ i = 2 ∨ i = 3 := by omega
  rcases h with rfl | rfl | rfl | rfl <;> simp

/-- The flags of states with the same SR1. -/
theorem State.flags_congr {s t : State} (h : t.sr1 = s.sr1) : t.c = s.c ∧ t.z = s.z ∧ t.v = s.v ∧ t.n = s.n := by
  unfold State.c State.z State.v State.n
  rw [h]
  exact ⟨rfl, rfl, rfl, rfl⟩

/-- The sum of the 8-bit addition. -/
theorem addC_r (a b : Byte) (cin : Bool) : (addC a b cin).r.toNat = (a.toNat + b.toNat + cin.toNat) % 256 := by
  cases cin <;> simp [addC]

/-- Its carry: the exact sum does not fit eight bits. -/
theorem addC_c (a b : Byte) (cin : Bool) : (addC a b cin).c = decide (256 ≤ a.toNat + b.toNat + cin.toNat) := by
  have ha := a.isLt
  have hb := b.isLt
  cases cin <;> simp [addC, BitVec.msb_eq_decide] <;> omega

/-- Its overflow: the exact signed sum does not fit eight bits. -/
theorem addC_v (a b : Byte) (cin : Bool) :
    (addC a b cin).v = decide (a.toInt + b.toInt + cin.toNat < -128 ∨ 127 < a.toInt + b.toInt + cin.toNat) := by
  have hr := addC_r a b cin
  have hv : (addC a b cin).v = (a.msb == b.msb && (addC a b cin).r.msb != a.msb) := rfl
  have ha := a.isLt
  have hb := b.isLt
  have hc : cin.toNat ≤ 1 := by cases cin <;> decide
  rw [hv, BitVec.msb_eq_decide, BitVec.msb_eq_decide, BitVec.msb_eq_decide, hr, BitVec.toInt_eq_toNat_cond,
    BitVec.toInt_eq_toNat_cond, Bool.eq_iff_iff]
  simp only [Bool.and_eq_true, beq_iff_eq, bne_iff_ne, ne_eq, decide_eq_decide, decide_eq_true_eq]
  split <;> split <;> omega

/-- Overflow xor the sum's high bit: the exact signed sum is negative. -/
theorem addC_n (a b : Byte) (cin : Bool) :
    ((addC a b cin).v ^^ (addC a b cin).r.msb) = decide (a.toInt + b.toInt + cin.toNat < 0) := by
  have hr := addC_r a b cin
  have ha := a.isLt
  have hb := b.isLt
  have hc : cin.toNat ≤ 1 := by cases cin <;> decide
  rw [addC_v, BitVec.msb_eq_decide, hr, BitVec.toInt_eq_toNat_cond, BitVec.toInt_eq_toNat_cond]
  have hx : ∀ (p q : Prop) [Decidable p] [Decidable q], (decide p ^^ decide q) = decide (¬(p ↔ q)) := by
    intro p q _ _
    by_cases hp : p <;> by_cases hq : q <;> simp [hp, hq]
  rw [hx, decide_eq_decide]
  split <;> split <;> omega

end Sys2Proof.Machine
end

