-- ==== Sys2Proof/Laws/Getters.lean ====
section
/-! SUPPORT. What each update leaves as it was, said of everything a claim reads a state through; and what the updates of
registers, index registers and stack slots write. -/

-- One theorem at a time: the package is compiled as one text under a memory limit.
set_option Elab.async false

namespace Sys2Proof.Machine

/-! ### `xb` -/

@[simp] theorem State.setIe_xb (s : State) (v : Bool) (j : BitVec 2) (y : Gpr) : (s.setIe v).xb j y = s.xb j y := rfl
@[simp] theorem State.setBankSel_xb (s : State) (b : BitVec 2) (j : BitVec 2) (y : Gpr) : (s.setBankSel b).xb j y = s.xb j y := rfl
@[simp] theorem State.setIdx_xb (s : State) (b : IndexBank) (j : BitVec 2) (y : Gpr) : (s.setIdx b).xb j y = s.xb j y := by unfold State.setIdx; split <;> rfl
@[simp] theorem State.setIdReg_xb (s : State) (r : IdxReg) (a : DAddr) (j : BitVec 2) (y : Gpr) : (s.setIdReg r a).xb j y = s.xb j y := by cases r <;> first | rfl | simp [State.setIdReg]
@[simp] theorem State.setSpr_xb (s : State) (r : Spr) (v : Byte) (j : BitVec 2) (y : Gpr) : (s.setSpr r v).xb j y = s.xb j y := by cases r <;> first | rfl | simp [State.setSpr]
@[simp] theorem State.advance_xb (s : State) (n : Nat) (j : BitVec 2) (y : Gpr) : (s.advance n).xb j y = s.xb j y := rfl
@[simp] theorem State.setPc_xb (s : State) (a : PAddr) (j : BitVec 2) (y : Gpr) : (s.setPc a).xb j y = s.xb j y := rfl
@[simp] theorem State.setLink_xb (s : State) (a : PAddr) (j : BitVec 2) (y : Gpr) : (s.setLink a).xb j y = s.xb j y := rfl
@[simp] theorem State.setHsSlot_xb (s : State) (i : BitVec 6) (v : HsSlot) (j : BitVec 2) (y : Gpr) : (s.setHsSlot i v).xb j y = s.xb j y := rfl
@[simp] theorem State.raiseSptr_xb (s : State) (k : Nat) (j : BitVec 2) (y : Gpr) : (s.raiseSptr k).xb j y = s.xb j y := rfl
@[simp] theorem State.lowerSptr_xb (s : State) (k : Nat) (j : BitVec 2) (y : Gpr) : (s.lowerSptr k).xb j y = s.xb j y := rfl
@[simp] theorem State.emit_xb (s : State) (e : CoreEvent) (j : BitVec 2) (y : Gpr) : (s.emit e).xb j y = s.xb j y := rfl
@[simp] theorem State.setFlags_xb (s : State) (c z v n : Bool) (j : BitVec 2) (y : Gpr) : (s.setFlags c z v n).xb j y = s.xb j y := rfl
@[simp] theorem State.beginInstr_xb (s : State) (j : BitVec 2) (y : Gpr) : (s.beginInstr).xb j y = s.xb j y := rfl
@[simp] theorem State.sample_xb (s : State) (j : BitVec 2) (y : Gpr) : (s.sample).xb j y = s.xb j y := rfl

/-! ### `idxBank` -/

@[simp] theorem State.setIe_idxBank (s : State) (v : Bool) (j : Bool) : (s.setIe v).idxBank j = s.idxBank j := rfl
@[simp] theorem State.setBankSel_idxBank (s : State) (b : BitVec 2) (j : Bool) : (s.setBankSel b).idxBank j = s.idxBank j := rfl
@[simp] theorem State.setXb_idxBank (s : State) (b : BitVec 2) (g : Gpr) (v : Byte) (j : Bool) : (s.setXb b g v).idxBank j = s.idxBank j := rfl
@[simp] theorem State.setX_idxBank (s : State) (g : Gpr) (v : Byte) (j : Bool) : (s.setX g v).idxBank j = s.idxBank j := rfl
@[simp] theorem State.advance_idxBank (s : State) (n : Nat) (j : Bool) : (s.advance n).idxBank j = s.idxBank j := rfl
@[simp] theorem State.setPc_idxBank (s : State) (a : PAddr) (j : Bool) : (s.setPc a).idxBank j = s.idxBank j := rfl
@[simp] theorem State.setLink_idxBank (s : State) (a : PAddr) (j : Bool) : (s.setLink a).idxBank j = s.idxBank j := rfl
@[simp] theorem State.setHsSlot_idxBank (s : State) (i : BitVec 6) (v : HsSlot) (j : Bool) : (s.setHsSlot i v).idxBank j = s.idxBank j := rfl
@[simp] theorem State.raiseSptr_idxBank (s : State) (k : Nat) (j : Bool) : (s.raiseSptr k).idxBank j = s.idxBank j := rfl
@[simp] theorem State.lowerSptr_idxBank (s : State) (k : Nat) (j : Bool) : (s.lowerSptr k).idxBank j = s.idxBank j := rfl
@[simp] theorem State.emit_idxBank (s : State) (e : CoreEvent) (j : Bool) : (s.emit e).idxBank j = s.idxBank j := rfl
@[simp] theorem State.setFlags_idxBank (s : State) (c z v n : Bool) (j : Bool) : (s.setFlags c z v n).idxBank j = s.idxBank j := rfl
@[simp] theorem State.beginInstr_idxBank (s : State) (j : Bool) : (s.beginInstr).idxBank j = s.idxBank j := rfl
@[simp] theorem State.sample_idxBank (s : State) (j : Bool) : (s.sample).idxBank j = s.idxBank j := rfl

/-! ### `hsSlot` -/

@[simp] theorem State.setIe_hsSlot (s : State) (v : Bool) (j : BitVec 6) : (s.setIe v).hsSlot j = s.hsSlot j := rfl
@[simp] theorem State.setBankSel_hsSlot (s : State) (b : BitVec 2) (j : BitVec 6) : (s.setBankSel b).hsSlot j = s.hsSlot j := rfl
@[simp] theorem State.setXb_hsSlot (s : State) (b : BitVec 2) (g : Gpr) (v : Byte) (j : BitVec 6) : (s.setXb b g v).hsSlot j = s.hsSlot j := rfl
@[simp] theorem State.setX_hsSlot (s : State) (g : Gpr) (v : Byte) (j : BitVec 6) : (s.setX g v).hsSlot j = s.hsSlot j := rfl
@[simp] theorem State.setIdx_hsSlot (s : State) (b : IndexBank) (j : BitVec 6) : (s.setIdx b).hsSlot j = s.hsSlot j := by unfold State.setIdx; split <;> rfl
@[simp] theorem State.setIdReg_hsSlot (s : State) (r : IdxReg) (a : DAddr) (j : BitVec 6) : (s.setIdReg r a).hsSlot j = s.hsSlot j := by cases r <;> first | rfl | simp [State.setIdReg]
@[simp] theorem State.setSpr_hsSlot (s : State) (r : Spr) (v : Byte) (j : BitVec 6) : (s.setSpr r v).hsSlot j = s.hsSlot j := by cases r <;> first | rfl | simp [State.setSpr]
@[simp] theorem State.advance_hsSlot (s : State) (n : Nat) (j : BitVec 6) : (s.advance n).hsSlot j = s.hsSlot j := rfl
@[simp] theorem State.setPc_hsSlot (s : State) (a : PAddr) (j : BitVec 6) : (s.setPc a).hsSlot j = s.hsSlot j := rfl
@[simp] theorem State.setLink_hsSlot (s : State) (a : PAddr) (j : BitVec 6) : (s.setLink a).hsSlot j = s.hsSlot j := rfl
@[simp] theorem State.raiseSptr_hsSlot (s : State) (k : Nat) (j : BitVec 6) : (s.raiseSptr k).hsSlot j = s.hsSlot j := rfl
@[simp] theorem State.lowerSptr_hsSlot (s : State) (k : Nat) (j : BitVec 6) : (s.lowerSptr k).hsSlot j = s.hsSlot j := rfl
@[simp] theorem State.emit_hsSlot (s : State) (e : CoreEvent) (j : BitVec 6) : (s.emit e).hsSlot j = s.hsSlot j := rfl
@[simp] theorem State.setFlags_hsSlot (s : State) (c z v n : Bool) (j : BitVec 6) : (s.setFlags c z v n).hsSlot j = s.hsSlot j := rfl
@[simp] theorem State.beginInstr_hsSlot (s : State) (j : BitVec 6) : (s.beginInstr).hsSlot j = s.hsSlot j := rfl
@[simp] theorem State.sample_hsSlot (s : State) (j : BitVec 6) : (s.sample).hsSlot j = s.hsSlot j := rfl

/-! ### `hsUsed` -/

@[simp] theorem State.setIe_hsUsed (s : State) (v : Bool) : (s.setIe v).hsUsed = s.hsUsed := rfl
@[simp] theorem State.setBankSel_hsUsed (s : State) (b : BitVec 2) : (s.setBankSel b).hsUsed = s.hsUsed := rfl
@[simp] theorem State.setXb_hsUsed (s : State) (b : BitVec 2) (g : Gpr) (v : Byte) : (s.setXb b g v).hsUsed = s.hsUsed := rfl
@[simp] theorem State.setX_hsUsed (s : State) (g : Gpr) (v : Byte) : (s.setX g v).hsUsed = s.hsUsed := rfl
@[simp] theorem State.setIdx_hsUsed (s : State) (b : IndexBank) : (s.setIdx b).hsUsed = s.hsUsed := by unfold State.setIdx; split <;> rfl
@[simp] theorem State.setIdReg_hsUsed (s : State) (r : IdxReg) (a : DAddr) : (s.setIdReg r a).hsUsed = s.hsUsed := by cases r <;> first | rfl | simp [State.setIdReg]
@[simp] theorem State.setSpr_hsUsed (s : State) (r : Spr) (v : Byte) : (s.setSpr r v).hsUsed = s.hsUsed := by cases r <;> first | rfl | simp [State.setSpr]
@[simp] theorem State.advance_hsUsed (s : State) (n : Nat) : (s.advance n).hsUsed = s.hsUsed := rfl
@[simp] theorem State.setPc_hsUsed (s : State) (a : PAddr) : (s.setPc a).hsUsed = s.hsUsed := rfl
@[simp] theorem State.setLink_hsUsed (s : State) (a : PAddr) : (s.setLink a).hsUsed = s.hsUsed := rfl
@[simp] theorem State.setHsSlot_hsUsed (s : State) (i : BitVec 6) (v : HsSlot) : (s.setHsSlot i v).hsUsed = s.hsUsed := rfl
@[simp] theorem State.emit_hsUsed (s : State) (e : CoreEvent) : (s.emit e).hsUsed = s.hsUsed := rfl
@[simp] theorem State.setFlags_hsUsed (s : State) (c z v n : Bool) : (s.setFlags c z v n).hsUsed = s.hsUsed := rfl
@[simp] theorem State.beginInstr_hsUsed (s : State) : (s.beginInstr).hsUsed = s.hsUsed := rfl
@[simp] theorem State.sample_hsUsed (s : State) : (s.sample).hsUsed = s.hsUsed := rfl

/-! ### `dmRead` -/

@[simp] theorem State.setIe_dmRead (s : State) (v : Bool) (x : DAddr) : (s.setIe v).dmRead x = s.dmRead x := rfl
@[simp] theorem State.setBankSel_dmRead (s : State) (b : BitVec 2) (x : DAddr) : (s.setBankSel b).dmRead x = s.dmRead x := rfl
@[simp] theorem State.setXb_dmRead (s : State) (b : BitVec 2) (g : Gpr) (v : Byte) (x : DAddr) : (s.setXb b g v).dmRead x = s.dmRead x := rfl
@[simp] theorem State.setX_dmRead (s : State) (g : Gpr) (v : Byte) (x : DAddr) : (s.setX g v).dmRead x = s.dmRead x := rfl
@[simp] theorem State.setIdx_dmRead (s : State) (b : IndexBank) (x : DAddr) : (s.setIdx b).dmRead x = s.dmRead x := by unfold State.setIdx; split <;> rfl
@[simp] theorem State.setIdReg_dmRead (s : State) (r : IdxReg) (a : DAddr) (x : DAddr) : (s.setIdReg r a).dmRead x = s.dmRead x := by cases r <;> first | rfl | simp [State.setIdReg]
@[simp] theorem State.setSpr_dmRead (s : State) (r : Spr) (v : Byte) (x : DAddr) : (s.setSpr r v).dmRead x = s.dmRead x := by cases r <;> first | rfl | simp [State.setSpr]
@[simp] theorem State.advance_dmRead (s : State) (n : Nat) (x : DAddr) : (s.advance n).dmRead x = s.dmRead x := rfl
@[simp] theorem State.setPc_dmRead (s : State) (a : PAddr) (x : DAddr) : (s.setPc a).dmRead x = s.dmRead x := rfl
@[simp] theorem State.setLink_dmRead (s : State) (a : PAddr) (x : DAddr) : (s.setLink a).dmRead x = s.dmRead x := rfl
@[simp] theorem State.setHsSlot_dmRead (s : State) (i : BitVec 6) (v : HsSlot) (x : DAddr) : (s.setHsSlot i v).dmRead x = s.dmRead x := rfl
@[simp] theorem State.raiseSptr_dmRead (s : State) (k : Nat) (x : DAddr) : (s.raiseSptr k).dmRead x = s.dmRead x := rfl
@[simp] theorem State.lowerSptr_dmRead (s : State) (k : Nat) (x : DAddr) : (s.lowerSptr k).dmRead x = s.dmRead x := rfl
@[simp] theorem State.emit_dmRead (s : State) (e : CoreEvent) (x : DAddr) : (s.emit e).dmRead x = s.dmRead x := rfl
@[simp] theorem State.setFlags_dmRead (s : State) (c z v n : Bool) (x : DAddr) : (s.setFlags c z v n).dmRead x = s.dmRead x := rfl
@[simp] theorem State.beginInstr_dmRead (s : State) (x : DAddr) : (s.beginInstr).dmRead x = s.dmRead x := rfl

/-! ### `dmMapped` -/

@[simp] theorem State.setIe_dmMapped (s : State) (v : Bool) (x : DAddr) : (s.setIe v).dmMapped x = s.dmMapped x := rfl
@[simp] theorem State.setBankSel_dmMapped (s : State) (b : BitVec 2) (x : DAddr) : (s.setBankSel b).dmMapped x = s.dmMapped x := rfl
@[simp] theorem State.setXb_dmMapped (s : State) (b : BitVec 2) (g : Gpr) (v : Byte) (x : DAddr) : (s.setXb b g v).dmMapped x = s.dmMapped x := rfl
@[simp] theorem State.setX_dmMapped (s : State) (g : Gpr) (v : Byte) (x : DAddr) : (s.setX g v).dmMapped x = s.dmMapped x := rfl
@[simp] theorem State.setIdx_dmMapped (s : State) (b : IndexBank) (x : DAddr) : (s.setIdx b).dmMapped x = s.dmMapped x := by unfold State.setIdx; split <;> rfl
@[simp] theorem State.setIdReg_dmMapped (s : State) (r : IdxReg) (a : DAddr) (x : DAddr) : (s.setIdReg r a).dmMapped x = s.dmMapped x := by cases r <;> first | rfl | simp [State.setIdReg]
@[simp] theorem State.setSpr_dmMapped (s : State) (r : Spr) (v : Byte) (x : DAddr) : (s.setSpr r v).dmMapped x = s.dmMapped x := by cases r <;> first | rfl | simp [State.setSpr]
@[simp] theorem State.advance_dmMapped (s : State) (n : Nat) (x : DAddr) : (s.advance n).dmMapped x = s.dmMapped x := rfl
@[simp] theorem State.setPc_dmMapped (s : State) (a : PAddr) (x : DAddr) : (s.setPc a).dmMapped x = s.dmMapped x := rfl
@[simp] theorem State.setLink_dmMapped (s : State) (a : PAddr) (x : DAddr) : (s.setLink a).dmMapped x = s.dmMapped x := rfl
@[simp] theorem State.setHsSlot_dmMapped (s : State) (i : BitVec 6) (v : HsSlot) (x : DAddr) : (s.setHsSlot i v).dmMapped x = s.dmMapped x := rfl
@[simp] theorem State.raiseSptr_dmMapped (s : State) (k : Nat) (x : DAddr) : (s.raiseSptr k).dmMapped x = s.dmMapped x := rfl
@[simp] theorem State.lowerSptr_dmMapped (s : State) (k : Nat) (x : DAddr) : (s.lowerSptr k).dmMapped x = s.dmMapped x := rfl
@[simp] theorem State.emit_dmMapped (s : State) (e : CoreEvent) (x : DAddr) : (s.emit e).dmMapped x = s.dmMapped x := rfl
@[simp] theorem State.setFlags_dmMapped (s : State) (c z v n : Bool) (x : DAddr) : (s.setFlags c z v n).dmMapped x = s.dmMapped x := rfl
@[simp] theorem State.beginInstr_dmMapped (s : State) (x : DAddr) : (s.beginInstr).dmMapped x = s.dmMapped x := rfl
@[simp] theorem State.sample_dmMapped (s : State) (x : DAddr) : (s.sample).dmMapped x = s.dmMapped x := rfl

/-! ### `dmCell` -/

@[simp] theorem State.setIe_dmCell (s : State) (v : Bool) (x : DAddr) : (s.setIe v).dmCell x = s.dmCell x := rfl
@[simp] theorem State.setBankSel_dmCell (s : State) (b : BitVec 2) (x : DAddr) : (s.setBankSel b).dmCell x = s.dmCell x := rfl
@[simp] theorem State.setXb_dmCell (s : State) (b : BitVec 2) (g : Gpr) (v : Byte) (x : DAddr) : (s.setXb b g v).dmCell x = s.dmCell x := rfl
@[simp] theorem State.setX_dmCell (s : State) (g : Gpr) (v : Byte) (x : DAddr) : (s.setX g v).dmCell x = s.dmCell x := rfl
@[simp] theorem State.setIdx_dmCell (s : State) (b : IndexBank) (x : DAddr) : (s.setIdx b).dmCell x = s.dmCell x := by unfold State.setIdx; split <;> rfl
@[simp] theorem State.setIdReg_dmCell (s : State) (r : IdxReg) (a : DAddr) (x : DAddr) : (s.setIdReg r a).dmCell x = s.dmCell x := by cases r <;> first | rfl | simp [State.setIdReg]
@[simp] theorem State.setSpr_dmCell (s : State) (r : Spr) (v : Byte) (x : DAddr) : (s.setSpr r v).dmCell x = s.dmCell x := by cases r <;> first | rfl | simp [State.setSpr]
@[simp] theorem State.advance_dmCell (s : State) (n : Nat) (x : DAddr) : (s.advance n).dmCell x = s.dmCell x := rfl
@[simp] theorem State.setPc_dmCell (s : State) (a : PAddr) (x : DAddr) : (s.setPc a).dmCell x = s.dmCell x := rfl
@[simp] theorem State.setLink_dmCell (s : State) (a : PAddr) (x : DAddr) : (s.setLink a).dmCell x = s.dmCell x := rfl
@[simp] theorem State.setHsSlot_dmCell (s : State) (i : BitVec 6) (v : HsSlot) (x : DAddr) : (s.setHsSlot i v).dmCell x = s.dmCell x := rfl
@[simp] theorem State.raiseSptr_dmCell (s : State) (k : Nat) (x : DAddr) : (s.raiseSptr k).dmCell x = s.dmCell x := rfl
@[simp] theorem State.lowerSptr_dmCell (s : State) (k : Nat) (x : DAddr) : (s.lowerSptr k).dmCell x = s.dmCell x := rfl
@[simp] theorem State.emit_dmCell (s : State) (e : CoreEvent) (x : DAddr) : (s.emit e).dmCell x = s.dmCell x := rfl
@[simp] theorem State.setFlags_dmCell (s : State) (c z v n : Bool) (x : DAddr) : (s.setFlags c z v n).dmCell x = s.dmCell x := rfl
@[simp] theorem State.beginInstr_dmCell (s : State) (x : DAddr) : (s.beginInstr).dmCell x = s.dmCell x := rfl
@[simp] theorem State.sample_dmCell (s : State) (x : DAddr) : (s.sample).dmCell x = s.dmCell x := rfl

/-! ### `c` -/

@[simp] theorem State.setIe_c (s : State) (v : Bool) : (s.setIe v).c = s.c := rfl
@[simp] theorem State.setBankSel_c (s : State) (b : BitVec 2) : (s.setBankSel b).c = s.c := rfl
@[simp] theorem State.setXb_c (s : State) (b : BitVec 2) (g : Gpr) (v : Byte) : (s.setXb b g v).c = s.c := rfl
@[simp] theorem State.setX_c (s : State) (g : Gpr) (v : Byte) : (s.setX g v).c = s.c := rfl
@[simp] theorem State.setIdx_c (s : State) (b : IndexBank) : (s.setIdx b).c = s.c := by unfold State.setIdx; split <;> rfl
@[simp] theorem State.setIdReg_c (s : State) (r : IdxReg) (a : DAddr) : (s.setIdReg r a).c = s.c := by cases r <;> first | rfl | simp [State.setIdReg]
@[simp] theorem State.advance_c (s : State) (n : Nat) : (s.advance n).c = s.c := rfl
@[simp] theorem State.setPc_c (s : State) (a : PAddr) : (s.setPc a).c = s.c := rfl
@[simp] theorem State.setLink_c (s : State) (a : PAddr) : (s.setLink a).c = s.c := rfl
@[simp] theorem State.setHsSlot_c (s : State) (i : BitVec 6) (v : HsSlot) : (s.setHsSlot i v).c = s.c := rfl
@[simp] theorem State.raiseSptr_c (s : State) (k : Nat) : (s.raiseSptr k).c = s.c := rfl
@[simp] theorem State.lowerSptr_c (s : State) (k : Nat) : (s.lowerSptr k).c = s.c := rfl
@[simp] theorem State.emit_c (s : State) (e : CoreEvent) : (s.emit e).c = s.c := rfl
@[simp] theorem State.beginInstr_c (s : State) : (s.beginInstr).c = s.c := rfl
@[simp] theorem State.sample_c (s : State) : (s.sample).c = s.c := rfl

/-! ### `z` -/

@[simp] theorem State.setIe_z (s : State) (v : Bool) : (s.setIe v).z = s.z := rfl
@[simp] theorem State.setBankSel_z (s : State) (b : BitVec 2) : (s.setBankSel b).z = s.z := rfl
@[simp] theorem State.setXb_z (s : State) (b : BitVec 2) (g : Gpr) (v : Byte) : (s.setXb b g v).z = s.z := rfl
@[simp] theorem State.setX_z (s : State) (g : Gpr) (v : Byte) : (s.setX g v).z = s.z := rfl
@[simp] theorem State.setIdx_z (s : State) (b : IndexBank) : (s.setIdx b).z = s.z := by unfold State.setIdx; split <;> rfl
@[simp] theorem State.setIdReg_z (s : State) (r : IdxReg) (a : DAddr) : (s.setIdReg r a).z = s.z := by cases r <;> first | rfl | simp [State.setIdReg]
@[simp] theorem State.advance_z (s : State) (n : Nat) : (s.advance n).z = s.z := rfl
@[simp] theorem State.setPc_z (s : State) (a : PAddr) : (s.setPc a).z = s.z := rfl
@[simp] theorem State.setLink_z (s : State) (a : PAddr) : (s.setLink a).z = s.z := rfl
@[simp] theorem State.setHsSlot_z (s : State) (i : BitVec 6) (v : HsSlot) : (s.setHsSlot i v).z = s.z := rfl
@[simp] theorem State.raiseSptr_z (s : State) (k : Nat) : (s.raiseSptr k).z = s.z := rfl
@[simp] theorem State.lowerSptr_z (s : State) (k : Nat) : (s.lowerSptr k).z = s.z := rfl
@[simp] theorem State.emit_z (s : State) (e : CoreEvent) : (s.emit e).z = s.z := rfl
@[simp] theorem State.beginInstr_z (s : State) : (s.beginInstr).z = s.z := rfl
@[simp] theorem State.sample_z (s : State) : (s.sample).z = s.z := rfl

/-! ### `v` -/

@[simp] theorem State.setIe_v (s : State) (v : Bool) : (s.setIe v).v = s.v := rfl
@[simp] theorem State.setBankSel_v (s : State) (b : BitVec 2) : (s.setBankSel b).v = s.v := rfl
@[simp] theorem State.setXb_v (s : State) (b : BitVec 2) (g : Gpr) (v : Byte) : (s.setXb b g v).v = s.v := rfl
@[simp] theorem State.setX_v (s : State) (g : Gpr) (v : Byte) : (s.setX g v).v = s.v := rfl
@[simp] theorem State.setIdx_v (s : State) (b : IndexBank) : (s.setIdx b).v = s.v := by unfold State.setIdx; split <;> rfl
@[simp] theorem State.setIdReg_v (s : State) (r : IdxReg) (a : DAddr) : (s.setIdReg r a).v = s.v := by cases r <;> first | rfl | simp [State.setIdReg]
@[simp] theorem State.advance_v (s : State) (n : Nat) : (s.advance n).v = s.v := rfl
@[simp] theorem State.setPc_v (s : State) (a : PAddr) : (s.setPc a).v = s.v := rfl
@[simp] theorem State.setLink_v (s : State) (a : PAddr) : (s.setLink a).v = s.v := rfl
@[simp] theorem State.setHsSlot_v (s : State) (i : BitVec 6) (v : HsSlot) : (s.setHsSlot i v).v = s.v := rfl
@[simp] theorem State.raiseSptr_v (s : State) (k : Nat) : (s.raiseSptr k).v = s.v := rfl
@[simp] theorem State.lowerSptr_v (s : State) (k : Nat) : (s.lowerSptr k).v = s.v := rfl
@[simp] theorem State.emit_v (s : State) (e : CoreEvent) : (s.emit e).v = s.v := rfl
@[simp] theorem State.beginInstr_v (s : State) : (s.beginInstr).v = s.v := rfl
@[simp] theorem State.sample_v (s : State) : (s.sample).v = s.v := rfl

/-! ### `n` -/

@[simp] theorem State.setIe_n (s : State) (v : Bool) : (s.setIe v).n = s.n := rfl
@[simp] theorem State.setBankSel_n (s : State) (b : BitVec 2) : (s.setBankSel b).n = s.n := rfl
@[simp] theorem State.setXb_n (s : State) (b : BitVec 2) (g : Gpr) (v : Byte) : (s.setXb b g v).n = s.n := rfl
@[simp] theorem State.setX_n (s : State) (g : Gpr) (v : Byte) : (s.setX g v).n = s.n := rfl
@[simp] theorem State.setIdx_n (s : State) (b : IndexBank) : (s.setIdx b).n = s.n := by unfold State.setIdx; split <;> rfl
@[simp] theorem State.setIdReg_n (s : State) (r : IdxReg) (a : DAddr) : (s.setIdReg r a).n = s.n := by cases r <;> first | rfl | simp [State.setIdReg]
@[simp] theorem State.advance_n (s : State) (n : Nat) : (s.advance n).n = s.n := rfl
@[simp] theorem State.setPc_n (s : State) (a : PAddr) : (s.setPc a).n = s.n := rfl
@[simp] theorem State.setLink_n (s : State) (a : PAddr) : (s.setLink a).n = s.n := rfl
@[simp] theorem State.setHsSlot_n (s : State) (i : BitVec 6) (v : HsSlot) : (s.setHsSlot i v).n = s.n := rfl
@[simp] theorem State.raiseSptr_n (s : State) (k : Nat) : (s.raiseSptr k).n = s.n := rfl
@[simp] theorem State.lowerSptr_n (s : State) (k : Nat) : (s.lowerSptr k).n = s.n := rfl
@[simp] theorem State.emit_n (s : State) (e : CoreEvent) : (s.emit e).n = s.n := rfl
@[simp] theorem State.beginInstr_n (s : State) : (s.beginInstr).n = s.n := rfl
@[simp] theorem State.sample_n (s : State) : (s.sample).n = s.n := rfl

/-! ### `bankSel` -/

@[simp] theorem State.setXb_bankSel (s : State) (b : BitVec 2) (g : Gpr) (v : Byte) : (s.setXb b g v).bankSel = s.bankSel := rfl
@[simp] theorem State.setX_bankSel (s : State) (g : Gpr) (v : Byte) : (s.setX g v).bankSel = s.bankSel := rfl
@[simp] theorem State.setIdx_bankSel (s : State) (b : IndexBank) : (s.setIdx b).bankSel = s.bankSel := by unfold State.setIdx; split <;> rfl
@[simp] theorem State.setIdReg_bankSel (s : State) (r : IdxReg) (a : DAddr) : (s.setIdReg r a).bankSel = s.bankSel := by cases r <;> first | rfl | simp [State.setIdReg]
@[simp] theorem State.advance_bankSel (s : State) (n : Nat) : (s.advance n).bankSel = s.bankSel := rfl
@[simp] theorem State.setPc_bankSel (s : State) (a : PAddr) : (s.setPc a).bankSel = s.bankSel := rfl
@[simp] theorem State.setLink_bankSel (s : State) (a : PAddr) : (s.setLink a).bankSel = s.bankSel := rfl
@[simp] theorem State.setHsSlot_bankSel (s : State) (i : BitVec 6) (v : HsSlot) : (s.setHsSlot i v).bankSel = s.bankSel := rfl
@[simp] theorem State.raiseSptr_bankSel (s : State) (k : Nat) : (s.raiseSptr k).bankSel = s.bankSel := rfl
@[simp] theorem State.lowerSptr_bankSel (s : State) (k : Nat) : (s.lowerSptr k).bankSel = s.bankSel := rfl
@[simp] theorem State.emit_bankSel (s : State) (e : CoreEvent) : (s.emit e).bankSel = s.bankSel := rfl
@[simp] theorem State.setFlags_bankSel (s : State) (c z v n : Bool) : (s.setFlags c z v n).bankSel = s.bankSel := rfl
@[simp] theorem State.beginInstr_bankSel (s : State) : (s.beginInstr).bankSel = s.bankSel := rfl
@[simp] theorem State.sample_bankSel (s : State) : (s.sample).bankSel = s.bankSel := rfl

/-! ### `idb` -/

@[simp] theorem State.setXb_idb (s : State) (b : BitVec 2) (g : Gpr) (v : Byte) : (s.setXb b g v).idb = s.idb := rfl
@[simp] theorem State.setX_idb (s : State) (g : Gpr) (v : Byte) : (s.setX g v).idb = s.idb := rfl
@[simp] theorem State.setIdx_idb (s : State) (b : IndexBank) : (s.setIdx b).idb = s.idb := by unfold State.setIdx; split <;> rfl
@[simp] theorem State.setIdReg_idb (s : State) (r : IdxReg) (a : DAddr) : (s.setIdReg r a).idb = s.idb := by cases r <;> first | rfl | simp [State.setIdReg]
@[simp] theorem State.advance_idb (s : State) (n : Nat) : (s.advance n).idb = s.idb := rfl
@[simp] theorem State.setPc_idb (s : State) (a : PAddr) : (s.setPc a).idb = s.idb := rfl
@[simp] theorem State.setLink_idb (s : State) (a : PAddr) : (s.setLink a).idb = s.idb := rfl
@[simp] theorem State.setHsSlot_idb (s : State) (i : BitVec 6) (v : HsSlot) : (s.setHsSlot i v).idb = s.idb := rfl
@[simp] theorem State.raiseSptr_idb (s : State) (k : Nat) : (s.raiseSptr k).idb = s.idb := rfl
@[simp] theorem State.lowerSptr_idb (s : State) (k : Nat) : (s.lowerSptr k).idb = s.idb := rfl
@[simp] theorem State.emit_idb (s : State) (e : CoreEvent) : (s.emit e).idb = s.idb := rfl
@[simp] theorem State.setFlags_idb (s : State) (c z v n : Bool) : (s.setFlags c z v n).idb = s.idb := rfl
@[simp] theorem State.beginInstr_idb (s : State) : (s.beginInstr).idb = s.idb := rfl
@[simp] theorem State.sample_idb (s : State) : (s.sample).idb = s.idb := rfl

/-! ### `eid` -/

@[simp] theorem State.setXb_eid (s : State) (b : BitVec 2) (g : Gpr) (v : Byte) : (s.setXb b g v).eid = s.eid := rfl
@[simp] theorem State.setX_eid (s : State) (g : Gpr) (v : Byte) : (s.setX g v).eid = s.eid := rfl
@[simp] theorem State.setIdx_eid (s : State) (b : IndexBank) : (s.setIdx b).eid = s.eid := by unfold State.setIdx; split <;> rfl
@[simp] theorem State.setIdReg_eid (s : State) (r : IdxReg) (a : DAddr) : (s.setIdReg r a).eid = s.eid := by cases r <;> first | rfl | simp [State.setIdReg]
@[simp] theorem State.advance_eid (s : State) (n : Nat) : (s.advance n).eid = s.eid := rfl
@[simp] theorem State.setPc_eid (s : State) (a : PAddr) : (s.setPc a).eid = s.eid := rfl
@[simp] theorem State.setLink_eid (s : State) (a : PAddr) : (s.setLink a).eid = s.eid := rfl
@[simp] theorem State.setHsSlot_eid (s : State) (i : BitVec 6) (v : HsSlot) : (s.setHsSlot i v).eid = s.eid := rfl
@[simp] theorem State.raiseSptr_eid (s : State) (k : Nat) : (s.raiseSptr k).eid = s.eid := rfl
@[simp] theorem State.lowerSptr_eid (s : State) (k : Nat) : (s.lowerSptr k).eid = s.eid := rfl
@[simp] theorem State.emit_eid (s : State) (e : CoreEvent) : (s.emit e).eid = s.eid := rfl
@[simp] theorem State.setFlags_eid (s : State) (c z v n : Bool) : (s.setFlags c z v n).eid = s.eid := rfl
@[simp] theorem State.beginInstr_eid (s : State) : (s.beginInstr).eid = s.eid := rfl
@[simp] theorem State.sample_eid (s : State) : (s.sample).eid = s.eid := rfl

/-! ### `ie` -/

@[simp] theorem State.setXb_ie (s : State) (b : BitVec 2) (g : Gpr) (v : Byte) : (s.setXb b g v).ie = s.ie := rfl
@[simp] theorem State.setX_ie (s : State) (g : Gpr) (v : Byte) : (s.setX g v).ie = s.ie := rfl
@[simp] theorem State.setIdx_ie (s : State) (b : IndexBank) : (s.setIdx b).ie = s.ie := by unfold State.setIdx; split <;> rfl
@[simp] theorem State.setIdReg_ie (s : State) (r : IdxReg) (a : DAddr) : (s.setIdReg r a).ie = s.ie := by cases r <;> first | rfl | simp [State.setIdReg]
@[simp] theorem State.advance_ie (s : State) (n : Nat) : (s.advance n).ie = s.ie := rfl
@[simp] theorem State.setPc_ie (s : State) (a : PAddr) : (s.setPc a).ie = s.ie := rfl
@[simp] theorem State.setLink_ie (s : State) (a : PAddr) : (s.setLink a).ie = s.ie := rfl
@[simp] theorem State.setHsSlot_ie (s : State) (i : BitVec 6) (v : HsSlot) : (s.setHsSlot i v).ie = s.ie := rfl
@[simp] theorem State.raiseSptr_ie (s : State) (k : Nat) : (s.raiseSptr k).ie = s.ie := rfl
@[simp] theorem State.lowerSptr_ie (s : State) (k : Nat) : (s.lowerSptr k).ie = s.ie := rfl
@[simp] theorem State.emit_ie (s : State) (e : CoreEvent) : (s.emit e).ie = s.ie := rfl
@[simp] theorem State.setFlags_ie (s : State) (c z v n : Bool) : (s.setFlags c z v n).ie = s.ie := rfl
@[simp] theorem State.beginInstr_ie (s : State) : (s.beginInstr).ie = s.ie := rfl
@[simp] theorem State.sample_ie (s : State) : (s.sample).ie = s.ie := rfl

/-! ### `idx` -/

@[simp] theorem State.setXb_idx (s : State) (b : BitVec 2) (g : Gpr) (v : Byte) : (s.setXb b g v).idx = s.idx := rfl
@[simp] theorem State.setX_idx (s : State) (g : Gpr) (v : Byte) : (s.setX g v).idx = s.idx := rfl
@[simp] theorem State.advance_idx (s : State) (n : Nat) : (s.advance n).idx = s.idx := rfl
@[simp] theorem State.setPc_idx (s : State) (a : PAddr) : (s.setPc a).idx = s.idx := rfl
@[simp] theorem State.setLink_idx (s : State) (a : PAddr) : (s.setLink a).idx = s.idx := rfl
@[simp] theorem State.setHsSlot_idx (s : State) (i : BitVec 6) (v : HsSlot) : (s.setHsSlot i v).idx = s.idx := rfl
@[simp] theorem State.raiseSptr_idx (s : State) (k : Nat) : (s.raiseSptr k).idx = s.idx := rfl
@[simp] theorem State.lowerSptr_idx (s : State) (k : Nat) : (s.lowerSptr k).idx = s.idx := rfl
@[simp] theorem State.emit_idx (s : State) (e : CoreEvent) : (s.emit e).idx = s.idx := rfl
@[simp] theorem State.setFlags_idx (s : State) (c z v n : Bool) : (s.setFlags c z v n).idx = s.idx := rfl
@[simp] theorem State.beginInstr_idx (s : State) : (s.beginInstr).idx = s.idx := rfl
@[simp] theorem State.sample_idx (s : State) : (s.sample).idx = s.idx := rfl

/-! ### `il` -/

@[simp] theorem State.setIe_il (s : State) (v : Bool) : (s.setIe v).il = s.il := rfl
@[simp] theorem State.setBankSel_il (s : State) (b : BitVec 2) : (s.setBankSel b).il = s.il := rfl
@[simp] theorem State.setXb_il (s : State) (b : BitVec 2) (g : Gpr) (v : Byte) : (s.setXb b g v).il = s.il := rfl
@[simp] theorem State.setX_il (s : State) (g : Gpr) (v : Byte) : (s.setX g v).il = s.il := rfl
@[simp] theorem State.setIdx_il (s : State) (b : IndexBank) : (s.setIdx b).il = s.il := by unfold State.setIdx; split <;> rfl
@[simp] theorem State.setIdReg_il (s : State) (r : IdxReg) (a : DAddr) : (s.setIdReg r a).il = s.il := by cases r <;> first | rfl | simp [State.setIdReg]
@[simp] theorem State.advance_il (s : State) (n : Nat) : (s.advance n).il = s.il := rfl
@[simp] theorem State.setPc_il (s : State) (a : PAddr) : (s.setPc a).il = s.il := rfl
@[simp] theorem State.setHsSlot_il (s : State) (i : BitVec 6) (v : HsSlot) : (s.setHsSlot i v).il = s.il := rfl
@[simp] theorem State.raiseSptr_il (s : State) (k : Nat) : (s.raiseSptr k).il = s.il := rfl
@[simp] theorem State.lowerSptr_il (s : State) (k : Nat) : (s.lowerSptr k).il = s.il := rfl
@[simp] theorem State.emit_il (s : State) (e : CoreEvent) : (s.emit e).il = s.il := rfl
@[simp] theorem State.setFlags_il (s : State) (c z v n : Bool) : (s.setFlags c z v n).il = s.il := rfl
@[simp] theorem State.beginInstr_il (s : State) : (s.beginInstr).il = s.il := rfl
@[simp] theorem State.sample_il (s : State) : (s.sample).il = s.il := rfl

/-! ### What the updates write -/

theorem State.setX_xb (s : State) (g g' : Gpr) (v : Byte) (k : BitVec 2) :
    (s.setX g v).xb k g' = if k = s.bankSel ∧ g' = g then v else s.xb k g' := s.xb_setXb s.bankSel k g g' v

@[simp] theorem State.setX_xb_same (s : State) (g : Gpr) (v : Byte) : (s.setX g v).xb s.bankSel g = v := by
  simp [State.setX_xb]

/-- The bank `SR0[2]` selects is written, the other is not. -/
theorem State.setIdx_idxBank (s : State) (b : IndexBank) (k : Bool) :
    (s.setIdx b).idxBank k = if k = s.idb then b else s.idxBank k := by
  unfold State.setIdx State.idxBank
  cases s.idb <;> cases k <;> simp

/-- The selected bank by its number. -/
theorem State.idx_eq (s : State) : s.idx = s.idxBank s.idb := rfl

end Sys2Proof.Machine
end

