-- ==== Sys2Proof/Laws/Frames.lean ====
section
/-! SUPPORT. Frames: how claims that nothing else changed are put together, and one frame for every named update and
shared operation. -/

-- One theorem at a time: the package is compiled as one text under a memory limit.
set_option Elab.async false

namespace Sys2Proof.Machine

/-- A part that two steps leave alone is the same after both. -/
theorem Part.same_trans {s t u : State} {p : Part} (h : p.same s t) (h' : p.same t u) : p.same s u := by
  cases p <;> simp_all [Part.same]

/-- A state changes nothing of itself. -/
theorem onlyChanges_refl (w : List Part) (s : State) : OnlyChanges w s s := by
  intro p _
  cases p <;> simp [Part.same]

/-- What two steps change is what either changes. -/
theorem OnlyChanges.trans {v w : List Part} {s t u : State} (h : OnlyChanges v s t) (h' : OnlyChanges w t u) :
    OnlyChanges (v ++ w) s u := by
  intro p hp
  rw [List.mem_append, not_or] at hp
  exact Part.same_trans (h p hp.1) (h' p hp.2)

/-- A frame may be named more widely. -/
theorem OnlyChanges.mono {v w : List Part} {s t : State} (h : OnlyChanges v s t) (hw : ∀ p ∈ v, p ∈ w) :
    OnlyChanges w s t := fun p hp => h p fun hv => hp (hw p hv)

/-- A write of ID0 or ID1 changes IDH and its own IDL of the selected bank. -/
theorem setIdReg_onlyChanges (s : State) (r : IdxReg) (a : DAddr) :
    OnlyChanges (match r with | .id0 => [.idh s.idb, .idl0 s.idb] | .id1 => [.idh s.idb, .idl1 s.idb]) s
      (s.setIdReg r a) := by
  intro p hp
  cases r <;> cases p <;> simp [Part.same, State.setIdReg, State.setIdx_idxBank, State.idx_eq] at hp ⊢
  all_goals
    rename_i k
    by_cases hk : k = s.idb <;> simp_all

/-- The index update changes what `idmParts` lists. -/
theorem idmUpdate_onlyChanges (s : State) (m : Idm) (disp : DAddr) :
    OnlyChanges (idmParts s.idb m) s (s.idmUpdate m disp) := by
  unfold State.idmUpdate idmParts
  cases m.mode
  · exact setIdReg_onlyChanges s _ _
  · exact setIdReg_onlyChanges s _ _
  · exact onlyChanges_refl _ _
  · exact onlyChanges_refl _ _

/-- The general registers, SR0, SR1 and PC are not the index update's. -/
theorem idmUpdate_keeps (s : State) (m : Idm) (disp : DAddr) :
    (s.idmUpdate m disp).gpr = s.gpr ∧ (s.idmUpdate m disp).sr0 = s.sr0 ∧ (s.idmUpdate m disp).sr1 = s.sr1 ∧
      (s.idmUpdate m disp).pc = s.pc := by
  rcases s.idmUpdate_spec m disp with h | h <;> simp [h]

/-- An effect's frame, with the index update that follows it. -/
theorem OnlyChanges.idmUpdate {w : List Part} {s t : State} (h : OnlyChanges w s t) (m : Idm) (disp : DAddr)
    (hb : t.idb = s.idb) : OnlyChanges (w ++ idmParts s.idb m) s (t.idmUpdate m disp) :=
  h.trans (hb ▸ idmUpdate_onlyChanges t m disp)

/-! ### The frame of each update -/

/-- PC alone. -/
theorem advance_onlyChanges (s : State) (n : Nat) : OnlyChanges [.pc] s (s.advance n) := by
  intro p hp
  cases p <;> simp [Part.same] at hp ⊢

theorem setPc_onlyChanges (s : State) (a : PAddr) : OnlyChanges [.pc] s (s.setPc a) := by
  intro p hp
  cases p <;> simp [Part.same] at hp ⊢

/-- One general register alone. -/
theorem setXb_onlyChanges (s : State) (b : BitVec 2) (g : Gpr) (v : Byte) :
    OnlyChanges [.gpr b g] s (s.setXb b g v) := by
  intro p hp
  cases p <;> simp [Part.same, State.xb_setXb] at hp ⊢
  exact fun h h' => absurd h' (hp h)

theorem setX_onlyChanges (s : State) (g : Gpr) (v : Byte) : OnlyChanges [.gpr s.bankSel g] s (s.setX g v) :=
  setXb_onlyChanges s s.bankSel g v

/-- The four flags alone; a flag that gets its old value is not changed. -/
theorem setFlags_onlyChanges (s : State) (c z v n : Bool) : OnlyChanges flagParts s (s.setFlags c z v n) := by
  intro p hp
  cases p <;> simp [Part.same, flagParts] at hp ⊢

theorem logicFlags_onlyChanges (s : State) (r : Byte) : OnlyChanges [.flagZ, .flagN] s (s.logicFlags r) := by
  intro p hp
  cases p <;> simp [Part.same, State.logicFlags] at hp ⊢

theorem shiftFlags_onlyChanges (s : State) (r : Byte) (c : Bool) :
    OnlyChanges [.flagC, .flagZ, .flagN] s (s.shiftFlags r c) := by
  intro p hp
  cases p <;> simp [Part.same, State.shiftFlags] at hp ⊢

theorem zFlag_onlyChanges (s : State) (z : Bool) : OnlyChanges [.flagZ] s (s.zFlag z) := by
  intro p hp
  cases p <;> simp [Part.same, State.zFlag] at hp ⊢

theorem clearC_onlyChanges (s : State) : OnlyChanges [.flagC] s s.clearC := by
  intro p hp
  cases p <;> simp [Part.same, State.clearC] at hp ⊢

/-- Bits of SR0 alone. -/
theorem setIe_onlyChanges (s : State) (v : Bool) : OnlyChanges [.sr0 1] s (s.setIe v) := by
  intro p hp
  cases p <;> simp [Part.same] at hp ⊢
  rename_i k
  exact (s.setIe_sr0_bit v k).trans (if_neg hp)

theorem setBankSel_onlyChanges (s : State) (b : BitVec 2) : OnlyChanges [.sr0 3, .sr0 4] s (s.setBankSel b) := by
  intro p hp
  cases p <;> simp [Part.same] at hp ⊢
  rename_i k
  exact (s.setBankSel_sr0_bit b k).trans ((if_neg hp.1).trans (if_neg hp.2))

/-- The link register alone. -/
theorem setLink_onlyChanges (s : State) (a : PAddr) : OnlyChanges [.ill, .ilh, .ilx] s (s.setLink a) := by
  intro p hp
  cases p <;> simp [Part.same] at hp ⊢

/-- One stack slot, or the stack pointer, alone. -/
theorem setHsSlot_onlyChanges (s : State) (i : BitVec 6) (v : HsSlot) : OnlyChanges [.slot i] s (s.setHsSlot i v) := by
  intro p hp
  cases p <;> simp [Part.same, State.hsSlot_setHsSlot] at hp ⊢
  exact fun h => absurd h hp

theorem raiseSptr_onlyChanges (s : State) (k : Nat) : OnlyChanges [.sptr] s (s.raiseSptr k) := by
  intro p hp
  cases p <;> simp [Part.same] at hp ⊢

theorem lowerSptr_onlyChanges (s : State) (k : Nat) : OnlyChanges [.sptr] s (s.lowerSptr k) := by
  intro p hp
  cases p <;> simp [Part.same] at hp ⊢

theorem emit_onlyChanges (s : State) (e : CoreEvent) : OnlyChanges [.events] s (s.emit e) := by
  intro p hp
  cases p <;> simp [Part.same] at hp ⊢

/-- The world's inputs and the step's number alone. -/
theorem sample_onlyChanges (s : State) : OnlyChanges [.inputs, .tick] s s.sample := by
  have hm : ∀ a, s.sample.dmMapped a = s.dmMapped a := fun _ => rfl
  intro p hp
  cases p <;> simp [Part.same] at hp ⊢
  rename_i a
  intro h
  simp [State.dmRead, h]

/-- One byte of data memory alone. -/
theorem dmStore_onlyChanges (s : State) (a : DAddr) (v : Byte) :
    OnlyChanges [.dm a] s { s with dm := memWrite s.dm a.toNat v } := by
  intro p hp
  cases p with
  | dm b =>
    have hb : b.toNat ≠ a.toNat := by simpa [BitVec.toNat_inj] using hp
    have hc : memRead (memWrite s.dm a.toNat v) b.toNat = memRead s.dm b.toNat := memRead_memWrite_ne s.dm v hb
    refine ⟨hc, rfl, ?_⟩
    intro _
    show (if s.dmMapped b then memRead (memWrite s.dm a.toNat v) b.toNat else _) = _
    rw [hc]
    rfl
  | sptr => exact ⟨rfl, rfl⟩
  | _ => rfl

/-- The selected index bank alone, of which `w` says what may change. -/
theorem setIdx_onlyChanges (s : State) (b : IndexBank) (w : List Part)
    (h0 : .idh s.idb ∈ w ∨ b.idh = s.idx.idh) (h1 : .idl0 s.idb ∈ w ∨ b.idl0 = s.idx.idl0)
    (h2 : .idl1 s.idb ∈ w ∨ b.idl1 = s.idx.idl1) : OnlyChanges w s (s.setIdx b) := by
  intro p hp
  cases p <;> simp [Part.same, State.setIdx_idxBank]
  all_goals
    rename_i k
    by_cases hk : k = s.idb <;> simp_all [State.idx_eq]

/-- A special purpose register alone. -/
theorem setSpr_onlyChanges (s : State) (r : Spr) (v : Byte) : OnlyChanges (sprParts s.idb r) s (s.setSpr r v) := by
  cases r
  case idl0 => exact setIdx_onlyChanges s _ _ (.inr rfl) (.inl (by simp [sprParts])) (.inr rfl)
  case idl1 => exact setIdx_onlyChanges s _ _ (.inr rfl) (.inr rfl) (.inl (by simp [sprParts]))
  case idh => exact setIdx_onlyChanges s _ _ (.inl (by simp [sprParts])) (.inr rfl) (.inr rfl)
  all_goals
    intro p hp
    cases p <;>
      first
      | rfl
      | exact ⟨rfl, rfl⟩
      | exact ⟨rfl, rfl, fun _ => rfl⟩
      | exact absurd (by simp [sprParts, sr0Parts, flagParts]) hp

/-- A special purpose register reads as written. -/
theorem State.setSpr_spr (s : State) (r : Spr) (v : Byte) : (s.setSpr r v).spr r = v := by
  cases r <;> simp [State.setSpr, State.spr]

end Sys2Proof.Machine
end

