-- ==== Sys2Proof/Laws/Exec.lean ====
section
/-! SUPPORT. What one instruction can change at most, said once for all instructions: `exec_onlyChanges`. -/

-- One theorem at a time: the package is compiled as one text under a memory limit.
set_option Elab.async false

namespace Sys2Proof.Machine

/-- The parts an instruction can change beside PC, its flags and its index register. -/
def ownParts (s : State) : Instr → List Part
  | .addImm d _ | .subImm d _ | .ldImm d _ | .andImm d _ | .orImm d _ | .xorImm d _ => [.gpr s.bankSel d]
  | .addIdm d _ | .subIdm d _ | .ldIdm d _ | .andIdm d _ | .orIdm d _ | .xorIdm d _ => [.gpr s.bankSel d]
  | .addAdr d _ | .subAdr d _ | .ldAdr d _ | .adcAdr d _ | .sbcAdr d _ | .andAdr d _ | .orAdr d _ | .xorAdr d _ =>
    [.gpr s.bankSel d]
  | .addReg d _ | .subReg d _ | .adcReg d _ | .sbcReg d _ | .orReg d _ | .xorReg d _ | .ldReg d _ => [.gpr s.bankSel d]
  | .andReg d _ => [.gpr s.bankSel d, .flagC]
  | .sla d | .sl d | .rlc d | .rl d | .sra d | .sr d | .rrc d | .rr d => [.gpr s.bankSel d]
  | .inc d | .incc d | .dec d | .decc d | .com d | .com2 d | .comc d => [.gpr s.bankSel d]
  | .ldGprSpr d _ | .ldFromTbl d | .ldFromTbh d => [.gpr s.bankSel d]
  | .stAdr adr _ => [.dm (s.directAddr adr)]
  | .stIdm m _ =>
    match idmDisplacement s.chip m with
    | some disp => [.dm (s.idmAddr m disp)]
    | none => []
  | .bits adr _ | .bitr adr _ | .bitc adr _ => [.gpr s.bankSel .r3, .dm (s.directAddr adr)]
  | .bms _ | .bmc _ => [.tf]
  | .ldSpr0Imm r _ => sprParts s.idb (spr0ToSpr r)
  | .ldSprGpr r _ => sprParts s.idb r
  | .swap d r => .gpr s.bankSel d :: sprParts s.idb r
  | .ldTbl _ => [.tbl]
  | .ldTbh _ => [.tbh]
  | .ldBank bankd d _ _ => [.gpr bankd d]
  | .pushSpr _ | .pushGpr _ => [.sfPending, .slot s.sptr, .sptr]
  | .popSpr r => .sptr :: sprParts s.idb r
  | .popGpr d => [.sptr, .gpr s.bankSel d]
  | .pop | .ret => [.sptr]
  | .iret => [.sptr, .sr0 1]
  | .ldc => [.tbh, .tbl]
  | .ldcInc => [.tbh, .tbl, .ill]
  | .brk => [.run]
  | .andSr0 _ | .orSr0 _ => sr0Parts
  | .bank _ => [.sr0 3, .sr0 4]
  | .lcall _ _ | .calls _ => .sfPending :: pushAddrParts s
  | .llnk _ _ | .lnks _ => [.ill, .ilh, .ilx]
  | .cldLoad d _ => [.events, .gpr s.bankSel d]
  | .cldStore _ _ | .cop _ => [.events]
  | .sys _ => [.events, .haltAfter]
  | .jnzd n _ => [.gpr 3#2 n, .delay]
  | .cpImm _ _ | .cpIdm _ _ | .cpAdr _ _ | .cpReg _ _ | .cpcAdr _ _ | .cpcReg _ _ | .tmImm _ _ | .bitt _ _ => []
  | .lret | .nop | .ljp _ _ | .jr _ _ => []

/-- The parts an instruction can change. -/
def execParts (s : State) (i : Instr) : List Part :=
  .pc :: (ownParts s i ++ flagsWritten i ++
    match i.idm? with
    | some m => idmParts s.idb m
    | none => [])

/-! ### The shared effects -/

theorem writeSum_onlyChanges (s : State) (d : Gpr) (o : Sum) :
    OnlyChanges (.gpr s.bankSel d :: (flagParts ++ [.pc])) s (s.writeSum d o) :=
  ((setX_onlyChanges s d o.r).trans (setFlags_onlyChanges _ _ _ _ _)).trans (advance_onlyChanges _ _)

theorem compareSum_onlyChanges (s : State) (o : Sum) : OnlyChanges (flagParts ++ [.pc]) s (s.compareSum o) :=
  (setFlags_onlyChanges s _ _ _ _).trans (advance_onlyChanges _ _)

theorem writeLogic_onlyChanges (s : State) (d : Gpr) (r : Byte) :
    OnlyChanges [.gpr s.bankSel d, .flagZ, .flagN, .pc] s (s.writeLogic d r) :=
  ((setX_onlyChanges s d r).trans (logicFlags_onlyChanges _ _)).trans (advance_onlyChanges _ _)

theorem writeShift_onlyChanges (s : State) (d : Gpr) (r : Byte) (c : Bool) :
    OnlyChanges [.gpr s.bankSel d, .flagC, .flagZ, .flagN, .pc] s (s.writeShift d r c) :=
  ((setX_onlyChanges s d r).trans (shiftFlags_onlyChanges _ _ _)).trans (advance_onlyChanges _ _)

theorem needRoom_onlyChanges {k : Nat} {s t : State} (h : needRoom k s = .next t) :
    OnlyChanges [.sfPending] s t ∧ t.sptr = s.sptr := by
  rcases needRoom_spec h with ⟨_, rfl⟩ | ⟨_, _, _, _, rfl⟩
  · exact ⟨(onlyChanges_refl _ _), rfl⟩
  · refine ⟨fun p hp => ?_, rfl⟩
    cases p <;> first | rfl | exact ⟨rfl, rfl⟩ | exact ⟨rfl, rfl, fun _ => rfl⟩ | exact absurd (List.mem_singleton.mpr rfl) hp

theorem pushByte_onlyChanges {v : Byte} {s t : State} (h : pushByte v s = .next t) :
    OnlyChanges [.sfPending, .slot s.sptr, .sptr] s t := by
  obtain ⟨u, hu, rfl⟩ := pushByte_spec h
  obtain ⟨h1, h2⟩ := needRoom_onlyChanges hu
  refine ((h1.trans (setHsSlot_onlyChanges _ _ _)).trans (raiseSptr_onlyChanges _ _)).mono ?_
  simp [h2]

theorem pushAddr_onlyChanges {a : PAddr} {s t : State} (h : pushAddr a s = .next t) :
    OnlyChanges (.sfPending :: pushAddrParts s) s t := by
  obtain ⟨u, hu, rfl⟩ := pushAddr_spec h
  obtain ⟨h1, h2⟩ := needRoom_onlyChanges hu
  refine (((h1.trans (setHsSlot_onlyChanges _ _ _)).trans (setHsSlot_onlyChanges _ _ _)).trans
    (raiseSptr_onlyChanges _ _)).mono ?_
  simp [pushAddrParts, h2]

theorem popByte_onlyChanges {p : Byte × State} {s : State} (h : popByte s = .next p) : OnlyChanges [.sptr] s p.2 :=
  (popByte_eq_next.mp h).2.2 ▸ lowerSptr_onlyChanges s 1

theorem popAddr_onlyChanges {s t : State} (h : popAddr s = .next t) : OnlyChanges [.sptr, .pc] s t := by
  obtain ⟨_, _, _, rfl⟩ := popAddr_eq_next.mp h
  exact (lowerSptr_onlyChanges s 2).trans (setPc_onlyChanges _ _)

theorem takeException_onlyChanges {v : PAddr} {s t : State} (h : takeException v s = .next t) :
    OnlyChanges ([.sfPending, .pc, .sr0 1] ++ pushAddrParts s) s t := by
  obtain ⟨u, hu, rfl⟩ := takeException_eq_next.mp h
  refine (((pushAddr_onlyChanges hu).trans (setIe_onlyChanges _ _)).trans (setPc_onlyChanges _ _)).mono ?_
  simp [pushAddrParts]

/-- The pending target, the pending halt, or the table registers, alone. -/
theorem setDelay_onlyChanges (s : State) (a : Option PAddr) : OnlyChanges [.delay] s { s with delay := a } := by
  intro p hp
  cases p <;> first | rfl | exact ⟨rfl, rfl⟩ | exact ⟨rfl, rfl, fun _ => rfl⟩ | exact absurd (List.mem_singleton.mpr rfl) hp

theorem setHaltAfter_onlyChanges (s : State) (m : Option HaltMode) :
    OnlyChanges [.haltAfter] s { s with haltAfter := m } := by
  intro p hp
  cases p <;> first | rfl | exact ⟨rfl, rfl⟩ | exact ⟨rfl, rfl, fun _ => rfl⟩ | exact absurd (List.mem_singleton.mpr rfl) hp

theorem loadTable_onlyChanges {s t : State} (h : loadTable s = .next t) : OnlyChanges [.tbh, .tbl] s t := by
  obtain ⟨w, _, ht⟩ := andThen_eq_next.mp h
  cases ht
  intro p hp
  cases p <;> first | rfl | exact ⟨rfl, rfl⟩ | exact ⟨rfl, rfl, fun _ => rfl⟩ | exact absurd (by simp) hp

theorem dmWrite_onlyChanges {a : DAddr} {v : Byte} {s t : State} (h : dmWrite a v s = .next t) :
    OnlyChanges [.dm a] s t := by
  obtain ⟨_, rfl⟩ := dmWrite_eq_next.mp h
  exact dmStore_onlyChanges s a v

theorem withIdm_onlyChanges {m : Idm} {f : Byte → State → State} {s t : State} {w : List Part}
    (h : withIdm m f s = .next t) (hf : ∀ b, OnlyChanges w s (f b s) ∧ (f b s).idb = s.idb) :
    OnlyChanges (w ++ idmParts s.idb m) s t := by
  obtain ⟨disp, _, rfl⟩ := withIdm_eq_next.mp h
  exact (hf _).1.idmUpdate m disp (hf _).2

theorem bitOp_onlyChanges {adr : Byte} {f : Byte → Byte} {s t : State} (h : bitOp adr f s = .next t) :
    OnlyChanges [.gpr s.bankSel .r3, .dm (s.directAddr adr), .flagZ, .pc] s t := by
  obtain ⟨u, hu, ht⟩ := andThen_eq_next.mp h
  cases ht
  have h1 : OnlyChanges [.gpr s.bankSel .r3, .dm (s.directAddr adr)] s u := by
    split at hu
    · exact (dmWrite_onlyChanges hu).mono (by simp)
    · cases hu
      exact (setX_onlyChanges _ _ _).mono (by simp)
  exact (h1.trans (zFlag_onlyChanges _ _)).trans (advance_onlyChanges _ _)

/-! ### All instructions -/

/-- The effects with a second operand, and that none of them switches the index bank. -/
theorem opWith_onlyChanges (s : State) (d : Gpr) (b : Byte) :
    (∀ f ∈ [addWith d, subWith d, adcWith d, sbcWith d],
      OnlyChanges (.gpr s.bankSel d :: (flagParts ++ [.pc])) s (f b s) ∧ (f b s).idb = s.idb) ∧
    (∀ f ∈ [cpWith d, cpcWith d], OnlyChanges (flagParts ++ [.pc]) s (f b s) ∧ (f b s).idb = s.idb) ∧
    ∀ f ∈ [andWith d, orWith d, xorWith d, loadWith d],
      OnlyChanges [.gpr s.bankSel d, .flagZ, .flagN, .pc] s (f b s) ∧ (f b s).idb = s.idb := by
  refine ⟨?_, ?_, ?_⟩ <;> intro f hf <;> simp only [List.mem_cons, List.not_mem_nil, or_false] at hf
  · rcases hf with rfl | rfl | rfl | rfl <;> exact ⟨writeSum_onlyChanges s d _, rfl⟩
  · rcases hf with rfl | rfl <;> exact ⟨compareSum_onlyChanges s _, rfl⟩
  · rcases hf with rfl | rfl | rfl | rfl <;> exact ⟨writeLogic_onlyChanges s d _, rfl⟩

/-- A frame within the listed parts; the membership is found by unfolding the lists. -/
theorem OnlyChanges.toExec {i : Instr} {v : List Part} {s t : State} (h : OnlyChanges v s t)
    (hv : ∀ p ∈ v, p ∈ execParts s i := by
      intro p
      simp [execParts, ownParts, flagsWritten, flagParts, Instr.idm?]
      try tauto) : OnlyChanges (execParts s i) s t := h.mono hv

/-- An instruction changes at most the parts listed for it. -/
theorem exec_onlyChanges {i : Instr} {s t : State} (h : exec i s = .next t) : OnlyChanges (execParts s i) s t := by
  have sums := fun d b => (opWith_onlyChanges s d b).1
  have cmps := fun d b => (opWith_onlyChanges s d b).2.1
  have bytes := fun d b => (opWith_onlyChanges s d b).2.2
  cases i
  case addImm d b | addAdr d b | addReg d b =>
    cases h
    exact (sums d _ (addWith d) (by simp)).1.toExec
  case addIdm d m =>
    exact OnlyChanges.toExec (withIdm_onlyChanges h fun b => sums d b (addWith d) (by simp))
  case subImm d b | subAdr d b | subReg d b =>
    cases h
    exact (sums d _ (subWith d) (by simp)).1.toExec
  case subIdm d m =>
    exact OnlyChanges.toExec (withIdm_onlyChanges h fun b => sums d b (subWith d) (by simp))
  case cpImm d b | cpAdr d b | cpReg d b =>
    cases h
    exact (cmps d _ (cpWith d) (by simp)).1.toExec
  case cpIdm d m =>
    exact OnlyChanges.toExec (withIdm_onlyChanges h fun b => cmps d b (cpWith d) (by simp))
  case andImm d b | andAdr d b =>
    cases h
    exact (bytes d _ (andWith d) (by simp)).1.toExec
  case andIdm d m =>
    exact OnlyChanges.toExec (withIdm_onlyChanges h fun b => bytes d b (andWith d) (by simp))
  case orImm d b | orAdr d b | orReg d b =>
    cases h
    exact (bytes d _ (orWith d) (by simp)).1.toExec
  case orIdm d m =>
    exact OnlyChanges.toExec (withIdm_onlyChanges h fun b => bytes d b (orWith d) (by simp))
  case xorImm d b | xorAdr d b | xorReg d b =>
    cases h
    exact (bytes d _ (xorWith d) (by simp)).1.toExec
  case xorIdm d m =>
    exact OnlyChanges.toExec (withIdm_onlyChanges h fun b => bytes d b (xorWith d) (by simp))
  case ldImm d b | ldAdr d b | ldReg d b =>
    cases h
    exact (bytes d _ (loadWith d) (by simp)).1.toExec
  case ldIdm d m =>
    exact OnlyChanges.toExec (withIdm_onlyChanges h fun b => bytes d b (loadWith d) (by simp))
  case adcAdr d b | adcReg d b =>
    cases h
    exact (sums d _ (adcWith d) (by simp)).1.toExec
  case sbcAdr d b | sbcReg d b =>
    cases h
    exact (sums d _ (sbcWith d) (by simp)).1.toExec
  case cpcAdr d b | cpcReg d b =>
    cases h
    exact (cmps d _ (cpcWith d) (by simp)).1.toExec
  case andReg d g =>
    cases h
    have hb := (bytes d (s.x g) (andWith d) (by simp)).1
    show OnlyChanges _ s (andRegWith d (s.x g) s)
    unfold andRegWith
    split
    · exact hb.toExec
    · exact (hb.trans (clearC_onlyChanges _)).toExec
  case inc d | incc d | dec d | decc d | com2 d | comc d =>
    cases h
    exact OnlyChanges.toExec (writeSum_onlyChanges s d _)
  case com d | ldGprSpr d r | ldFromTbl d | ldFromTbh d =>
    cases h
    exact OnlyChanges.toExec (writeLogic_onlyChanges s d _)
  case sl d | rlc d | rl d | sra d | sr d | rrc d | rr d =>
    cases h
    exact OnlyChanges.toExec (writeShift_onlyChanges s d _ _)
  case sla d =>
    cases h
    exact OnlyChanges.toExec (((setX_onlyChanges s d _).trans (setFlags_onlyChanges _ _ _ _ _)).trans (advance_onlyChanges _ _))
  case ldBank bankd d banks g =>
    cases h
    exact OnlyChanges.toExec (((setXb_onlyChanges s bankd d _).trans (logicFlags_onlyChanges _ _)).trans (advance_onlyChanges _ _))
  case tmImm d imm =>
    cases h
    exact OnlyChanges.toExec ((logicFlags_onlyChanges s _).trans (advance_onlyChanges _ _))
  case bitt adr bs =>
    cases h
    exact OnlyChanges.toExec ((zFlag_onlyChanges s _).trans (advance_onlyChanges _ _))
  case bits adr bs =>
    have h' : bitOp adr (fun m => m ||| bitMask bs) s = .next t := h
    exact (bitOp_onlyChanges h').toExec
  case bitr adr bs =>
    have h' : bitOp adr (fun m => m &&& ~~~(bitMask bs)) s = .next t := h
    exact (bitOp_onlyChanges h').toExec
  case bitc adr bs =>
    have h' : bitOp adr (fun m => m ^^^ bitMask bs) s = .next t := h
    exact (bitOp_onlyChanges h').toExec
  case stAdr adr d =>
    obtain ⟨u, hu, ht⟩ := andThen_eq_next.mp h
    cases ht
    exact OnlyChanges.toExec ((dmWrite_onlyChanges hu).trans (advance_onlyChanges _ _))
  case stIdm m d =>
    obtain ⟨u, hu, ht⟩ := andThen_eq_next.mp h
    cases ht
    obtain ⟨disp, hd, _, rfl⟩ := storeIdm_eq_next.mp hu
    refine (((dmStore_onlyChanges s _ _).idmUpdate m disp rfl).trans (advance_onlyChanges _ _)).mono ?_
    intro p
    simp [execParts, ownParts, flagsWritten, Instr.idm?, hd]
    tauto
  case ldSpr0Imm r imm =>
    cases h
    exact OnlyChanges.toExec ((setSpr_onlyChanges s _ _).trans (advance_onlyChanges _ _))
  case ldSprGpr r d =>
    cases h
    exact OnlyChanges.toExec ((setSpr_onlyChanges s _ _).trans (advance_onlyChanges _ _))
  case swap d r =>
    have h' : execSwap d r s = .next t := h
    unfold execSwap at h'
    split at h'
    · cases h'
    · rename_i hr
      cases h'
      have hb : (s.setSpr r (s.x d)).bankSel = s.bankSel := by
        cases r <;> first | exact absurd rfl hr | rfl | simp [State.setSpr]
      have hx : OnlyChanges [.gpr s.bankSel d] _ ((s.setSpr r (s.x d)).setX d (s.spr r)) :=
        hb ▸ setX_onlyChanges (s.setSpr r (s.x d)) d (s.spr r)
      exact OnlyChanges.toExec (((setSpr_onlyChanges s r _).trans hx).trans (advance_onlyChanges _ _))
  case pushGpr d =>
    obtain ⟨u, hu, ht⟩ := andThen_eq_next.mp h
    cases ht
    exact OnlyChanges.toExec ((pushByte_onlyChanges hu).trans (advance_onlyChanges _ _))
  case pushSpr r =>
    obtain ⟨u, hu, ht⟩ := andThen_eq_next.mp h
    cases ht
    exact OnlyChanges.toExec ((pushByte_onlyChanges hu).trans (advance_onlyChanges _ _))
  case popGpr d =>
    obtain ⟨⟨v, u⟩, hu, ht⟩ := andThen_eq_next.mp h
    cases ht
    obtain ⟨_, _, rfl⟩ := popByte_eq_next.mp hu
    exact OnlyChanges.toExec ((((lowerSptr_onlyChanges s 1).trans (setX_onlyChanges _ _ _)).trans (logicFlags_onlyChanges _ _)).trans (advance_onlyChanges _ _))
  case popSpr r =>
    obtain ⟨⟨v, u⟩, hu, ht⟩ := andThen_eq_next.mp h
    cases ht
    obtain ⟨_, _, rfl⟩ := popByte_eq_next.mp hu
    exact OnlyChanges.toExec (((lowerSptr_onlyChanges s 1).trans (setSpr_onlyChanges _ r _)).trans (advance_onlyChanges _ _))
  case pop =>
    obtain ⟨u, hu, ht⟩ := andThen_eq_next.mp h
    cases ht
    obtain ⟨_, rfl⟩ := dropSlots_eq_next.mp hu
    exact OnlyChanges.toExec ((lowerSptr_onlyChanges s 2).trans (advance_onlyChanges _ _))
  case ret => exact OnlyChanges.toExec (popAddr_onlyChanges h)
  case iret =>
    obtain ⟨u, hu, rfl⟩ := returnFromException_eq_next.mp h
    exact OnlyChanges.toExec ((popAddr_onlyChanges hu).trans (setIe_onlyChanges _ _))
  case calls imm =>
    obtain ⟨u, hu, ht⟩ := andThen_eq_next.mp h
    cases ht
    exact OnlyChanges.toExec ((pushAddr_onlyChanges hu).trans (setPc_onlyChanges _ _))
  case lcall cc imm =>
    have h' : execLcall cc imm s = .next t := h
    unfold execLcall at h'
    split at h'
    · obtain ⟨u, hu, ht⟩ := andThen_eq_next.mp h'
      cases ht
      exact OnlyChanges.toExec ((pushAddr_onlyChanges hu).trans (setPc_onlyChanges _ _))
    · cases h'
      exact OnlyChanges.toExec (advance_onlyChanges s 2)
  case lnks imm =>
    cases h
    exact OnlyChanges.toExec ((setLink_onlyChanges s _).trans (setPc_onlyChanges _ _))
  case llnk cc imm =>
    have h' : execLlnk cc imm s = .next t := h
    unfold execLlnk at h'
    split at h' <;> cases h'
    · exact OnlyChanges.toExec ((setLink_onlyChanges s _).trans (setPc_onlyChanges _ _))
    · exact OnlyChanges.toExec (advance_onlyChanges s 2)
  case ljp cc imm =>
    have h' : execLjp cc imm s = .next t := h
    unfold execLjp at h'
    split at h' <;> cases h'
    · exact OnlyChanges.toExec (setPc_onlyChanges s _)
    · exact OnlyChanges.toExec (advance_onlyChanges s 2)
  case jr cc imm =>
    have h' : execJr cc imm s = .next t := h
    unfold execJr at h'
    split at h' <;> cases h'
    · exact OnlyChanges.toExec (setPc_onlyChanges s _)
    · exact OnlyChanges.toExec (advance_onlyChanges s 1)
  case lret =>
    cases h
    exact OnlyChanges.toExec (setPc_onlyChanges s _)
  case nop =>
    cases h
    exact OnlyChanges.toExec (advance_onlyChanges s 1)
  case bank b =>
    cases h
    exact OnlyChanges.toExec ((setBankSel_onlyChanges s _).trans (advance_onlyChanges _ _))
  case cldLoad d imm =>
    cases h
    exact OnlyChanges.toExec ((((emit_onlyChanges s _).trans (setX_onlyChanges _ d _)).trans (logicFlags_onlyChanges _ _)).trans (advance_onlyChanges _ _))
  case cldStore imm d =>
    cases h
    exact OnlyChanges.toExec ((emit_onlyChanges s _).trans (advance_onlyChanges _ _))
  case cop imm =>
    cases h
    exact OnlyChanges.toExec ((emit_onlyChanges s _).trans (advance_onlyChanges _ _))
  case jnzd n imm =>
    have h' : execJnzd n imm s = .next t := h
    have hs : OnlyChanges [.gpr 3#2 n, .pc] s ((s.setXb 3#2 n (s.xb 3#2 n - 1#8)).setPc (seq s.pc 1)) :=
      (setXb_onlyChanges s _ _ _).trans (setPc_onlyChanges _ _)
    unfold execJnzd at h'
    dsimp only at h'
    split at h'
    · cases h'
      exact OnlyChanges.toExec (hs.trans (setDelay_onlyChanges _ _))
    · split at h' <;> cases h'
      exact OnlyChanges.toExec (hs.trans (setDelay_onlyChanges _ _))
  case sys imm =>
    have h' : execSys imm s = .next t := h
    have hs : OnlyChanges [.events, .pc] s ((s.emit (.sys imm)).advance 1) :=
      (emit_onlyChanges s _).trans (advance_onlyChanges _ _)
    unfold execSys at h'
    dsimp only at h'
    split at h' <;> cases h'
    · split
      · exact OnlyChanges.toExec (hs.trans (setHaltAfter_onlyChanges _ _))
      · exact OnlyChanges.toExec hs
    · exact OnlyChanges.toExec hs
  case ldc =>
    obtain ⟨u, hu, ht⟩ := andThen_eq_next.mp h
    cases ht
    exact OnlyChanges.toExec ((loadTable_onlyChanges hu).trans (advance_onlyChanges _ _))
  case ldcInc =>
    obtain ⟨u, hu, ht⟩ := andThen_eq_next.mp h
    cases ht
    exact OnlyChanges.toExec (((loadTable_onlyChanges hu).trans (show OnlyChanges [.ill] u _ from setSpr_onlyChanges u .ill _)).trans
      (advance_onlyChanges _ _))
  case andSr0 imm | orSr0 imm =>
    cases h
    exact OnlyChanges.toExec ((show OnlyChanges sr0Parts s _ from setSpr_onlyChanges s .sr0 _).trans (advance_onlyChanges _ _))
  case brk | bms sel | bmc sel | ldTbl d | ldTbh d =>
    cases h
    intro p hp
    cases p <;>
      first
      | rfl
      | exact ⟨rfl, rfl⟩
      | exact ⟨rfl, rfl, fun _ => rfl⟩
      | exact absurd (by simp [execParts, ownParts]) hp

end Sys2Proof.Machine
end

