-- ==== Sys2Proof/Laws/PerInstr.lean ====
section
/-! SUPPORT. Per instruction: its first word says its length (spec/30_encoding.md rules R90, R123), one lemma per
constructor. -/

-- One theorem at a time: the package is compiled as one text under a memory limit.
set_option Elab.async false

namespace Sys2Proof

/-- The first word the encoder writes is the first of two exactly for LCALL, LLNK and LJP, and the encoding has that many
words (rules R90, R123). -/
def Laws.EncodeLength.Statement (i : Instr) : Prop :=
  ∀ c : Chip, isFirstOfTwo (encodeFirst c i) = i.isLong ∧ (encode c i).length = if i.isLong then 2 else 1

theorem Laws.EncodeLength.addImm (d : Gpr) (imm : Byte) : Laws.EncodeLength.Statement (.addImm d imm) := fun _ =>
  ⟨isFirstOfTwo_of_group (by decide), rfl⟩

theorem Laws.EncodeLength.subImm (d : Gpr) (imm : Byte) : Laws.EncodeLength.Statement (.subImm d imm) := fun _ =>
  ⟨isFirstOfTwo_of_group (by decide), rfl⟩

theorem Laws.EncodeLength.cpImm (d : Gpr) (imm : Byte) : Laws.EncodeLength.Statement (.cpImm d imm) := fun _ =>
  ⟨isFirstOfTwo_of_group (by decide), rfl⟩

theorem Laws.EncodeLength.ldImm (d : Gpr) (imm : Byte) : Laws.EncodeLength.Statement (.ldImm d imm) := fun _ =>
  ⟨isFirstOfTwo_of_group (by decide), rfl⟩

theorem Laws.EncodeLength.tmImm (d : Gpr) (imm : Byte) : Laws.EncodeLength.Statement (.tmImm d imm) := fun _ =>
  ⟨isFirstOfTwo_of_group (by decide), rfl⟩

theorem Laws.EncodeLength.andImm (d : Gpr) (imm : Byte) : Laws.EncodeLength.Statement (.andImm d imm) := fun _ =>
  ⟨isFirstOfTwo_of_group (by decide), rfl⟩

theorem Laws.EncodeLength.orImm (d : Gpr) (imm : Byte) : Laws.EncodeLength.Statement (.orImm d imm) := fun _ =>
  ⟨isFirstOfTwo_of_group (by decide), rfl⟩

theorem Laws.EncodeLength.xorImm (d : Gpr) (imm : Byte) : Laws.EncodeLength.Statement (.xorImm d imm) := fun _ =>
  ⟨isFirstOfTwo_of_group (by decide), rfl⟩

theorem Laws.EncodeLength.addIdm (d : Gpr) (m : Idm) : Laws.EncodeLength.Statement (.addIdm d m) := fun _ =>
  ⟨isFirstOfTwo_of_group (by decide), rfl⟩

theorem Laws.EncodeLength.subIdm (d : Gpr) (m : Idm) : Laws.EncodeLength.Statement (.subIdm d m) := fun _ =>
  ⟨isFirstOfTwo_of_group (by decide), rfl⟩

theorem Laws.EncodeLength.cpIdm (d : Gpr) (m : Idm) : Laws.EncodeLength.Statement (.cpIdm d m) := fun _ =>
  ⟨isFirstOfTwo_of_group (by decide), rfl⟩

theorem Laws.EncodeLength.ldIdm (d : Gpr) (m : Idm) : Laws.EncodeLength.Statement (.ldIdm d m) := fun _ =>
  ⟨isFirstOfTwo_of_group (by decide), rfl⟩

theorem Laws.EncodeLength.stIdm (m : Idm) (d : Gpr) : Laws.EncodeLength.Statement (.stIdm m d) := fun _ =>
  ⟨isFirstOfTwo_of_group (by decide), rfl⟩

theorem Laws.EncodeLength.andIdm (d : Gpr) (m : Idm) : Laws.EncodeLength.Statement (.andIdm d m) := fun _ =>
  ⟨isFirstOfTwo_of_group (by decide), rfl⟩

theorem Laws.EncodeLength.orIdm (d : Gpr) (m : Idm) : Laws.EncodeLength.Statement (.orIdm d m) := fun _ =>
  ⟨isFirstOfTwo_of_group (by decide), rfl⟩

theorem Laws.EncodeLength.xorIdm (d : Gpr) (m : Idm) : Laws.EncodeLength.Statement (.xorIdm d m) := fun _ =>
  ⟨isFirstOfTwo_of_group (by decide), rfl⟩

theorem Laws.EncodeLength.addAdr (d : Gpr) (adr : Byte) : Laws.EncodeLength.Statement (.addAdr d adr) := fun _ =>
  ⟨isFirstOfTwo_of_group (by decide), rfl⟩

theorem Laws.EncodeLength.subAdr (d : Gpr) (adr : Byte) : Laws.EncodeLength.Statement (.subAdr d adr) := fun _ =>
  ⟨isFirstOfTwo_of_group (by decide), rfl⟩

theorem Laws.EncodeLength.cpAdr (d : Gpr) (adr : Byte) : Laws.EncodeLength.Statement (.cpAdr d adr) := fun _ =>
  ⟨isFirstOfTwo_of_group (by decide), rfl⟩

theorem Laws.EncodeLength.ldAdr (d : Gpr) (adr : Byte) : Laws.EncodeLength.Statement (.ldAdr d adr) := fun _ =>
  ⟨isFirstOfTwo_of_group (by decide), rfl⟩

theorem Laws.EncodeLength.bitt (adr : Byte) (bs : BitVec 3) : Laws.EncodeLength.Statement (.bitt adr bs) := fun _ =>
  ⟨(congrArg isFirstOfTwo (encBit_eq ..)).trans (isFirstOfTwo_of_group (by decide)), rfl⟩

theorem Laws.EncodeLength.bits (adr : Byte) (bs : BitVec 3) : Laws.EncodeLength.Statement (.bits adr bs) := fun _ =>
  ⟨(congrArg isFirstOfTwo (encBit_eq ..)).trans (isFirstOfTwo_of_group (by decide)), rfl⟩

theorem Laws.EncodeLength.adcAdr (d : Gpr) (adr : Byte) : Laws.EncodeLength.Statement (.adcAdr d adr) := fun _ =>
  ⟨isFirstOfTwo_of_group (by decide), rfl⟩

theorem Laws.EncodeLength.sbcAdr (d : Gpr) (adr : Byte) : Laws.EncodeLength.Statement (.sbcAdr d adr) := fun _ =>
  ⟨isFirstOfTwo_of_group (by decide), rfl⟩

theorem Laws.EncodeLength.cpcAdr (d : Gpr) (adr : Byte) : Laws.EncodeLength.Statement (.cpcAdr d adr) := fun _ =>
  ⟨isFirstOfTwo_of_group (by decide), rfl⟩

theorem Laws.EncodeLength.stAdr (adr : Byte) (d : Gpr) : Laws.EncodeLength.Statement (.stAdr adr d) := fun _ =>
  ⟨isFirstOfTwo_of_group (by decide), rfl⟩

theorem Laws.EncodeLength.bitr (adr : Byte) (bs : BitVec 3) : Laws.EncodeLength.Statement (.bitr adr bs) := fun _ =>
  ⟨(congrArg isFirstOfTwo (encBit_eq ..)).trans (isFirstOfTwo_of_group (by decide)), rfl⟩

theorem Laws.EncodeLength.bitc (adr : Byte) (bs : BitVec 3) : Laws.EncodeLength.Statement (.bitc adr bs) := fun _ =>
  ⟨(congrArg isFirstOfTwo (encBit_eq ..)).trans (isFirstOfTwo_of_group (by decide)), rfl⟩

theorem Laws.EncodeLength.ldSpr0Imm (r : Spr0) (imm : Byte) : Laws.EncodeLength.Statement (.ldSpr0Imm r imm) := fun _ =>
  ⟨(congrArg isFirstOfTwo (encTop6_eq ..)).trans (isFirstOfTwo_of_operation (by decide)), rfl⟩

theorem Laws.EncodeLength.andAdr (d : Gpr) (adr : Byte) : Laws.EncodeLength.Statement (.andAdr d adr) := fun _ =>
  ⟨isFirstOfTwo_of_operation (by decide), rfl⟩

theorem Laws.EncodeLength.orAdr (d : Gpr) (adr : Byte) : Laws.EncodeLength.Statement (.orAdr d adr) := fun _ =>
  ⟨isFirstOfTwo_of_operation (by decide), rfl⟩

theorem Laws.EncodeLength.xorAdr (d : Gpr) (adr : Byte) : Laws.EncodeLength.Statement (.xorAdr d adr) := fun _ =>
  ⟨isFirstOfTwo_of_operation (by decide), rfl⟩

theorem Laws.EncodeLength.addReg (d : Gpr) (g : Gpr) : Laws.EncodeLength.Statement (.addReg d g) := fun _ =>
  ⟨(congrArg isFirstOfTwo (encRR_eq ..)).trans
    (isFirstOfTwo_of_low (by rw [(lowRR_slices _ _).1]; decide)), rfl⟩

theorem Laws.EncodeLength.subReg (d : Gpr) (g : Gpr) : Laws.EncodeLength.Statement (.subReg d g) := fun _ =>
  ⟨(congrArg isFirstOfTwo (encRR_eq ..)).trans
    (isFirstOfTwo_of_low (by rw [(lowRR_slices _ _).1]; decide)), rfl⟩

theorem Laws.EncodeLength.cpReg (d : Gpr) (g : Gpr) : Laws.EncodeLength.Statement (.cpReg d g) := fun _ =>
  ⟨(congrArg isFirstOfTwo (encRR_eq ..)).trans
    (isFirstOfTwo_of_low (by rw [(lowRR_slices _ _).1]; decide)), rfl⟩

theorem Laws.EncodeLength.adcReg (d : Gpr) (g : Gpr) : Laws.EncodeLength.Statement (.adcReg d g) := fun _ =>
  ⟨(congrArg isFirstOfTwo (encRR_eq ..)).trans
    (isFirstOfTwo_of_low (by rw [(lowRR_slices _ _).1]; decide)), rfl⟩

theorem Laws.EncodeLength.sbcReg (d : Gpr) (g : Gpr) : Laws.EncodeLength.Statement (.sbcReg d g) := fun _ =>
  ⟨(congrArg isFirstOfTwo (encRR_eq ..)).trans
    (isFirstOfTwo_of_low (by rw [(lowRR_slices _ _).1]; decide)), rfl⟩

theorem Laws.EncodeLength.cpcReg (d : Gpr) (g : Gpr) : Laws.EncodeLength.Statement (.cpcReg d g) := fun _ =>
  ⟨(congrArg isFirstOfTwo (encRR_eq ..)).trans
    (isFirstOfTwo_of_low (by rw [(lowRR_slices _ _).1]; decide)), rfl⟩

theorem Laws.EncodeLength.andReg (d : Gpr) (g : Gpr) : Laws.EncodeLength.Statement (.andReg d g) := fun _ =>
  ⟨(congrArg isFirstOfTwo (encRR_eq ..)).trans
    (isFirstOfTwo_of_low (by rw [(lowRR_slices _ _).1]; decide)), rfl⟩

theorem Laws.EncodeLength.orReg (d : Gpr) (g : Gpr) : Laws.EncodeLength.Statement (.orReg d g) := fun _ =>
  ⟨(congrArg isFirstOfTwo (encRR_eq ..)).trans
    (isFirstOfTwo_of_low (by rw [(lowRR_slices _ _).1]; decide)), rfl⟩

theorem Laws.EncodeLength.xorReg (d : Gpr) (g : Gpr) : Laws.EncodeLength.Statement (.xorReg d g) := fun _ =>
  ⟨(congrArg isFirstOfTwo (encRR_eq ..)).trans
    (isFirstOfTwo_of_low (by rw [(lowRR_slices _ _).1]; decide)), rfl⟩

theorem Laws.EncodeLength.bms (sel : BitVec 4) : Laws.EncodeLength.Statement (.bms sel) := fun _ =>
  ⟨(congrArg isFirstOfTwo (encBm_eq ..)).trans
    (isFirstOfTwo_of_low (by rw [(lowRR_slices _ _).1]; decide)), rfl⟩

theorem Laws.EncodeLength.bmc (sel : BitVec 4) : Laws.EncodeLength.Statement (.bmc sel) := fun _ =>
  ⟨(congrArg isFirstOfTwo (encBm_eq ..)).trans
    (isFirstOfTwo_of_low (by rw [(lowRR_slices _ _).1]; decide)), rfl⟩

theorem Laws.EncodeLength.sla (d : Gpr) : Laws.EncodeLength.Statement (.sla d) := fun _ =>
  ⟨isFirstOfTwo_of_low (by decide), rfl⟩

theorem Laws.EncodeLength.sl (d : Gpr) : Laws.EncodeLength.Statement (.sl d) := fun _ =>
  ⟨isFirstOfTwo_of_low (by decide), rfl⟩

theorem Laws.EncodeLength.rlc (d : Gpr) : Laws.EncodeLength.Statement (.rlc d) := fun _ =>
  ⟨isFirstOfTwo_of_low (by decide), rfl⟩

theorem Laws.EncodeLength.rl (d : Gpr) : Laws.EncodeLength.Statement (.rl d) := fun _ =>
  ⟨isFirstOfTwo_of_low (by decide), rfl⟩

theorem Laws.EncodeLength.sra (d : Gpr) : Laws.EncodeLength.Statement (.sra d) := fun _ =>
  ⟨isFirstOfTwo_of_low (by decide), rfl⟩

theorem Laws.EncodeLength.sr (d : Gpr) : Laws.EncodeLength.Statement (.sr d) := fun _ =>
  ⟨isFirstOfTwo_of_low (by decide), rfl⟩

theorem Laws.EncodeLength.rrc (d : Gpr) : Laws.EncodeLength.Statement (.rrc d) := fun _ =>
  ⟨isFirstOfTwo_of_low (by decide), rfl⟩

theorem Laws.EncodeLength.rr (d : Gpr) : Laws.EncodeLength.Statement (.rr d) := fun _ =>
  ⟨isFirstOfTwo_of_low (by decide), rfl⟩

theorem Laws.EncodeLength.inc (d : Gpr) : Laws.EncodeLength.Statement (.inc d) := fun _ =>
  ⟨isFirstOfTwo_of_low (by decide), rfl⟩

theorem Laws.EncodeLength.incc (d : Gpr) : Laws.EncodeLength.Statement (.incc d) := fun _ =>
  ⟨isFirstOfTwo_of_low (by decide), rfl⟩

theorem Laws.EncodeLength.dec (d : Gpr) : Laws.EncodeLength.Statement (.dec d) := fun _ =>
  ⟨isFirstOfTwo_of_low (by decide), rfl⟩

theorem Laws.EncodeLength.decc (d : Gpr) : Laws.EncodeLength.Statement (.decc d) := fun _ =>
  ⟨isFirstOfTwo_of_low (by decide), rfl⟩

theorem Laws.EncodeLength.com (d : Gpr) : Laws.EncodeLength.Statement (.com d) := fun _ =>
  ⟨isFirstOfTwo_of_low (by decide), rfl⟩

theorem Laws.EncodeLength.com2 (d : Gpr) : Laws.EncodeLength.Statement (.com2 d) := fun _ =>
  ⟨isFirstOfTwo_of_low (by decide), rfl⟩

theorem Laws.EncodeLength.comc (d : Gpr) : Laws.EncodeLength.Statement (.comc d) := fun _ =>
  ⟨isFirstOfTwo_of_low (by decide), rfl⟩

theorem Laws.EncodeLength.ldSprGpr (r : Spr) (d : Gpr) : Laws.EncodeLength.Statement (.ldSprGpr r d) := fun _ =>
  ⟨(congrArg isFirstOfTwo (encSpr_eq ..)).trans
    (isFirstOfTwo_of_low (by rw [(lowSpr_slices _ _).1]; decide)), rfl⟩

theorem Laws.EncodeLength.ldGprSpr (d : Gpr) (r : Spr) : Laws.EncodeLength.Statement (.ldGprSpr d r) := fun _ =>
  ⟨(congrArg isFirstOfTwo (encSpr_eq ..)).trans
    (isFirstOfTwo_of_low (by rw [(lowSpr_slices _ _).1]; decide)), rfl⟩

theorem Laws.EncodeLength.swap (d : Gpr) (r : Spr) : Laws.EncodeLength.Statement (.swap d r) := fun _ =>
  ⟨(congrArg isFirstOfTwo (encSpr_eq ..)).trans
    (isFirstOfTwo_of_low (by rw [(lowSpr_slices _ _).1]; decide)), rfl⟩

theorem Laws.EncodeLength.ldTbl (d : Gpr) : Laws.EncodeLength.Statement (.ldTbl d) := fun _ =>
  ⟨isFirstOfTwo_of_low (by decide), rfl⟩

theorem Laws.EncodeLength.ldTbh (d : Gpr) : Laws.EncodeLength.Statement (.ldTbh d) := fun _ =>
  ⟨isFirstOfTwo_of_low (by decide), rfl⟩

theorem Laws.EncodeLength.pushSpr (r : Spr) : Laws.EncodeLength.Statement (.pushSpr r) := fun _ =>
  ⟨(congrArg isFirstOfTwo (encSpr_eq ..)).trans
    (isFirstOfTwo_of_low (by rw [(lowSpr_slices _ _).1]; decide)), rfl⟩

theorem Laws.EncodeLength.popSpr (r : Spr) : Laws.EncodeLength.Statement (.popSpr r) := fun _ =>
  ⟨(congrArg isFirstOfTwo (encSpr_eq ..)).trans
    (isFirstOfTwo_of_low (by rw [(lowSpr_slices _ _).1]; decide)), rfl⟩

theorem Laws.EncodeLength.pushGpr (d : Gpr) : Laws.EncodeLength.Statement (.pushGpr d) := fun _ =>
  ⟨(congrArg isFirstOfTwo (encRR_eq ..)).trans
    (isFirstOfTwo_of_low (by rw [(lowRR_slices _ _).1]; decide)), rfl⟩

theorem Laws.EncodeLength.popGpr (d : Gpr) : Laws.EncodeLength.Statement (.popGpr d) := fun _ =>
  ⟨(congrArg isFirstOfTwo (encRR_eq ..)).trans
    (isFirstOfTwo_of_low (by rw [(lowRR_slices _ _).1]; decide)), rfl⟩

theorem Laws.EncodeLength.ldReg (d : Gpr) (g : Gpr) : Laws.EncodeLength.Statement (.ldReg d g) := fun _ =>
  ⟨(congrArg isFirstOfTwo (encRR_eq ..)).trans
    (isFirstOfTwo_of_low (by rw [(lowRR_slices _ _).1]; decide)), rfl⟩

theorem Laws.EncodeLength.ldFromTbl (d : Gpr) : Laws.EncodeLength.Statement (.ldFromTbl d) := fun _ =>
  ⟨isFirstOfTwo_of_low (by decide), rfl⟩

theorem Laws.EncodeLength.ldFromTbh (d : Gpr) : Laws.EncodeLength.Statement (.ldFromTbh d) := fun _ =>
  ⟨isFirstOfTwo_of_low (by decide), rfl⟩

theorem Laws.EncodeLength.pop : Laws.EncodeLength.Statement .pop := fun _ =>
  ⟨show isFirstOfTwo 0x802C#16 = false by decide, rfl⟩

theorem Laws.EncodeLength.ldc : Laws.EncodeLength.Statement .ldc := fun _ =>
  ⟨show isFirstOfTwo 0x882C#16 = false by decide, rfl⟩

theorem Laws.EncodeLength.ldcInc : Laws.EncodeLength.Statement .ldcInc := fun _ =>
  ⟨show isFirstOfTwo 0x882E#16 = false by decide, rfl⟩

theorem Laws.EncodeLength.lret : Laws.EncodeLength.Statement .lret := fun _ =>
  ⟨show isFirstOfTwo 0x8030#16 = false by decide, rfl⟩

theorem Laws.EncodeLength.ret : Laws.EncodeLength.Statement .ret := fun _ =>
  ⟨show isFirstOfTwo 0x8031#16 = false by decide, rfl⟩

theorem Laws.EncodeLength.iret : Laws.EncodeLength.Statement .iret := fun _ =>
  ⟨show isFirstOfTwo 0x8032#16 = false by decide, rfl⟩

theorem Laws.EncodeLength.nop : Laws.EncodeLength.Statement .nop := fun _ =>
  ⟨show isFirstOfTwo 0x8033#16 = false by decide, rfl⟩

theorem Laws.EncodeLength.brk : Laws.EncodeLength.Statement .brk := fun _ =>
  ⟨show isFirstOfTwo 0x8034#16 = false by decide, rfl⟩

theorem Laws.EncodeLength.ldBank (bankd : BitVec 2) (d : Gpr) (banks : BitVec 2) (g : Gpr) : Laws.EncodeLength.Statement (.ldBank bankd d banks g) := fun _ =>
  ⟨(congrArg isFirstOfTwo (encLdBank_eq ..)).trans
    (isFirstOfTwo_of_low (by rw [(lowBank_slices _ _).1]; decide)), rfl⟩

theorem Laws.EncodeLength.andSr0 (imm : Byte) : Laws.EncodeLength.Statement (.andSr0 imm) := fun _ =>
  ⟨(congrArg isFirstOfTwo (encSr0_eq ..)).trans
    (isFirstOfTwo_of_low (by rw [(lowSr0_slices _).1]; decide)), rfl⟩

theorem Laws.EncodeLength.orSr0 (imm : Byte) : Laws.EncodeLength.Statement (.orSr0 imm) := fun _ =>
  ⟨(congrArg isFirstOfTwo (encSr0_eq ..)).trans
    (isFirstOfTwo_of_low (by rw [(lowSr0_slices _).1]; decide)), rfl⟩

theorem Laws.EncodeLength.bank (imm : BitVec 2) : Laws.EncodeLength.Statement (.bank imm) := fun _ =>
  ⟨show isFirstOfTwo (0b100011#6 ++ 0#2 ++ 1#2 ++ 0#1 ++ imm ++ 0#3) = false by revert imm; decide, rfl⟩

theorem Laws.EncodeLength.lcall (cc : Cond) (imm : PAddr) : Laws.EncodeLength.Statement (.lcall cc imm) := fun _ =>
  ⟨isFirstOfTwo_encLong _ _ _ (by decide) (by decide), rfl⟩

theorem Laws.EncodeLength.llnk (cc : Cond) (imm : PAddr) : Laws.EncodeLength.Statement (.llnk cc imm) := fun _ =>
  ⟨isFirstOfTwo_encLong _ _ _ (by decide) (by decide), rfl⟩

theorem Laws.EncodeLength.ljp (cc : Cond) (imm : PAddr) : Laws.EncodeLength.Statement (.ljp cc imm) := fun _ =>
  ⟨isFirstOfTwo_encLong _ _ _ (by decide) (by decide), rfl⟩

theorem Laws.EncodeLength.jr (cc : Cond) (imm : BitVec 9) : Laws.EncodeLength.Statement (.jr cc imm) := fun _ =>
  ⟨(congrArg isFirstOfTwo (encJr_eq ..)).trans (isFirstOfTwo_of_group (by decide)), rfl⟩

theorem Laws.EncodeLength.calls (imm : BitVec 12) : Laws.EncodeLength.Statement (.calls imm) := fun _ =>
  ⟨(congrArg isFirstOfTwo (encImm12_eq ..)).trans (isFirstOfTwo_of_group (by decide)), rfl⟩

theorem Laws.EncodeLength.lnks (imm : BitVec 12) : Laws.EncodeLength.Statement (.lnks imm) := fun _ =>
  ⟨(congrArg isFirstOfTwo (encImm12_eq ..)).trans (isFirstOfTwo_of_group (by decide)), rfl⟩

theorem Laws.EncodeLength.cldLoad (d : Gpr) (imm : Byte) : Laws.EncodeLength.Statement (.cldLoad d imm) := fun _ =>
  ⟨isFirstOfTwo_of_group (by decide), rfl⟩

theorem Laws.EncodeLength.cldStore (imm : Byte) (d : Gpr) : Laws.EncodeLength.Statement (.cldStore imm d) := fun _ =>
  ⟨isFirstOfTwo_of_group (by decide), rfl⟩

theorem Laws.EncodeLength.jnzd (n : Gpr) (imm : Byte) : Laws.EncodeLength.Statement (.jnzd n imm) := fun _ =>
  ⟨isFirstOfTwo_of_group (by decide), rfl⟩

theorem Laws.EncodeLength.sys (imm : Byte) : Laws.EncodeLength.Statement (.sys imm) := fun _ =>
  ⟨(congrArg isFirstOfTwo (encTop6_eq ..)).trans (isFirstOfTwo_of_group (by decide)), rfl⟩

theorem Laws.EncodeLength.cop (imm : BitVec 12) : Laws.EncodeLength.Statement (.cop imm) := fun _ =>
  ⟨(congrArg isFirstOfTwo (encImm12_eq ..)).trans (isFirstOfTwo_of_group (by decide)), rfl⟩

end Sys2Proof
end

