-- ==== Sys2Proof/Tests/Slice0.lean ====
section
/-! SUPPORT. Tests: the smoke test of WellFormed, a word of every constructor written from its encoding, one step of every
instruction with the result the spec's examples and vectors give (spec/95_test_vectors.md), and for every statement with
hypotheses a case that meets them. -/

-- One theorem at a time: the package is compiled as one text under a memory limit.
set_option Elab.async false

namespace Sys2Proof.Tests

open Sys2Proof Sys2Proof.Machine

/-! ### Helpers -/

/-- A chip whose two free parameters have values: select fields 8 to 15 mean BMS, bankd is IR[5:4]. -/
def chip0 : Chip := { Config.chip with bmSelect := 0xFF00#16, bankFields := ⟨.ir54, false, false⟩ }

/-- Inputs all low. -/
def lowInputs : Inputs := { ec := 0#3, sf := false, irq0 := false, irq1 := false, copByte := 0#8, openBus := 0#8 }

/-- The reset state of that chip with inputs all low, and PC where the vectors of the spec put it. -/
def base : State := { State.reset with chip := chip0, pc := 0x00100#20, inputs := lowInputs }

/-- The same with R0 to R3 of bank 0. -/
def regs (a b c d : Byte) : State :=
  (((base.setXb 0#2 .r0 a).setXb 0#2 .r1 b).setXb 0#2 .r2 c).setXb 0#2 .r3 d

/-- The same with the index registers of bank 0 and SR0. -/
def indexed (s : State) (sr0 idh idl0 idl1 : Byte) : State :=
  { s with sr0 := sr0, idx0 := { idh := idh, idl0 := idl0, idl1 := idl1 } }

/-- `base` on a chip with a stack of 8 slots and the stack-full exception. -/
def trapping (sptr : BitVec 6) : State :=
  { base with sptr := sptr, chip := { chip0 with hsDepth := 8, stackFull := .trap (.fixed 0x00030#20) } }

/-- What `f` reads after one step with the words `w` at PC. -/
def after {α : Type} (s : State) (w : Nat) (f : State → α) : Option α :=
  match step (s.withFetchWord 32 w) with
  | .next t => some (f t)
  | .fault _ => none
  | .refused _ => none

/-- The fault of one step with the words `w` at PC. -/
def faults (s : State) (w : Nat) : Option Fault :=
  match step (s.withFetchWord 32 w) with
  | .next _ => none
  | .fault e => some e
  | .refused _ => none

/-- The refusal of one step with the words `w` at PC. -/
def refuses (s : State) (w : Nat) : Option Refusal :=
  match step (s.withFetchWord 32 w) with
  | .next _ => none
  | .fault _ => none
  | .refused r => some r

/-- The instruction a word decodes to. -/
def dec (w next : Word) : Option Instr :=
  match decode chip0 w next with
  | .ok i => some i
  | .error _ => none

/-- Why a word does not decode. -/
def rejects (w : Word) : Option DecodeError :=
  match decode chip0 w 0#16 with
  | .ok _ => none
  | .error e => some e

/-- Each word decodes to its instruction and is its encoding. -/
def codes (rows : List (Word × Instr)) : Bool :=
  rows.all fun p => decide (dec p.1 0#16 = some p.2) && decide (encodeFirst chip0 p.2 = p.1)

/-! ### WellFormed: every check refuses an ill-formed term -/

theorem test_wellFormed_bms : Instr.wellFormed chip0 (.bms 7#4) = false ∧ Instr.wellFormed chip0 (.bms 8#4) = true := by
  decide +kernel
theorem test_wellFormed_bmc : Instr.wellFormed chip0 (.bmc 8#4) = false ∧ Instr.wellFormed chip0 (.bmc 7#4) = true := by
  decide +kernel
theorem test_defined_swap :
    Instr.defined chip0 (.swap .r0 .sr0) = false ∧ Instr.defined chip0 (.swap .r0 .sr1) = false ∧
      Instr.defined chip0 (.swap .r0 .ilh) = true := by decide +kernel
theorem test_defined_idm :
    Instr.defined chip0 (.ldIdm .r0 ⟨.id0, .preDec, 0#5⟩) = false ∧
      Instr.defined chip0 (.stIdm ⟨.id1, .minus, 0#5⟩ .r0) = false ∧
      Instr.defined chip0 (.ldIdm .r0 ⟨.id0, .postInc, 0#5⟩) = true := by decide +kernel
theorem test_defined_jnzd :
    Instr.defined chip0 (.jnzd .r0 0#8) = false ∧ Instr.defined chip0 (.jnzd .r0 1#8) = true := by decide +kernel
theorem test_defined_wellFormed : Instr.defined chip0 (.bms 0#4) = false := by decide +kernel

/-! ### Decode: the fields of every format put together as rules R92 to R117 print them -/

theorem test_decode_imm : codes [
    (0b000#3 ++ 0b000#3 ++ 0b00#2 ++ 0x34#8, .addImm .r0 0x34#8), (0b000#3 ++ 0b001#3 ++ 0b01#2 ++ 0xFF#8, .subImm .r1 0xFF#8),
    (0b000#3 ++ 0b010#3 ++ 0b10#2 ++ 0x80#8, .cpImm .r2 0x80#8), (0b000#3 ++ 0b011#3 ++ 0b11#2 ++ 0x7A#8, .ldImm .r3 0x7A#8),
    (0b000#3 ++ 0b100#3 ++ 0b00#2 ++ 0x22#8, .tmImm .r0 0x22#8), (0b000#3 ++ 0b101#3 ++ 0b01#2 ++ 0x40#8, .andImm .r1 0x40#8),
    (0b000#3 ++ 0b110#3 ++ 0b10#2 ++ 0x01#8, .orImm .r2 0x01#8), (0b000#3 ++ 0b111#3 ++ 0b11#2 ++ 0xAA#8, .xorImm .r3 0xAA#8)]
    = true := by decide +kernel
theorem test_decode_idm : codes [
    (0b001#3 ++ 0b000#3 ++ 0b00#2 ++ 0b0#1 ++ 0b00#2 ++ 0b00010#5, .addIdm .r0 ⟨.id0, .postInc, 2#5⟩),
    (0b001#3 ++ 0b001#3 ++ 0b01#2 ++ 0b0#1 ++ 0b01#2 ++ 0b11110#5, .subIdm .r1 ⟨.id0, .preDec, 30#5⟩),
    (0b001#3 ++ 0b010#3 ++ 0b10#2 ++ 0b1#1 ++ 0b10#2 ++ 0b00111#5, .cpIdm .r2 ⟨.id1, .plus, 7#5⟩),
    (0b001#3 ++ 0b011#3 ++ 0b11#2 ++ 0b1#1 ++ 0b11#2 ++ 0b11011#5, .ldIdm .r3 ⟨.id1, .minus, 27#5⟩),
    (0b001#3 ++ 0b100#3 ++ 0b00#2 ++ 0b0#1 ++ 0b10#2 ++ 0b00011#5, .stIdm ⟨.id0, .plus, 3#5⟩ .r0),
    (0b001#3 ++ 0b101#3 ++ 0b01#2 ++ 0b1#1 ++ 0b00#2 ++ 0b11111#5, .andIdm .r1 ⟨.id1, .postInc, 31#5⟩),
    (0b001#3 ++ 0b110#3 ++ 0b10#2 ++ 0b0#1 ++ 0b11#2 ++ 0b11111#5, .orIdm .r2 ⟨.id0, .minus, 31#5⟩),
    (0b001#3 ++ 0b111#3 ++ 0b11#2 ++ 0b1#1 ++ 0b01#2 ++ 0b00000#5, .xorIdm .r3 ⟨.id1, .preDec, 0#5⟩)] = true := by
  decide +kernel
theorem test_decode_adr : codes [
    (0b010#3 ++ 0b000#3 ++ 0b00#2 ++ 0x80#8, .addAdr .r0 0x80#8), (0b010#3 ++ 0b001#3 ++ 0b01#2 ++ 0x43#8, .subAdr .r1 0x43#8),
    (0b010#3 ++ 0b010#3 ++ 0b10#2 ++ 0x01#8, .cpAdr .r2 0x01#8), (0b010#3 ++ 0b011#3 ++ 0b11#2 ++ 0x7F#8, .ldAdr .r3 0x7F#8),
    (0b010#3 ++ 0b10#2 ++ 0b011#3 ++ 0x25#8, .bitt 0x25#8 3#3), (0b010#3 ++ 0b10#2 ++ 0b111#3 ++ 0x25#8, .bitt 0x25#8 7#3),
    (0b010#3 ++ 0b11#2 ++ 0b001#3 ++ 0x81#8, .bits 0x81#8 1#3), (0b010#3 ++ 0b11#2 ++ 0b110#3 ++ 0x81#8, .bits 0x81#8 6#3),
    (0b011#3 ++ 0b000#3 ++ 0b00#2 ++ 0x80#8, .adcAdr .r0 0x80#8), (0b011#3 ++ 0b001#3 ++ 0b01#2 ++ 0x80#8, .sbcAdr .r1 0x80#8),
    (0b011#3 ++ 0b010#3 ++ 0b10#2 ++ 0x80#8, .cpcAdr .r2 0x80#8), (0b011#3 ++ 0b011#3 ++ 0b11#2 ++ 0x7A#8, .stAdr 0x7A#8 .r3),
    (0b011#3 ++ 0b10#2 ++ 0b010#3 ++ 0x80#8, .bitr 0x80#8 2#3), (0b011#3 ++ 0b10#2 ++ 0b101#3 ++ 0x80#8, .bitr 0x80#8 5#3),
    (0b011#3 ++ 0b11#2 ++ 0b000#3 ++ 0x80#8, .bitc 0x80#8 0#3), (0b011#3 ++ 0b11#2 ++ 0b111#3 ++ 0x80#8, .bitc 0x80#8 7#3),
    (0b100#3 ++ 0b100#3 ++ 0b10#2 ++ 0x03#8, .ldSpr0Imm .idh 0x03#8), (0b100#3 ++ 0b101#3 ++ 0b01#2 ++ 0x7A#8, .andAdr .r1 0x7A#8),
    (0b100#3 ++ 0b110#3 ++ 0b10#2 ++ 0x80#8, .orAdr .r2 0x80#8), (0b100#3 ++ 0b111#3 ++ 0b11#2 ++ 0x43#8, .xorAdr .r3 0x43#8)]
    = true := by decide +kernel
theorem test_decode_rr : codes [
    (0b100#3 ++ 0b000#3 ++ 0b00#2 ++ 0b000000#6 ++ 0b01#2, .addReg .r0 .r1),
    (0b100#3 ++ 0b001#3 ++ 0b01#2 ++ 0b000000#6 ++ 0b10#2, .subReg .r1 .r2),
    (0b100#3 ++ 0b010#3 ++ 0b10#2 ++ 0b000000#6 ++ 0b11#2, .cpReg .r2 .r3),
    (0b100#3 ++ 0b000#3 ++ 0b11#2 ++ 0b000001#6 ++ 0b00#2, .adcReg .r3 .r0),
    (0b100#3 ++ 0b001#3 ++ 0b00#2 ++ 0b000001#6 ++ 0b11#2, .sbcReg .r0 .r3),
    (0b100#3 ++ 0b010#3 ++ 0b01#2 ++ 0b000001#6 ++ 0b00#2, .cpcReg .r1 .r0),
    (0b100#3 ++ 0b000#3 ++ 0b10#2 ++ 0b000011#6 ++ 0b01#2, .andReg .r2 .r1),
    (0b100#3 ++ 0b001#3 ++ 0b11#2 ++ 0b000011#6 ++ 0b10#2, .orReg .r3 .r2),
    (0b100#3 ++ 0b010#3 ++ 0b00#2 ++ 0b000011#6 ++ 0b01#2, .xorReg .r0 .r1),
    (0b100#3 ++ 0b010#3 ++ 0b01#2 ++ 0b001010#6 ++ 0b11#2, .ldReg .r1 .r3)] = true := by decide +kernel
theorem test_decode_one : codes [
    (0b100#3 ++ 0b000#3 ++ 0b01#2 ++ 0b00010#5 ++ 0b000#3, .sla .r1), (0b100#3 ++ 0b000#3 ++ 0b10#2 ++ 0b00010#5 ++ 0b001#3, .sl .r2),
    (0b100#3 ++ 0b000#3 ++ 0b11#2 ++ 0b00010#5 ++ 0b010#3, .rlc .r3), (0b100#3 ++ 0b000#3 ++ 0b00#2 ++ 0b00010#5 ++ 0b011#3, .rl .r0),
    (0b100#3 ++ 0b000#3 ++ 0b01#2 ++ 0b00010#5 ++ 0b100#3, .sra .r1), (0b100#3 ++ 0b000#3 ++ 0b10#2 ++ 0b00010#5 ++ 0b101#3, .sr .r2),
    (0b100#3 ++ 0b000#3 ++ 0b11#2 ++ 0b00010#5 ++ 0b110#3, .rrc .r3), (0b100#3 ++ 0b000#3 ++ 0b00#2 ++ 0b00010#5 ++ 0b111#3, .rr .r0),
    (0b100#3 ++ 0b001#3 ++ 0b01#2 ++ 0b00010#5 ++ 0b000#3, .inc .r1), (0b100#3 ++ 0b001#3 ++ 0b10#2 ++ 0b00010#5 ++ 0b001#3, .incc .r2),
    (0b100#3 ++ 0b001#3 ++ 0b11#2 ++ 0b00010#5 ++ 0b010#3, .dec .r3), (0b100#3 ++ 0b001#3 ++ 0b00#2 ++ 0b00010#5 ++ 0b011#3, .decc .r0),
    (0b100#3 ++ 0b001#3 ++ 0b01#2 ++ 0b00010#5 ++ 0b100#3, .com .r1), (0b100#3 ++ 0b001#3 ++ 0b10#2 ++ 0b00010#5 ++ 0b101#3, .com2 .r2),
    (0b100#3 ++ 0b001#3 ++ 0b11#2 ++ 0b00010#5 ++ 0b110#3, .comc .r3)] = true := by decide +kernel
theorem test_decode_moves : codes [
    (0b100#3 ++ 0b000#3 ++ 0b01#2 ++ 0b00011#5 ++ 0b100#3, .ldSprGpr .ilx .r1),
    (0b100#3 ++ 0b001#3 ++ 0b10#2 ++ 0b00011#5 ++ 0b111#3, .ldGprSpr .r2 .sr1),
    (0b100#3 ++ 0b010#3 ++ 0b11#2 ++ 0b00011#5 ++ 0b101#3, .swap .r3 .ilh),
    (0b100#3 ++ 0b011#3 ++ 0b01#2 ++ 0b00011#5 ++ 0b000#3, .ldTbl .r1), (0b100#3 ++ 0b011#3 ++ 0b10#2 ++ 0b00011#5 ++ 0b010#3, .ldTbh .r2),
    (0b100#3 ++ 0b000#3 ++ 0b00#2 ++ 0b00100#5 ++ 0b001#3, .pushSpr .idl1), (0b100#3 ++ 0b001#3 ++ 0b00#2 ++ 0b00100#5 ++ 0b110#3, .popSpr .ill),
    (0b100#3 ++ 0b000#3 ++ 0b10#2 ++ 0b001010#6 ++ 0b10#2, .pushGpr .r2), (0b100#3 ++ 0b001#3 ++ 0b01#2 ++ 0b001010#6 ++ 0b01#2, .popGpr .r1),
    (0b100#3 ++ 0b011#3 ++ 0b10#2 ++ 0b001010#6 ++ 0b00#2, .ldFromTbl .r2), (0b100#3 ++ 0b011#3 ++ 0b11#2 ++ 0b001010#6 ++ 0b10#2, .ldFromTbh .r3),
    (0b100#3 ++ 0b000#3 ++ 0b00#2 ++ 0b001011#6 ++ 0b00#2, .pop), (0b100#3 ++ 0b010#3 ++ 0b00#2 ++ 0b001011#6 ++ 0b00#2, .ldc),
    (0b100#3 ++ 0b010#3 ++ 0b00#2 ++ 0b001011#6 ++ 0b10#2, .ldcInc)] = true := by decide +kernel
theorem test_decode_mod : codes [
    (0b100#3 ++ 0b000#3 ++ 0b00#2 ++ 0b00110#5 ++ 0b000#3, .lret), (0b100#3 ++ 0b000#3 ++ 0b00#2 ++ 0b00110#5 ++ 0b001#3, .ret),
    (0b100#3 ++ 0b000#3 ++ 0b00#2 ++ 0b00110#5 ++ 0b010#3, .iret), (0b100#3 ++ 0b000#3 ++ 0b00#2 ++ 0b00110#5 ++ 0b011#3, .nop),
    (0b100#3 ++ 0b000#3 ++ 0b00#2 ++ 0b00110#5 ++ 0b100#3, .brk),
    (0b100#3 ++ 0b001#3 ++ 0b11#2 ++ 0b01#2 ++ 0b111110#6, .andSr0 0xFE#8), (0b100#3 ++ 0b010#3 ++ 0b11#2 ++ 0b01#2 ++ 0b000010#6, .orSr0 0xC2#8),
    (0b100#3 ++ 0b011#3 ++ 0b00#2 ++ 0b01#2 ++ 0b0#1 ++ 0b11#2 ++ 0b000#3, .bank 3#2)] = true := by decide +kernel
theorem test_decode_branch : codes [
    (0b101#3 ++ 0b1#1 ++ 0b0011#4 ++ 0xA9#8, .jr .z 0x1A9#9), (0b101#3 ++ 0b0#1 ++ 0b1111#4 ++ 0xFF#8, .jr .ec2 0x0FF#9),
    (0b110#3 ++ 0b0#1 ++ 0x107#12, .calls 0x107#12), (0b110#3 ++ 0b1#1 ++ 0xFFF#12, .lnks 0xFFF#12),
    (0b111#3 ++ 0b000#3 ++ 0b01#2 ++ 0x01#8, .cldLoad .r1 0x01#8), (0b111#3 ++ 0b001#3 ++ 0b10#2 ++ 0x02#8, .cldStore 0x02#8 .r2),
    (0b111#3 ++ 0b010#3 ++ 0b11#2 ++ 0xFE#8, .jnzd .r3 0xFE#8), (0b111#3 ++ 0b011#3 ++ 0b00#2 ++ 0x0A#8, .sys 0x0A#8),
    (0b111#3 ++ 0b1#1 ++ 0xD01#12, .cop 0xD01#12)] = true := by decide +kernel
theorem test_decode_long :
    dec (0b1000#4 ++ 0b0100#4 ++ 0b1101#4 ++ 0x1#4) 0x0107#16 = some (.lcall .nz 0x10107#20) ∧
    dec (0b1000#4 ++ 0b0010#4 ++ 0b1110#4 ++ 0xF#4) 0xFFFF#16 = some (.llnk .c 0xFFFFF#20) ∧
    dec (0b1000#4 ++ 0b0000#4 ++ 0b1111#4 ++ 0x2#4) 0xABCD#16 = some (.ljp .always 0x2ABCD#20) ∧
    encode chip0 (.lcall .nz 0x10107#20) = [0x84D1#16, 0x0107#16] ∧ encode chip0 (.nop) = [0x8033#16] := by decide +kernel
/-- BM_SELECT and BANKLD_FIELDS (rules R126, R127): the fields as they stand on the chip of these tests. -/
theorem test_decode_open : codes [
    (0b100#3 ++ 0b011#3 ++ 0b11#2 ++ 0b000000#6 ++ 0b11#2, .bms 15#4), (0b100#3 ++ 0b011#3 ++ 0b01#2 ++ 0b000000#6 ++ 0b11#2, .bmc 7#4),
    (0b100#3 ++ 0b000#3 ++ 0b10#2 ++ 0b01#2 ++ 0b01#2 ++ 0b11#2 ++ 0b00#2, .ldBank 1#2 .r2 3#2 .r0)] = true := by
  decide +kernel
/-- Bits printed "x" play no part (rule R121): the rows of section 2.11 of the vectors. -/
theorem test_decode_ignored :
    dec 0x8333#16 0#16 = some .nop ∧ dec 0x832C#16 0#16 = some .pop ∧ dec 0x882D#16 0#16 = some .ldc ∧
      dec 0x8B2F#16 0#16 = some .ldcInc ∧ dec 0x8D1D#16 0#16 = some (.ldTbl .r1) ∧ dec 0x8D1F#16 0#16 = some (.ldTbh .r1) ∧
      dec 0x8F6F#16 0#16 = some (.bank 1#2) ∧ dec 0xEFFF#16 0#16 = some (.sys 0xFF#8) := by decide +kernel
theorem test_decode_reserved :
    [0x8417#16, 0x8717#16, 0x8035#16, 0x8036#16, 0x8337#16].all (fun w => rejects w == some .reserved) = true := by
  decide +kernel
theorem test_decode_invalid :
    [0x8C04#16, 0x8008#16, 0x8C0C#16, 0x8810#16, 0x8820#16, 0x842C#16, 0x8430#16, 0x8038#16, 0x8080#16, 0x8FCF#16].all
      (fun w => rejects w == some .invalid) = true := by decide +kernel
theorem test_decode_differing : rejects 0x8029#16 = some .fieldsDiffer ∧ rejects 0x8428#16 = none := by decide +kernel
/-- The host's numbering: a two-word row given with no bits for its second word has that word 0. -/
theorem test_decodeTableWord :
    decodeTableWord 16 0x8033 = some .nop ∧ decodeTableWord 32 0x010784D1 = some (.lcall .nz 0x10107#20) ∧
      decodeTableWord 16 0x84D1 = some (.lcall .nz 0x10000#20) ∧ decodeTableWord 16 0x8417 = none := by decide +kernel


/-! ### ALU: sections 1.1, 1.5 to 1.7, 1.15 to 1.17, 1.24, 1.27, 1.29, 1.31, 2.1 to 2.3 of the vectors; SR1 holds C, Z, V, N in bits 0 to 3 -/

theorem test_addImm :
    after { regs 0x10#8 0x00#8 0#8 0#8 with sr1 := 0x00#8 } 0x007A (fun t => (t.x .r0, t.sr1)) = some (0x8A#8, 0x04#8) := by decide +kernel
theorem test_addReg :
    after { regs 0x80#8 0x80#8 0#8 0#8 with sr1 := 0x01#8 } 0x8001 (fun t => (t.x .r0, t.sr1)) = some (0x00#8, 0x0F#8) ∧
    after { regs 0x80#8 0xFF#8 0#8 0#8 with sr1 := 0x01#8 } 0x8001 (fun t => (t.x .r0, t.sr1)) = some (0x7F#8, 0x0D#8) := by decide +kernel
theorem test_addAdr :
    after { indexed (regs 0x10#8 0#8 0#8 0#8) 0x01#8 0x01#8 0#8 0#8 with dm := [(0x0180, 0x22#8)] } 0x4080 (fun t => (t.x .r0, t.sr1)) = some (0x32#8, 0#8) := by decide +kernel
theorem test_addIdm :
    after { indexed (regs 0#8 0#8 0#8 0#8) 0#8 0x02#8 0xFF#8 0#8 with dm := [(0x02FF, 0x01#8)] } 0x2002 (fun t => (t.x .r0, t.idReg .id0)) = some (0x01#8, 0x0301#16) := by decide +kernel
theorem test_addIdm_minus :
    after { indexed (regs 0#8 0#8 0#8 0#8) 0#8 0x02#8 0#8 0#8 with dm := [(0x01FE, 0x01#8)] } 0x20FE (fun t => (t.x .r0, t.idReg .id1)) = some (0x01#8, 0x0200#16) := by decide +kernel
theorem test_adcReg :
    after { regs 0xF0#8 0x0F#8 0#8 0#8 with sr1 := 0x01#8 } 0x8005 (fun t => (t.x .r0, t.sr1)) = some (0x00#8, 0x03#8) ∧
    after { regs 0x7F#8 0x00#8 0#8 0#8 with sr1 := 0x01#8 } 0x8005 (fun t => (t.x .r0, t.sr1)) = some (0x80#8, 0x04#8) := by decide +kernel
theorem test_adcAdr :
    after { { indexed (regs 0xF0#8 0#8 0#8 0#8) 0x01#8 0x02#8 0#8 0#8 with sr1 := 0x01#8 } with dm := [(0x0280, 0x02#8)] } 0x6080 (fun t => (t.x .r0, t.sr1)) = some (0xF3#8, 0x08#8) := by decide +kernel
theorem test_subImm :
    after { regs 0x00#8 0x14#8 0#8 0#8 with sr1 := 0x00#8 } 0x0516 (fun t => (t.x .r1, t.sr1)) = some (0xFE#8, 0x08#8) := by decide +kernel
theorem test_subReg :
    after { regs 0x80#8 0x01#8 0#8 0#8 with sr1 := 0x00#8 } 0x8401 (fun t => (t.x .r0, t.sr1)) = some (0x7F#8, 0x0D#8) ∧
    after { regs 0x7F#8 0xFF#8 0#8 0#8 with sr1 := 0x00#8 } 0x8401 (fun t => (t.x .r0, t.sr1)) = some (0x80#8, 0x04#8) := by decide +kernel
theorem test_subAdr :
    after { indexed (regs 0x52#8 0x14#8 0#8 0#8) 0x01#8 0x01#8 0x50#8 0#8 with dm := [(0x0143, 0x26#8)] } 0x4443 (fun t => (t.x .r0, t.sr1)) = some (0x2C#8, 0x01#8) := by decide +kernel
theorem test_subIdm :
    after { indexed (regs 0x52#8 0x14#8 0#8 0#8) 0x01#8 0x01#8 0x50#8 0#8 with dm := [(0x014E, 0x12#8)] } 0x243E (fun t => (t.x .r0, t.idReg .id0)) = some (0x40#8, 0x014E#16) := by decide +kernel
theorem test_sbcReg :
    after { regs 0x00#8 0x00#8 0#8 0#8 with sr1 := 0x00#8 } 0x8405 (fun t => (t.x .r0, t.sr1)) = some (0xFF#8, 0x08#8) ∧
    after { regs 0x00#8 0xFF#8 0#8 0#8 with sr1 := 0x01#8 } 0x8405 (fun t => (t.x .r0, t.sr1)) = some (0x01#8, 0x00#8) := by decide +kernel
theorem test_sbcAdr :
    after { indexed (regs 0x10#8 0#8 0#8 0#8) 0x01#8 0x02#8 0#8 0#8 with dm := [(0x0280, 0x02#8)] } 0x6480 (fun t => (t.x .r0, t.sr1)) = some (0x0D#8, 0x01#8) := by decide +kernel
theorem test_cpImm :
    after { regs 0x73#8 0xA5#8 0#8 0#8 with sr1 := 0x00#8 } 0x0873 (fun t => (t.x .r0, t.sr1)) = some (0x73#8, 0x03#8) := by decide +kernel
theorem test_cpReg :
    after { regs 0x73#8 0xA5#8 0#8 0#8 with sr1 := 0x00#8 } 0x8801 (fun t => (t.x .r0, t.sr1)) = some (0x73#8, 0x04#8) ∧
    after { regs 0x80#8 0x7F#8 0#8 0#8 with sr1 := 0x00#8 } 0x8801 (fun t => (t.x .r0, t.sr1)) = some (0x80#8, 0x0D#8) := by decide +kernel
theorem test_cpAdr :
    after { indexed (regs 0x10#8 0#8 0#8 0#8) 0x01#8 0x01#8 0#8 0#8 with dm := [(0x0180, 0x20#8)] } 0x4880 (fun t => (t.x .r0, t.sr1)) = some (0x10#8, 0x08#8) := by decide +kernel
theorem test_cpIdm :
    after { indexed (regs 0#8 0xA5#8 0#8 0#8) 0x01#8 0x01#8 0x23#8 0#8 with dm := [(0x011E, 0xA5#8)] } 0x293B (fun t => (t.x .r1, t.sr1, t.idReg .id0)) = some (0xA5#8, 0x03#8, 0x011E#16) := by decide +kernel
theorem test_cpcReg :
    after { regs 0x10#8 0x10#8 0#8 0#8 with sr1 := 0x00#8 } 0x8805 (fun t => (t.x .r0, t.sr1)) = some (0x10#8, 0x08#8) ∧
    after { regs 0x10#8 0x10#8 0#8 0#8 with sr1 := 0x01#8 } 0x8805 (fun t => (t.x .r0, t.sr1)) = some (0x10#8, 0x03#8) := by decide +kernel
theorem test_cpcAdr :
    after { indexed (regs 0x10#8 0#8 0#8 0#8) 0x01#8 0x01#8 0#8 0#8 with dm := [(0x0180, 0x10#8)] } 0x6880 (fun t => (t.x .r0, t.sr1)) = some (0x10#8, 0x08#8) := by decide +kernel
theorem test_andImm :
    after { regs 0xF0#8 0x00#8 0#8 0#8 with sr1 := 0x05#8 } 0x1480 (fun t => (t.x .r0, t.sr1)) = some (0x80#8, 0x0D#8) := by decide +kernel
theorem test_andAdr :
    after { indexed (regs 0xF3#8 0#8 0#8 0#8) 0x01#8 0x01#8 0xFF#8 0#8 with dm := [(0x017A, 0xFF#8)] } 0x947A (fun t => (t.x .r0, t.sr1)) = some (0xF3#8, 0x08#8) := by decide +kernel
/-- An unmapped address reads as the step's input (section 1.7: any value). -/
theorem test_andAdr_unmapped :
    after { regs 0xF3#8 0#8 0#8 0#8 with inputs := { lowInputs with openBus := 0x5A#8 }, dm := [(0x007A, 0xFF#8)] } 0x947A
      (fun t => t.x .r0) = some 0x52#8 := by decide +kernel
theorem test_andIdm :
    after { indexed (regs 0#8 0x6C#8 0#8 0#8) 0x01#8 0x01#8 0xFF#8 0#8 with dm := [(0x01FA, 0xFF#8)] } 0x353B (fun t => (t.x .r1, t.idReg .id0)) = some (0x6C#8, 0x01FA#16) := by decide +kernel
/-- Section 1.4, RCF: C is kept, or cleared under AND_RR_CLEARS. -/
theorem test_andReg :
    after { regs 0x5A#8 0#8 0#8 0#8 with sr1 := 0x01#8 } 0x800C (fun t => (t.x .r0, t.sr1)) = some (0x5A#8, 0x01#8) ∧
    after { regs 0x5A#8 0#8 0#8 0#8 with sr1 := 0x01#8, chip := { chip0 with logicC := .andRRClears } } 0x800C
      (fun t => (t.x .r0, t.sr1)) = some (0x5A#8, 0#8) := by decide +kernel
theorem test_orImm :
    after { regs 0x01#8 0x00#8 0#8 0#8 with sr1 := 0x05#8 } 0x1880 (fun t => (t.x .r0, t.sr1)) = some (0x81#8, 0x0D#8) := by decide +kernel
theorem test_orReg :
    after { regs 0x05#8 0x80#8 0#8 0#8 with sr1 := 0x00#8 } 0x850C (fun t => (t.x .r1, t.sr1)) = some (0x85#8, 0x08#8) := by decide +kernel
theorem test_orAdr :
    after { indexed (regs 0x05#8 0#8 0#8 0#8) 0x01#8 0x03#8 0x1E#8 0#8 with dm := [(0x0380, 0xF0#8)] } 0x9880 (fun t => (t.x .r0, t.sr1)) = some (0xF5#8, 0x08#8) := by decide +kernel
theorem test_orIdm :
    after { indexed (regs 0#8 0x80#8 0#8 0#8) 0x01#8 0x03#8 0x1E#8 0#8 with dm := [(0x031D, 0x01#8)] } 0x393F (fun t => (t.x .r1, t.idReg .id0)) = some (0x81#8, 0x031D#16) := by decide +kernel
theorem test_xorImm :
    after { regs 0xAA#8 0x00#8 0#8 0#8 with sr1 := 0x05#8 } 0x1C55 (fun t => (t.x .r0, t.sr1)) = some (0xFF#8, 0x0D#8) := by decide +kernel
theorem test_xorReg :
    after { regs 0x52#8 0x14#8 0#8 0#8 with sr1 := 0x00#8 } 0x880D (fun t => (t.x .r0, t.sr1)) = some (0x46#8, 0x00#8) := by decide +kernel
theorem test_xorAdr :
    after { indexed (regs 0x52#8 0x14#8 0#8 0#8) 0x01#8 0x80#8 0x80#8 0#8 with dm := [(0x8043, 0x26#8)] } 0x9C43 (fun t => (t.x .r0, t.sr1)) = some (0x74#8, 0#8) := by decide +kernel
theorem test_xorIdm :
    after { indexed (regs 0x52#8 0x14#8 0#8 0#8) 0x01#8 0x80#8 0x80#8 0#8 with dm := [(0x807B, 0x02#8)] } 0x3C7B (fun t => (t.x .r0, t.idReg .id0)) = some (0x50#8, 0x8080#16) := by decide +kernel
theorem test_inc :
    after { regs 0x7F#8 0x00#8 0#8 0#8 with sr1 := 0x01#8 } 0x8410 (fun t => (t.x .r0, t.sr1)) = some (0x80#8, 0x04#8) ∧
    after { regs 0xFF#8 0x00#8 0#8 0#8 with sr1 := 0x01#8 } 0x8410 (fun t => (t.x .r0, t.sr1)) = some (0x00#8, 0x03#8) := by decide +kernel
theorem test_incc :
    after { regs 0xFF#8 0x00#8 0#8 0#8 with sr1 := 0x01#8 } 0x8411 (fun t => (t.x .r0, t.sr1)) = some (0x00#8, 0x03#8) ∧
    after { regs 0x00#8 0x00#8 0#8 0#8 with sr1 := 0x00#8 } 0x8411 (fun t => (t.x .r0, t.sr1)) = some (0x00#8, 0x02#8) := by decide +kernel
theorem test_dec :
    after { regs 0x80#8 0x00#8 0#8 0#8 with sr1 := 0x00#8 } 0x8412 (fun t => (t.x .r0, t.sr1)) = some (0x7F#8, 0x0D#8) ∧
    after { regs 0x00#8 0x00#8 0#8 0#8 with sr1 := 0x00#8 } 0x8412 (fun t => (t.x .r0, t.sr1)) = some (0xFF#8, 0x08#8) := by decide +kernel
theorem test_decc :
    after { regs 0x00#8 0x00#8 0#8 0#8 with sr1 := 0x01#8 } 0x8413 (fun t => (t.x .r0, t.sr1)) = some (0x00#8, 0x03#8) ∧
    after { regs 0x80#8 0x00#8 0#8 0#8 with sr1 := 0x00#8 } 0x8413 (fun t => (t.x .r0, t.sr1)) = some (0x7F#8, 0x0D#8) := by decide +kernel
theorem test_com :
    after { regs 0x0F#8 0x00#8 0#8 0#8 with sr1 := 0x05#8 } 0x8414 (fun t => (t.x .r0, t.sr1)) = some (0xF0#8, 0x0D#8) := by decide +kernel
theorem test_com2 :
    after { regs 0x80#8 0x00#8 0#8 0#8 with sr1 := 0x00#8 } 0x8415 (fun t => (t.x .r0, t.sr1)) = some (0x80#8, 0x04#8) ∧
    after { regs 0x01#8 0x00#8 0#8 0#8 with sr1 := 0x00#8 } 0x8415 (fun t => (t.x .r0, t.sr1)) = some (0xFF#8, 0x08#8) := by decide +kernel
theorem test_comc :
    after { regs 0x00#8 0x00#8 0#8 0#8 with sr1 := 0x01#8 } 0x8416 (fun t => (t.x .r0, t.sr1)) = some (0x00#8, 0x03#8) ∧
    after { regs 0x7F#8 0x00#8 0#8 0#8 with sr1 := 0x01#8 } 0x8416 (fun t => (t.x .r0, t.sr1)) = some (0x81#8, 0x08#8) := by decide +kernel
theorem test_idm_minus_zero :
    refuses base 0x2C20 = some .idmMinusZero ∧
    refuses base 0x3060 = some .idmMinusZero := by decide +kernel

/-! ### Shift and rotate: sections 1.26, 1.28, 2.4 of the vectors -/

theorem test_sla :
    after { regs 0xAA#8 0x00#8 0#8 0#8 with sr1 := 0x00#8 } 0x8010 (fun t => (t.x .r0, t.sr1)) = some (0x54#8, 0x05#8) ∧
    after { regs 0x40#8 0x00#8 0#8 0#8 with sr1 := 0x00#8 } 0x8010 (fun t => (t.x .r0, t.sr1)) = some (0x80#8, 0x0C#8) := by decide +kernel
theorem test_sla_vXorMsb :
    after { regs 0xAA#8 0#8 0#8 0#8 with chip := { chip0 with slaN := .vXorMsb } } 0x8010 (fun t => (t.x .r0, t.sr1)) =
      some (0x54#8, 0x0D#8) := by decide +kernel
theorem test_sl :
    after { regs 0x80#8 0x00#8 0#8 0#8 with sr1 := 0x05#8 } 0x8011 (fun t => (t.x .r0, t.sr1)) = some (0x00#8, 0x07#8) ∧
    after { regs 0x4A#8 0x00#8 0#8 0#8 with sr1 := 0x00#8 } 0x8011 (fun t => (t.x .r0, t.sr1)) = some (0x94#8, 0x08#8) := by decide +kernel
theorem test_rlc :
    after { regs 0x80#8 0x00#8 0#8 0#8 with sr1 := 0x01#8 } 0x8012 (fun t => (t.x .r0, t.sr1)) = some (0x01#8, 0x01#8) ∧
    after { regs 0x7F#8 0x00#8 0#8 0#8 with sr1 := 0x00#8 } 0x8012 (fun t => (t.x .r0, t.sr1)) = some (0xFE#8, 0x08#8) := by decide +kernel
theorem test_rl :
    after { regs 0x80#8 0x00#8 0#8 0#8 with sr1 := 0x01#8 } 0x8013 (fun t => (t.x .r0, t.sr1)) = some (0x01#8, 0x01#8) ∧
    after { regs 0x4A#8 0x00#8 0#8 0#8 with sr1 := 0x00#8 } 0x8013 (fun t => (t.x .r0, t.sr1)) = some (0x94#8, 0x08#8) := by decide +kernel
theorem test_sra :
    after { regs 0xA5#8 0x00#8 0#8 0#8 with sr1 := 0x00#8 } 0x8014 (fun t => (t.x .r0, t.sr1)) = some (0xD2#8, 0x09#8) ∧
    after { regs 0x80#8 0x00#8 0#8 0#8 with sr1 := 0x01#8 } 0x8014 (fun t => (t.x .r0, t.sr1)) = some (0xC0#8, 0x08#8) := by decide +kernel
theorem test_sr :
    after { regs 0xA5#8 0x00#8 0#8 0#8 with sr1 := 0x00#8 } 0x8015 (fun t => (t.x .r0, t.sr1)) = some (0x52#8, 0x01#8) ∧
    after { regs 0x80#8 0x00#8 0#8 0#8 with sr1 := 0x05#8 } 0x8015 (fun t => (t.x .r0, t.sr1)) = some (0x40#8, 0x04#8) := by decide +kernel
theorem test_rrc :
    after { regs 0xA5#8 0x00#8 0#8 0#8 with sr1 := 0x00#8 } 0x8016 (fun t => (t.x .r0, t.sr1)) = some (0x52#8, 0x01#8) ∧
    after { regs 0x00#8 0x00#8 0#8 0#8 with sr1 := 0x01#8 } 0x8016 (fun t => (t.x .r0, t.sr1)) = some (0x80#8, 0x08#8) := by decide +kernel
theorem test_rr :
    after { regs 0xA5#8 0x00#8 0#8 0#8 with sr1 := 0x00#8 } 0x8017 (fun t => (t.x .r0, t.sr1)) = some (0xD2#8, 0x09#8) ∧
    after { regs 0x80#8 0x00#8 0#8 0#8 with sr1 := 0x01#8 } 0x8017 (fun t => (t.x .r0, t.sr1)) = some (0x40#8, 0x00#8) := by decide +kernel

/-! ### Loads and stores: sections 1.20 to 1.22, 2.5, 2.6 of the vectors -/

theorem test_ldImm :
    after { regs 0x55#8 0x00#8 0#8 0#8 with sr1 := 0x05#8 } 0x0C80 (fun t => (t.x .r0, t.sr1)) = some (0x80#8, 0x0D#8) := by decide +kernel
theorem test_ldAdr :
    after { indexed base 0x01#8 0x12#8 0#8 0#8 with dm := [(0x127F, 0x9C#8)] } 0x4C7F (fun t => (t.x .r0, t.sr1)) = some (0x9C#8, 0x08#8) := by decide +kernel
theorem test_ldIdm :
    after { indexed base 0#8 0x12#8 0x34#8 0x10#8 with dm := [(0x11F1, 0x77#8)] } 0x2CA1 (fun t => (t.x .r0, t.idReg .id0, t.idReg .id1)) = some (0x77#8, 0x1134#16, 0x11F1#16) := by decide +kernel
theorem test_ldIdm_wrap :
    after { indexed base 0#8 0xFF#8 0xFF#8 0x56#8 with dm := [(0xFFFF, 0x77#8)] } 0x2C01 (fun t => (t.x .r0, t.idReg .id0, t.idReg .id1)) = some (0x77#8, 0#16, 0x0056#16) := by decide +kernel
theorem test_stAdr :
    after (indexed (regs 0#8 0#8 0#8 0xA5#8) 0x01#8 0xFF#8 0#8 0#8) 0x6FFF (fun t => (t.dm, t.sr1)) =
      some ([(0xFFFF, 0xA5#8)], 0#8) := by decide +kernel
theorem test_stIdm :
    after (indexed (regs 0#8 0#8 0x11#8 0#8) 0#8 0x02#8 0#8 0xFF#8) 0x3281 (fun t => (t.dm, t.idReg .id1)) =
      some ([(0x02FF, 0x11#8)], 0x0300#16) := by decide +kernel
/-- The hole 0051h to 007Fh of rule R66, at its edges. -/
theorem test_store_unmapped :
    faults base 0x6C51 = some .dmUnmappedWrite ∧
    faults base 0x6C7F = some .dmUnmappedWrite ∧
    faults base 0x6C50 = none ∧
    faults base 0x6C80 = none := by decide +kernel
theorem test_ldSpr0Imm :
    after base 0x93FF (fun t => (t.sr0, t.sr1)) = some (0xFF#8, 0#8) ∧
    after (indexed base 0x04#8 0x12#8 0#8 0#8) 0x9234 (fun t => (t.idx0.idh, t.idx1.idh)) = some (0x12#8, 0x34#8) := by decide +kernel
theorem test_ldReg :
    after { regs 0x55#8 0x00#8 0#8 0#8 with sr1 := 0x0D#8 } 0x8829 (fun t => (t.x .r0, t.sr1)) = some (0x00#8, 0x07#8) := by decide +kernel
theorem test_ldGprSpr :
    after { base with sr1 := 0#8 } 0x841F (fun t => (t.x .r0, t.sr1)) = some (0#8, 0x02#8) ∧
    after { base with ilx := 0xAB#8 } 0x841C (fun t => (t.x .r0, t.sr1)) = some (0xAB#8, 0x08#8) := by decide +kernel
theorem test_ldSprGpr :
    after (regs 0#8 0xFF#8 0#8 0#8) 0x811F (fun t => t.sr1) = some 0xFF#8 ∧
    after (regs 0x19#8 0#8 0#8 0#8) 0x801B (fun t => t.sr0) = some 0x19#8 := by decide +kernel
theorem test_ldBank :
    after { base.setXb 3#2 .r2 0x80#8 with sr0 := 0x10#8 } 0x805E (fun t => (t.xb 1#2 .r0, t.sr0, t.sr1)) =
      some (0x80#8, 0x10#8, 0x08#8) ∧
    after { base.setXb 3#2 .r2 0x80#8 with chip := { chip0 with bankFields := ⟨.ir32, false, false⟩ } } 0x8076
      (fun t => (t.xb 1#2 .r0, t.sr1)) = some (0x80#8, 0x08#8) := by decide +kernel
/-- BANKLD_FIELDS has every order of the four bits IR[5:2] (rule R127, D9); bank 1 and bank 2 with `bankd` in IR[5] and
IR[3], `banks` reversed in IR[2] and IR[4]. -/
theorem test_bankFields :
    ([3, 2, 1, 0].permutations'.all fun l =>
      [BankPair.ir54, .ir53, .ir52, .ir43, .ir42, .ir32].any fun p => [true, false].any fun r => [true, false].any fun r' =>
        [(bankdPlace ⟨p, r, r'⟩).1, (bankdPlace ⟨p, r, r'⟩).2, (banksPlace ⟨p, r, r'⟩).1, (banksPlace ⟨p, r, r'⟩).2] == l) =
      true ∧
    (let c : Chip := { chip0 with bankFields := ⟨.ir53, false, true⟩ };
      encodeFirst c (.ldBank 1#2 .r0 2#2 .r3) = 0x804F#16 ∧ (match decode c 0x804F#16 0#16 with
        | .ok i => i == .ldBank 1#2 .r0 2#2 .r3
        | .error _ => false) = true) := by decide +kernel
theorem test_ldFromTbl : after { base with tbh := 0x12#8 } 0x8C28 (fun t => (t.x .r0, t.sr1)) = some (0#8, 0x02#8) := by
  decide +kernel
theorem test_ldFromTbh : after { base with tbh := 0xBE#8 } 0x8C2A (fun t => (t.x .r0, t.sr1)) = some (0xBE#8, 0x08#8) := by
  decide +kernel
theorem test_ldTbl : after (regs 0x20#8 0#8 0#8 0#8) 0x8C18 (fun t => (t.tbh, t.tbl, t.sr1)) = some (0#8, 0x20#8, 0#8) := by
  decide +kernel
theorem test_ldTbh : after (regs 0#8 0x10#8 0#8 0#8) 0x8D1A (fun t => (t.tbh, t.tbl, t.sr1)) = some (0x10#8, 0#8, 0#8) := by
  decide +kernel

/-! ### Branches: sections 1.3, 1.18, 1.19, 1.23, 2.7 of the vectors -/

theorem test_jr :
    after { base with pc := 0x18FFE#20 } 0xA005 (fun t => t.pc) = some 0x18003#20 ∧
    after { base with pc := 0x18002#20 } 0xB0FB (fun t => t.pc) = some 0x18FFD#20 := by decide +kernel
theorem test_jr_condition :
    after { base with pc := 0x00100#20, sr1 := 0x01#8 } 0xA702 (fun t => t.pc) = some 0x00102#20 ∧
    after { base with pc := 0x00100#20, sr1 := 0x01#8 } 0xA602 (fun t => t.pc) = some 0x00101#20 := by decide +kernel
theorem test_ljp :
    after { base with pc := 0x38411#20 } 0xABCD80F2 (fun t => t.pc) = some 0x2ABCD#20 ∧
    after { base with pc := 0x38411#20, chip := { chip0 with np64kw := false } } 0xABCD80F2 (fun t => t.pc) = some 0x3ABCD#20 := by decide +kernel
theorem test_ljp_not_taken :
    after { base with pc := 0x38FFF#20 } 0xABCD83F2 (fun t => t.pc) = some 0x38001#20 := by decide +kernel
theorem test_calls :
    after { base with pc := 0x18FFF#20 } 0xC000 (fun t => (t.pc, t.sptr, t.hsSlot 0#6)) = some (0x18000#20, 2#6, .addr20 0x18000#20) ∧
    after { base with pc := 0x38000#20, chip := { chip0 with np64kw := false } } 0xCFFF (fun t => (t.pc, t.sptr, t.hsSlot 0#6)) = some (0x38FFF#20, 2#6, .addr16 0x8001#16) := by decide +kernel
theorem test_calls_full :
    after { base with sptr := 62#6 } 0xC200 (fun t => (t.pc, t.hsUsed, t.hsSlot 62#6)) = some (0x00200#20, 64, .addr20 0x00101#20) ∧
    faults { base with sptr := 63#6 } 0xC200 = some .hsRange := by decide +kernel
theorem test_lcall :
    after { base with pc := 0x00100#20, sr1 := 0x02#8, sptr := 4#6, chip := { chip0 with np64kw := false } } 0x234583D1 (fun t => (t.pc, t.sptr, t.hsSlot 4#6)) =
      some (0x02345#20, 6#6, .addr16 0x0102#16) ∧
    after { base with pc := 0x00100#20 } 0x234582D1 (fun t => (t.pc, t.sptr, t.hsSlot 0#6)) = some (0x00102#20, 0#6, .unspecified) := by decide +kernel
theorem test_lnks :
    after { base with pc := 0x2F0FF#20, ilx := 0x0A#8, ilh := 0xBB#8, ill := 0xCC#8 } 0xD123 (fun t => (t.pc, t.ilx, t.ilh, t.ill)) = some (0x2F123#20, 0x02#8, 0xF1#8, 0x00#8) ∧
    after { base with pc := 0x2F0FF#20, ilx := 0x0A#8, ilh := 0xBB#8, ill := 0xCC#8, chip := { chip0 with np64kw := false } } 0xD123 (fun t => (t.pc, t.ilx, t.ilh, t.ill)) =
      some (0x2F123#20, 0x0A#8, 0xF1#8, 0x00#8) := by decide +kernel
theorem test_llnk :
    after { base with pc := 0x18411#20 } 0x010784E1 (fun t => (t.pc, t.ilx, t.ilh, t.ill)) = some (0x10107#20, 0x01#8, 0x84#8, 0x13#8) ∧
    after { base with pc := 0x00100#20, sr1 := 0x02#8, ilx := 0x0A#8, ilh := 0xBB#8, ill := 0xCC#8 } 0xFFFF84E0 (fun t => (t.pc, t.ilx, t.ilh, t.ill)) =
      some (0x00102#20, 0x0A#8, 0xBB#8, 0xCC#8) := by decide +kernel
theorem test_lret :
    after { base with pc := 0x30100#20, ilx := 0xF2#8, ilh := 0x34#8, ill := 0x56#8 } 0x8030 (fun t => t.pc) = some 0x23456#20 ∧
    after { base with pc := 0x30100#20, ilx := 0xF2#8, ilh := 0x34#8, ill := 0x56#8, chip := { chip0 with np64kw := false } } 0x8030 (fun t => t.pc) = some 0x33456#20 := by decide +kernel
theorem test_ret :
    after ({ base with pc := 0x70100#20, sptr := 8#6, chip := { chip0 with np64kw := false } }.setHsSlot 6#6 (.addr16 0xBEEF#16)) 0x8031 (fun t => (t.pc, t.sptr)) = some (0x7BEEF#20, 6#6) ∧
    after (({ base with sptr := 3#6 } : State).setHsSlot 1#6 (.addr20 0x18407#20)) 0x8031 (fun t => (t.pc, t.sptr)) = some (0x18407#20, 1#6) := by decide +kernel
theorem test_ret_stops :
    faults { base with sptr := 1#6 } 0x8031 = some .hsRange ∧
    faults ((({ base with sptr := 2#6 } : State).setHsSlot 0#6 (.byte 1#8)).setHsSlot 1#6 (.byte 2#8)) 0x8031 = some .hsMixedWidth := by decide +kernel
theorem test_iret :
    after ({ base with pc := 0x70100#20, sptr := 8#6, sr0 := 0xC0#8 }.setHsSlot 6#6 (.addr20 0x4BEEF#20)) 0x8032 (fun t => (t.pc, t.sptr, t.sr0)) =
      some (0x4BEEF#20, 6#6, 0xC2#8) := by decide +kernel
theorem test_jnzd :
    after (base.setXb 3#2 .r2 0x02#8) 0xEAFE (fun t => (t.pc, t.delay, t.xb 3#2 .r2)) = some (0x00101#20, some 0x000FF#20, 0x01#8) ∧
    after base 0xEA00 (fun t => (t.pc, t.delay, t.xb 3#2 .r2)) = some (0x00101#20, some 0x00102#20, 0xFF#8) := by decide +kernel
theorem test_jnzd_stops :
    refuses (base.setXb 3#2 .r2 0x05#8) 0xEA00 = some .jnzdZeroOffset ∧
    refuses { base with delay := some 0x000FF#20 } 0xA002 = some .delaySlotNotOneCycle := by decide +kernel
theorem test_delay_slot :
    after { base with pc := 0x00101#20, delay := some 0x000FF#20 } 0x8410 (fun t => (t.pc, t.delay, t.x .r0)) =
      some (0x000FF#20, none, 0x01#8) := by decide +kernel

/-! ### Bit manipulation: section 2.8 of the vectors -/

theorem test_bits :
    after { regs 0#8 0#8 0#8 0xEE#8 with tf := false, dm := [] } 0x5F10 (fun t => (t.x .r3, t.dm, t.z)) =
      some (0x80#8, [], false) ∧
    after { regs 0#8 0#8 0#8 0xEE#8 with tf := true, dm := [] } 0x5F10 (fun t => (t.x .r3, t.dm, t.z)) =
      some (0xEE#8, [(0x0010, 0x80#8)], false) := by decide +kernel
theorem test_bitr :
    after { regs 0#8 0#8 0#8 0xEE#8 with tf := false, dm := [(0x0010, 0x01#8)] } 0x7010 (fun t => (t.x .r3, t.dm, t.z)) =
      some (0x00#8, [(0x0010, 0x01#8)], true) ∧
    after { regs 0#8 0#8 0#8 0xEE#8 with tf := true, dm := [(0x0010, 0x01#8)] } 0x7010 (fun t => (t.x .r3, t.dm, t.z)) =
      some (0xEE#8, [], true) := by decide +kernel
theorem test_bitc :
    after { regs 0#8 0#8 0#8 0xEE#8 with tf := false, dm := [(0x0010, 0x80#8)] } 0x7F10 (fun t => (t.x .r3, t.dm, t.z)) =
      some (0x00#8, [(0x0010, 0x80#8)], true) ∧
    after { regs 0#8 0#8 0#8 0xEE#8 with tf := true, dm := [(0x0010, 0x80#8)] } 0x7F10 (fun t => (t.x .r3, t.dm, t.z)) =
      some (0xEE#8, [], true) := by decide +kernel
theorem test_bitt :
    after { regs 0#8 0#8 0#8 0xEE#8 with tf := true, dm := [(0x0010, 0xFE#8)] } 0x5010 (fun t => (t.x .r3, t.dm, t.z)) =
      some (0xEE#8, [(0x0010, 0xFE#8)], true) ∧
    after { regs 0#8 0#8 0#8 0xEE#8 with tf := true, dm := [(0x0010, 0x01#8)] } 0x5010 (fun t => (t.x .r3, t.dm, t.z)) =
      some (0xEE#8, [(0x0010, 0x01#8)], false) := by decide +kernel
theorem test_bms_bmc :
    after base 0x8E00 (fun t => (t.tf, t.pc)) = some (true, 0x00101#20) ∧
    after { base with tf := true } 0x8C03 (fun t => (t.tf, t.pc)) = some (false, 0x00101#20) := by decide +kernel
theorem test_tmImm :
    after { regs 0x00#8 0xF0#8 0#8 0#8 with sr1 := 0x05#8 } 0x1180 (fun t => (t.x .r1, t.sr1)) = some (0xF0#8, 0x0D#8) := by decide +kernel
theorem test_andSr0 : after { base with sr0 := 0xFF#8, sr1 := 0x0F#8 } 0x847F (fun t => (t.sr0, t.sr1)) = some (0x3F#8, 0x0F#8) := by
  decide +kernel
theorem test_orSr0 : after { base with sr0 := 0x01#8, sr1 := 0x0F#8 } 0x8A40 (fun t => (t.sr0, t.sr1)) = some (0x81#8, 0x0F#8) := by
  decide +kernel
theorem test_bank : after { base with sr0 := 0xE7#8, sr1 := 0x0F#8 } 0x8C50 (fun t => (t.sr0, t.sr1)) = some (0xF7#8, 0x0F#8) := by
  decide +kernel

/-! ### Miscellaneous: section 2.9 of the vectors -/

theorem test_swap :
    after { regs 0#8 0#8 0#8 0#8 with ilh := 0x80#8, sr1 := 0x01#8 } 0x881D (fun t => (t.x .r0, t.ilh, t.sr1)) =
      some (0x80#8, 0#8, 0x01#8) ∧
    refuses base 0x881B = some .swapStatusRegister ∧ refuses base 0x881F = some .swapStatusRegister := by decide +kernel
theorem test_pushGpr :
    after { regs 0#8 0#8 0xA5#8 0#8 with sptr := 5#6 } 0x822A (fun t => (t.hsSlot 5#6, t.sptr, t.sr1)) =
      some (.byte 0xA5#8, 6#6, 0#8) ∧
    after { base with sptr := 63#6 } 0x8028 (fun t => (t.hsSlot 63#6, t.sptr, t.hsUsed)) = some (.byte 0#8, 0#6, 64) ∧
    faults { base with hsFull := true } 0x8028 = some .hsRange := by decide +kernel
theorem test_pushSpr :
    after { base with sr1 := 0x05#8 } 0x8027 (fun t => (t.hsSlot 0#6, t.sptr)) = some (.byte 0x05#8, 1#6) := by
  decide +kernel
theorem test_popGpr :
    after (({ base with sptr := 5#6, sr1 := 0x09#8 } : State).setHsSlot 4#6 (.byte 0#8)) 0x8529
      (fun t => (t.x .r1, t.sptr, t.sr1)) = some (0#8, 4#6, 0x03#8) ∧
    after (({ base with sptr := 3#6 } : State).setHsSlot 2#6 (.addr20 0x18407#20)) 0x8428 (fun t => (t.x .r0, t.sptr)) =
      some (0x07#8, 2#6) := by decide +kernel
theorem test_popSpr :
    after (({ base with sptr := 1#6 } : State).setHsSlot 0#6 (.byte 0xFA#8)) 0x8427 (fun t => (t.sr1, t.sptr)) =
      some (0xFA#8, 0#6) ∧
    after (({ base with sptr := 1#6 } : State).setHsSlot 0#6 (.byte 0x1B#8)) 0x8423 (fun t => (t.sr0, t.sr1)) =
      some (0x1B#8, 0#8) := by decide +kernel
theorem test_pop_stops :
    faults base 0x8428 = some .hsRange ∧ faults { base with sptr := 1#6 } 0x802C = some .hsRange ∧
    faults { base with sptr := 2#6 } 0x8428 = some .hsMixedWidth := by decide +kernel
theorem test_pop : after { base with sptr := 6#6 } 0x802C (fun t => (t.sptr, t.sr1)) = some (4#6, 0#8) := by decide +kernel
theorem test_nop : after base 0x8033 (fun t => (t.pc, t.gpr, t.sr0, t.sr1)) = some (0x00101#20, base.gpr, 0#8, 0#8) := by
  decide +kernel
theorem test_brk : after base 0x8034 (fun t => (t.pc, t.run)) = some (0x00100#20, .locked) := by decide +kernel
theorem test_sys :
    after base 0xECFF (fun t => (t.pc, t.events, t.haltAfter)) = some (0x00101#20, [.sys 0xFF#8], none) ∧
    after base 0xEC0A (fun t => (t.pc, t.events, t.haltAfter)) = some (0x00101#20, [.sys 0x0A#8], some .stop) := by
  decide +kernel
theorem test_sys_undecoded :
    after { base with chip := { chip0 with decodesStopIdle := false } } 0xEC05 (fun t => (t.events, t.haltAfter)) =
      some ([.sys 0x05#8], none) := by decide +kernel
theorem test_cldLoad :
    after { base with sr1 := 0x0D#8 } 0xE210 (fun t => (t.x .r2, t.sr1, t.events)) =
      some (0#8, 0x07#8, [.copRead 0x10#8]) ∧
    after { base with inputs := { lowInputs with copByte := 0x80#8 } } 0xE3FF (fun t => (t.x .r3, t.sr1)) =
      some (0x80#8, 0x08#8) := by decide +kernel
theorem test_cldStore :
    after { regs 0#8 0x5A#8 0#8 0#8 with sr1 := 0x02#8 } 0xE520 (fun t => (t.sr1, t.events)) =
      some (0x02#8, [.copWrite 0x20#8 0x5A#8]) := by decide +kernel
theorem test_cop : after base 0xFFFF (fun t => (t.pc, t.events)) = some (0x00101#20, [.cop 0xFFF#12]) := by decide +kernel
theorem test_ldc :
    after { base with ilx := 0xF1#8, ilh := 0x23#8, ill := 0xFF#8, sr1 := 0x02#8, pm := [(0x123FF, 0xBEEF#16)] } 0x882C
      (fun t => (t.tbh, t.tbl, t.ill, t.sr1)) = some (0xBE#8, 0xEF#8, 0xFF#8, 0x02#8) := by decide +kernel
theorem test_ldcInc :
    after { base with ilx := 0xF1#8, ilh := 0x23#8, ill := 0xFF#8, pm := [(0x123FF, 0xBEEF#16)] } 0x882E
      (fun t => (t.tbh, t.tbl, t.ilh, t.ill)) = some (0xBE#8, 0xEF#8, 0x23#8, 0x00#8) := by decide +kernel

/-! ### Interrupts, halting, reset: section 2.10 of the vectors, by row -/

theorem test_interrupt_row1 :
    after { base with pc := 0x00101#20, sr0 := 0x42#8, inputs := { lowInputs with irq0 := true } } 0x8033
      (fun t => (t.hsSlot 0#6, t.hsSlot 1#6, t.sptr, t.sr0, t.pc)) =
      some (.addr20 0x00101#20, .unspecified, 2#6, 0x40#8, 0x00010#20) := by decide +kernel
theorem test_interrupt_rows2_3 :
    after { base with sr0 := 0x40#8, inputs := { lowInputs with irq0 := true } } 0x8033 (fun t => (t.pc, t.sptr)) =
      some (0x00101#20, 0#6) ∧
    after { base with sr0 := 0x82#8, inputs := { lowInputs with irq0 := true } } 0x8033 (fun t => (t.pc, t.sptr)) =
      some (0x00101#20, 0#6) := by decide +kernel
theorem test_interrupt_row4 :
    after { base with sr0 := 0xC2#8, inputs := { lowInputs with irq0 := true, irq1 := true } } 0x8033
      (fun t => (t.pc, t.sr0)) = some (0x00010#20, 0xC0#8) ∧
    after { base with
      sr0 := 0xC2#8, inputs := { lowInputs with irq0 := true, irq1 := true },
      chip := { chip0 with irqPriority := .irq1First } } 0x8033 (fun t => (t.pc, t.sr0)) = some (0x00020#20, 0xC0#8) := by
  decide +kernel
theorem test_interrupt_row8 :
    after { base with
      pc := 0x00101#20, delay := some 0x000FF#20, sr0 := 0x42#8, inputs := { lowInputs with irq0 := true } } 0x8510
      (fun t => (t.pc, t.x .r1, t.sptr)) = some (0x000FF#20, 0x01#8, 0#6) := by decide +kernel
theorem test_interrupt_row11 :
    faults { base with sptr := 63#6, sr0 := 0x42#8, inputs := { lowInputs with irq0 := true } } 0x8033 = some .hsRange := by
  decide +kernel
theorem test_halt_row13 :
    after { base with pc := 0x00101#20, haltAfter := some .stop, sr0 := 0x42#8 } 0x8033 (fun t => (t.run, t.pc, t.haltAfter)) =
      some (.halted .stop, 0x00102#20, none) := by decide +kernel
theorem test_halt_rows14_15 :
    after { base with run := .halted .stop, sr0 := 0x42#8, inputs := { lowInputs with irq0 := true } } 0x8033
      (fun t => (t.run, t.pc, t.sptr, t.sr0)) = some (.running, 0x00010#20, 2#6, 0x40#8) ∧
    after { base with run := .halted .stop, sr0 := 0x02#8, inputs := { lowInputs with irq0 := true } } 0x8033
      (fun t => (t.run, t.pc)) = some (.halted .stop, 0x00100#20) := by decide +kernel
theorem test_halt_wakeMasked :
    after { base with
      run := .halted .idle, inputs := { lowInputs with irq1 := true }, chip := { chip0 with wakeMasked := true } } 0x8033
      (fun t => (t.run, t.pc, t.sptr)) = some (.running, 0x00100#20, 0#6) := by decide +kernel
theorem test_locked_row18 :
    after { base with run := .locked, sr0 := 0x42#8, inputs := { lowInputs with irq0 := true } } 0x8033
      (fun t => (t.run, t.pc)) = some (.locked, 0x00100#20) := by decide +kernel
theorem test_reset_row19 :
    after { base with resetPin := true, run := .locked, sr0 := 0xFF#8, sptr := 9#6, delay := some 0x00001#20 } 0x8033
      (fun t => (t.sr0, t.sptr, t.pc, t.run, t.delay)) = some (0#8, 0#6, 0x00000#20, .running, none) := by decide +kernel
theorem test_stackFull_trap :
    after { base with sptr := 8#6, chip := { chip0 with hsDepth := 8, stackFull := .trap (.fixed 0x00030#20) } } 0x8028
      (fun t => (t.sptr, t.sfPending, t.pc)) = some (9#6, true, 0x00101#20) ∧
    after { base with
      sptr := 9#6, sfPending := true, sr0 := 0x02#8,
      chip := { chip0 with hsDepth := 8, stackFull := .trap (.fixed 0x00030#20) } } 0x8033
      (fun t => (t.sptr, t.sfPending, t.pc, t.hsSlot 9#6, t.sr0)) =
      some (11#6, false, 0x00030#20, .addr20 0x00100#20, 0#8) := by decide +kernel
/-- A vector that is a function of the program image. -/
theorem test_vector_ofImage :
    after { base with
      pc := 0x00101#20, sr0 := 0x42#8, inputs := { lowInputs with irq0 := true },
      chip := { chip0 with vecIrq0 := .ofImage 3 } } 0x8033 (fun t => t.pc) =
      some (Config.imageVector 3 [(0x00101, 0x8033#16)]) := rfl
/-- The instruction after STOP fills the stack: the core halts with the exception waiting, which alone does not wake it. -/
theorem test_stackFull_halted :
    after { trapping 8#6 with haltAfter := some .stop } 0x8028 (fun t => (t.run, t.sfPending)) = some (.halted .stop, true) ∧
    after { trapping 9#6 with sfPending := true, run := .halted .stop } 0x8033 (fun t => (t.run, t.sfPending, t.pc)) =
      some (.halted .stop, true, 0x00100#20) := by decide +kernel
theorem test_fetch_unmapped :
    faults { base with chip := { chip0 with pmUnmapped := [(0x00100, 0x00100)] } } 0x8033 = some .pmUnmapped ∧
    faults { base with chip := { chip0 with pmUnmapped := [(0x00101, 0x00101)] } } 0x010784D1 = some .pmUnmapped := by
  decide +kernel
theorem test_fetch_rejected :
    refuses base 0x8C04 = some .invalidInstruction ∧ refuses base 0x8417 = some .reservedInstruction ∧
      refuses base 0x8029 = some .pushPopFieldsDiffer := by decide +kernel
/-- The first instruction after reset is the one `withFetchWord` places. -/
theorem test_first_instruction : after State.reset 0x007A (fun t => (t.x .r0, t.pc)) = some (0x7A#8, 0x00001#20) := by
  decide +kernel

/-! ### Witnesses: for every statement with hypotheses, states and operands that meet them, clause by clause -/

/-- The operation answers a next state. -/
def isNext {α : Type} (o : Res α) : Bool :=
  match o with
  | .next _ => true
  | .fault _ => false
  | .refused _ => false

theorem exists_next {α : Type} {o : Res α} (h : isNext o = true) : ∃ a, o = .next a := by
  cases o with
  | next a => exact ⟨a, rfl⟩
  | fault e => cases h
  | refused r => cases h

/-- `base` with a word at PC. -/
def placed (w : Nat) : State := base.withFetchWord 32 w

/-- The same state with both interrupts requested. -/
def requesting (s : State) : State := { s with inputs := { lowInputs with irq0 := true, irq1 := true } }

/-- A boundary at which the interrupt with the vector `v` is taken. -/
theorem takesInterrupt_of {s : State} {v : PAddr}
    (h : (s.resetPin = false ∧ s.run ≠ .locked ∧ s.delay = none ∧ s.haltAfter = none) ∧ s.sfPending = false ∧
      s.interruptVector = some v) : TakesInterrupt s v := by
  obtain ⟨⟨h1, h2, h3, h4⟩, h5, h6⟩ := h
  exact ⟨⟨h1, h2, h3, h4⟩, h5, interruptVector_eq_some.mp h6⟩

/-- A boundary at which the stack-full exception with the vector `v` is taken. -/
theorem takesStackFull_of {s : State} {v : PAddr} {r : VectorRule} (hr : s.chip.stackFull = .trap r)
    (hv : v = r.address s.pm)
    (h : (s.resetPin = false ∧ s.run ≠ .locked ∧ s.delay = none ∧ s.haltAfter = none) ∧ s.sfPending = true ∧
      (s.run = .running ∨ s.wakes = true)) : TakesStackFull s v := by
  obtain ⟨⟨h1, h2, h3, h4⟩, h5, h6⟩ := h
  exact ⟨⟨h1, h2, h3, h4⟩, h5, h6.imp_right wakes_iff.mp, r, hr, hv⟩

/-- The words `w` at PC are the instruction `i`, which has a next state there. -/
def completesAt (w : Nat) (i : Instr) (s : State) : Bool :=
  match fetchInstr (s.withFetchWord 32 w) with
  | .next j => j == i && isNext (exec i (s.withFetchWord 32 w).beginInstr)
  | .fault _ => false
  | .refused _ => false

/-- An empty and a full stack. -/
theorem witness_StepKeepsInv :
    (base.Inv ∧ ∃ t, step base = .next t) ∧
    ({ base with hsFull := true }.Inv ∧ ∃ t, step { base with hsFull := true } = .next t) :=
  ⟨⟨by constructor <;> decide +kernel, exists_next (by decide +kernel)⟩,
    by constructor <;> decide +kernel, exists_next (by decide +kernel)⟩
theorem witness_StepKeepsProgram : ∃ t, step (placed 0x8033) = .next t := exists_next (by decide +kernel)
theorem witness_SpecialRegisterWriters :
    (∃ t, exec .nop base = .next t) ∧ writesTf .nop = false ∧ writesSr0 .nop = false ∧ writesTable .nop = false :=
  ⟨exists_next (by decide +kernel), by decide +kernel⟩
/-- C with NOP, and C with AND of two registers on a chip with KEEP. -/
theorem witness_UnlistedFlagsKept :
    ((∃ t, exec .nop base = .next t) ∧ .flagC ∈ flagParts ∧ .flagC ∉ flagsWritten .nop ∧ ∀ d g, Instr.nop ≠ .andReg d g) ∧
    ((∃ t, exec (.andReg .r0 .r1) base = .next t) ∧ .flagC ∈ flagParts ∧ .flagC ∉ flagsWritten (.andReg .r0 .r1) ∧
      base.chip.logicC = .keep) :=
  ⟨⟨exists_next (by decide +kernel), by decide +kernel, by decide +kernel, fun _ _ h => Instr.noConfusion h⟩,
    exists_next (by decide +kernel), by decide +kernel⟩
theorem witness_DecodeEncode :
    Instr.wellFormed chip0 (.bms 15#4) = true ∧ Instr.isLong (.bms 15#4) = false ∧
      Instr.wellFormed chip0 (.ljp .ec2 0xFFFFF#20) = true ∧ encodeSecond (.ljp .ec2 0xFFFFF#20) = 0xFFFF#16 := by
  decide +kernel
theorem witness_DecodedInstructions :
    dec 0x8033#16 0#16 = some .nop ∧ Instr.isLong .nop = false ∧ dec 0x80F0#16 0#16 = some (.ljp .always 0#20) := by
  decide +kernel
/-- The lowest and the highest word of each clause. -/
theorem witness_EncodingsWithImmediates :
    ([(0xFC00#16, [0x0000#16, 0x0400#16, 0x0800#16, 0x0C00#16, 0x1000#16, 0x1400#16, 0x1800#16, 0x1C00#16, 0x4000#16,
        0x4400#16, 0x4800#16, 0x4C00#16, 0x6000#16, 0x6400#16, 0x6800#16, 0x6C00#16, 0x9000#16, 0x9400#16, 0x9800#16,
        0x9C00#16, 0xE000#16, 0xE400#16, 0xE800#16, 0xEC00#16]),
      (0xF800#16, [0x5000#16, 0x5800#16, 0x7000#16, 0x7800#16]), (0xE000#16, [0xA000#16]),
      (0xF000#16, [0xC000#16, 0xD000#16, 0xF000#16])].all fun p =>
        p.2.all fun m => m &&& p.1 == m && (m ||| ~~~p.1) &&& p.1 == m) = true ∧
    gprCode .r0 = (0x0000#16).extractLsb' 8 2 ∧ spr0Code .idl0 = (0x0000#16).extractLsb' 8 2 ∧
      condCode .always = (0x0000#16).extractLsb' 8 4 ∧ gprCode .r3 = (0x03FF#16).extractLsb' 8 2 ∧
      spr0Code .sr0 = (0x03FF#16).extractLsb' 8 2 ∧ condCode .ec2 = (0xBFFF#16).extractLsb' 8 4 := by decide +kernel
/-- The lowest and the highest word of each clause, and the codes of the first. -/
theorem witness_EncodingsWithRegisters :
    ([(0xFC00#16, [0x2000#16, 0x2400#16, 0x2800#16, 0x2C00#16, 0x3000#16, 0x3400#16, 0x3800#16, 0x3C00#16]),
      (0xFCFC#16, [0x8000#16, 0x8400#16, 0x8800#16, 0x8004#16, 0x8404#16, 0x8804#16, 0x800C#16, 0x840C#16, 0x880C#16,
        0x8828#16, 0x8028#16, 0x8428#16, 0x802C#16, 0x8C00#16]),
      (0xFCFF#16, [0x8010#16, 0x8017#16, 0x8410#16, 0x8416#16, 0x8030#16, 0x8034#16]),
      (0xFCF8#16, [0x8018#16, 0x8418#16, 0x8818#16, 0x8020#16, 0x8420#16]), (0xFCFA#16, [0x8C18#16, 0x8C1A#16]),
      (0xFCFE#16, [0x8C28#16, 0x8C2A#16, 0x882C#16, 0x882E#16]),
      (0xFCC0#16, [0x8040#16, 0x8440#16, 0x8840#16, 0x8C40#16]), (0xF0F0#16, [0x80D0#16, 0x80E0#16, 0x80F0#16])].all fun p =>
        p.2.all fun m => m &&& p.1 == m && (m ||| ~~~p.1) &&& p.1 == m) = true ∧
    (let w := 0x23FF#16;
      gprCode .r3 = w.extractLsb' 8 2 ∧ gprCode .r3 = w.extractLsb' 0 2 ∧ sprCode .sr1 = w.extractLsb' 0 3 ∧
        condCode .z = w.extractLsb' 8 4 ∧ idxCode .id1 = w.extractLsb' 7 1 ∧ modeCode .minus = w.extractLsb' 5 2 ∧
        31#5 = w.extractLsb' 0 5) := by decide +kernel
/-- A one-word and a two-word instruction with nothing pending, and a slot that does not allow its instruction. -/
theorem witness_StepRunsDecodedInstruction :
    ((placed 0x8033).resetPin = false ∧ (placed 0x8033).run = .running ∧ (placed 0x8033).pmMapped (placed 0x8033).pc = true ∧
      (placed 0x8033).delay = none ∧ (placed 0x8033).haltAfter = none) ∧ boundaryException (placed 0x8033) = none ∧
    dec (memRead (placed 0x8033).pm 0x00100) 0#16 = some .nop ∧
    dec (memRead (placed 0x010784D1).pm 0x00100) (memRead (placed 0x010784D1).pm 0x00101) = some (.lcall .nz 0x10107#20) ∧
    (placed 0x010784D1).pmMapped (seq (placed 0x010784D1).pc 1) = true ∧
    slotAllows { placed 0xA002 with delay := some 0#20 } (.jr .always 2#9) = false ∧
    slotAllows (placed 0xA002) (.jr .always 2#9) = true :=
  ⟨by decide +kernel, rfl, by decide +kernel⟩
/-- Each clause; the words of the first and last rows of rules R119 and R120, PUSH and POP. -/
theorem witness_BadFetchStops :
    State.pmMapped { base with chip := { chip0 with pmUnmapped := [(0x00100, 0x00100)] } } 0x00100#20 = false ∧
    base.pmMapped base.pc = true ∧ boundaryException base = none ∧
    (InvalidWord 0x8C04#16 ∧ InvalidWord 0x8FCF#16) ∧ (ReservedWord 0x8417#16 ∧ ReservedWord 0x8337#16) ∧
    (DifferingWord 0x8029#16 ∧ DifferingWord 0x872A#16) ∧
    (let s := { placed 0x010784D1 with chip := { chip0 with pmUnmapped := [(0x00101, 0x00101)] } };
      s.pmMapped s.pc = true ∧ memRead s.pm s.pc.toNat &&& 0xF0F0#16 = 0x80D0#16 ∧ s.pmMapped (seq s.pc 1) = false) := by
  unfold InvalidWord ReservedWord DifferingWord
  exact ⟨by decide +kernel, by decide +kernel, rfl, by decide +kernel⟩
theorem witness_DelaySlotThenTarget :
    (let s := { placed 0x8410 with delay := some 0x000FF#20 };
      s.resetPin = false ∧ s.run = .running ∧ s.delay = some 0x000FF#20 ∧ s.haltAfter = none) ∧
    fetchInstr { placed 0x8410 with delay := some 0x000FF#20 } = .next (.inc .r0) ∧ oneCycle (.inc .r0) = true ∧
    Instr.inc .r0 ≠ .brk ∧
    ∃ t, exec (.inc .r0) (State.beginInstr { placed 0x8410 with delay := some 0x000FF#20 }) = .next t :=
  ⟨by decide +kernel, rfl, rfl, by decide +kernel, exists_next (by decide +kernel)⟩
/-- NOP, and the cases of log entry 33: a second STOP, JNZD, a push that raises the stack-full exception. -/
theorem witness_HaltAfterNextInstruction :
    (let s := { placed 0x8033 with haltAfter := some .idle };
      s.resetPin = false ∧ s.run = .running ∧ s.haltAfter = some .idle ∧ s.delay = none) ∧
    (Instr.nop ≠ .brk ∧ completesAt 0x8033 .nop { base with haltAfter := some .idle }) ∧
    (Instr.sys 0x0A#8 ≠ .brk ∧ completesAt 0xEC0A (.sys 0x0A#8) { base with haltAfter := some .idle }) ∧
    (Instr.jnzd .r0 0xFE#8 ≠ .brk ∧ completesAt 0xE8FE (.jnzd .r0 0xFE#8) { base with haltAfter := some .stop }) ∧
    (Instr.pushGpr .r0 ≠ .brk ∧ completesAt 0x8028 (.pushGpr .r0) { trapping 8#6 with haltAfter := some .stop }) := by
  decide +kernel
/-- Locked; halted with no request and with a masked one; woken by a masked request under WAKE_MASKED, before a delay slot
and before the instruction after a second STOP. -/
theorem witness_LockedAndHaltedRest :
    ({ base with run := .locked } : State).resetPin = false ∧ ¬WakeRequested { base with run := .halted .stop } ∧
    ¬WakeRequested (requesting { base with run := .halted .idle }) ∧
    (let s := requesting { base with run := .halted .idle, chip := { chip0 with wakeMasked := true } };
      WakeRequested s ∧ s.sfPending = false ∧ s.deliverable0 = false ∧ s.deliverable1 = false) ∧
    (let s := requesting { base with run := .halted .stop, sr0 := 0x42#8, delay := some 0#20 };
      WakeRequested s ∧ s.delay.isSome = true) ∧
    (let s := requesting { base with run := .halted .stop, sr0 := 0x42#8, haltAfter := some .stop };
      WakeRequested s ∧ s.haltAfter.isSome = true) := by
  unfold WakeRequested
  decide +kernel
/-- Interrupt 0, of a running core and out of STOP, with 62 slots in use; interrupt 1 with both requested on a chip that
serves it first. -/
theorem witness_InterruptEntry :
    (let s := requesting { base with sr0 := 0x42#8, sptr := 62#6 };
      TakesInterrupt s 0x00010#20 ∧ HasRoom s 2 ∧ s.run = .running) ∧
    (let s := requesting { base with sr0 := 0x42#8, run := .halted .stop };
      TakesInterrupt s 0x00010#20 ∧ HasRoom s 2) ∧
    (let s := { requesting { base with sr0 := 0xC2#8 } with chip := { chip0 with irqPriority := .irq1First } };
      TakesInterrupt s 0x00020#20 ∧ HasRoom s 2) := by
  unfold HasRoom
  exact ⟨⟨takesInterrupt_of (by decide +kernel), by decide +kernel⟩, ⟨takesInterrupt_of (by decide +kernel), by decide +kernel⟩,
    takesInterrupt_of (by decide +kernel), by decide +kernel⟩
theorem witness_NoExceptionTaken :
    ({ base with delay := some 0#20 } : State).delay.isSome = true ∧ ({ base with haltAfter := some .stop } : State).haltAfter.isSome = true ∧
      base.sfPending = false ∧ base.inputs.irq0 = false ∧ base.inputs.irq1 = false := by decide +kernel
/-- Pushes of one and of two slots that cross HS_DEPTH, and one that goes on beyond it; an interrupt's entry that crosses
it; the entry of a running core and out of STOP, with two slots left of the 64. -/
theorem witness_StackFullException :
    (trapping 8#6).chip.stackFull = .trap (.fixed 0x00030#20) ∧ PassesDepth (trapping 8#6) 1 ∧
    PassesDepth (trapping 63#6) 1 ∧ PassesDepth (trapping 7#6) 2 ∧ (trapping 7#6).cond .always = true ∧
    TakesInterrupt (requesting { trapping 7#6 with sr0 := 0x42#8 }) 0x00010#20 ∧
    (let s := { trapping 62#6 with sfPending := true };
      TakesStackFull s 0x00030#20 ∧ s.chip.hsDepth.val < s.hsUsed ∧ s.hsUsed + 2 ≤ 64) ∧
    (let s := requesting { trapping 9#6 with sfPending := true, sr0 := 0x42#8, run := .halted .stop };
      TakesStackFull s 0x00030#20 ∧ s.chip.hsDepth.val < s.hsUsed ∧ s.hsUsed + 2 ≤ 64) := by
  unfold PassesDepth HasRoom
  exact ⟨rfl, by decide +kernel, by decide +kernel, by decide +kernel, by decide +kernel, takesInterrupt_of (by decide +kernel),
    ⟨takesStackFull_of rfl rfl (by decide +kernel), by decide +kernel⟩, takesStackFull_of rfl rfl (by decide +kernel), by decide +kernel⟩
theorem witness_ResetStep : ({ base with resetPin := true, run := .locked } : State).resetPin = true := rfl
theorem witness_InterruptThenReturn :
    base.hsUsed + 2 ≤ base.chip.hsDepth.val ∧ ∃ t, takeException 0x00010#20 base = .next t :=
  ⟨by decide +kernel, exists_next (by decide +kernel)⟩
/-- The offsets of the plus modes are unrestricted; those of the minus modes at both ends. -/
theorem witness_IndexedAddress : (1#5 : BitVec 5) ≠ 0#5 ∧ (31#5 : BitVec 5) ≠ 0#5 := by decide +kernel
theorem witness_IndexRegisterAfterAccess :
    Instr.idm? (.cpIdm .r1 ⟨.id0, .preDec, 31#5⟩) = some ⟨.id0, .preDec, 31#5⟩ ∧
      idmDisplacement chip0 ⟨.id0, .preDec, 31#5⟩ = some 0xFFFF#16 ∧
      ∃ t, exec (.cpIdm .r1 ⟨.id0, .preDec, 31#5⟩) base = .next t :=
  ⟨by decide +kernel, by decide +kernel, exists_next (by decide +kernel)⟩
theorem witness_MinusZeroStops :
    Instr.idm? (.stIdm ⟨.id1, .minus, 0#5⟩ .r0) = some ⟨.id1, .minus, 0#5⟩ ∧
      Idm.minusZero ⟨.id1, .minus, 0#5⟩ = true ∧ base.chip.idmNeg0 = .refuse := by decide +kernel
/-- Every form of the second operand, for AddAddsOperand, SubSubtractsOperand, CpComparesOperand, AndMasksOperand,
OrXorCombineOperand, ConditionsAfterCompare and LoadsIntoGpr. -/
theorem witness_Source :
    Source.value base (.imm 0xFF#8) = some 0xFF#8 ∧ Source.value base (.adr 0xFF#8) = some 0#8 ∧
      Source.value (regs 0#8 0#8 0#8 0x80#8) (.reg .r3) = some 0x80#8 ∧
      Source.value base (.idm ⟨.id0, .postInc, 0#5⟩) = some 0#8 ∧ Source.value base (.idm ⟨.id1, .minus, 1#5⟩) = some 0#8 := by
  decide +kernel
theorem witness_AndMasksOperand :
    base.chip.logicC = .keep ∧ (∀ g, Source.imm 0x80#8 ≠ .reg g) ∧
      ({ base with chip := { chip0 with logicC := .andRRClears } } : State).chip.logicC = .andRRClears :=
  ⟨by decide +kernel, fun _ h => Source.noConfusion h, by decide +kernel⟩
theorem witness_ConditionsAfterCompare :
    Source.value base (.imm 0x80#8) = some 0x80#8 ∧ ∃ t, exec (cpForm .r0 (.imm 0x80#8)) base = .next t :=
  ⟨by decide +kernel, exists_next (by decide +kernel)⟩
theorem witness_ShiftLeftArithmetic :
    base.chip.slaN = .msb ∧ ({ base with chip := { chip0 with slaN := .vXorMsb } } : State).chip.slaN = .vXorMsb := by
  decide +kernel
/-- For StoresWriteOneByte, UnmappedStoreStops, BitOperationsToR3 and BitOperationsToMemory: the edges of the hole, from
outside and from inside. -/
theorem witness_stores :
    memWf dmSize base.dm = true ∧ base.dmMapped (base.directAddr 0x50#8) = true ∧
      base.dmMapped (base.directAddr 0x80#8) = true ∧ base.dmMapped (base.directAddr 0x51#8) = false ∧
      base.dmMapped (base.directAddr 0x7F#8) = false ∧ idmDisplacement chip0 ⟨.id1, .plus, 31#5⟩ = some 31#16 ∧
      base.dmMapped (base.idmAddr ⟨.id1, .plus, 31#5⟩ 31#16) = true ∧
      (let s := indexed base 0#8 0#8 0x51#8 0#8;
        s.dmMapped (s.idmAddr ⟨.id0, .postInc, 1#5⟩ 1#16) = false) ∧
      base.tf = false ∧
      (let s := { base with tf := true };
        s.tf = true ∧ memWf dmSize s.dm = true ∧ s.dmMapped (s.directAddr 0x80#8) = true ∧
          s.dmMapped (s.directAddr 0x7F#8) = false) := by decide +kernel
/-- For StackPrimitives, CallsPushReturnAddress, LinksSaveReturnAddress, ReturnsLoadPc, PushStoresByte and PopLoadsByte:
room for exactly two slots and for one, the conditions true and false, every kind of slot that can be read. -/
theorem witness_stack :
    ({ base with sptr := 62#6 } : State).hsUsed + 2 = base.chip.hsDepth.val ∧
      ({ base with sptr := 63#6 } : State).hsUsed + 1 = base.chip.hsDepth.val ∧
      base.cond .always = true ∧ base.cond .z = false ∧
      slotByte (HsSlot.byte 0xFF#8) = some 0xFF#8 ∧ slotByte (HsSlot.addr20 0x18407#20) = some 0x07#8 ∧
      (let s := ({ base with sptr := 2#6 } : State).setHsSlot 0#6 (.addr20 0xFFFFF#20);
        2 ≤ s.hsUsed ∧ s.hsSlot (s.sptr - 2#6) = .addr20 0xFFFFF#20) ∧
      (let s := ({ base with sptr := 2#6, chip := { chip0 with np64kw := false } } : State).setHsSlot 0#6 (.addr16 0xFFFF#16);
        s.chip.np64kw = false ∧ s.hsSlot (s.sptr - 2#6) = .addr16 (BitVec.ofNat 16 (0xFFFFF#20).toNat)) ∧
      (let s := ({ base with sptr := 1#6 } : State).setHsSlot 0#6 (.byte 0xFF#8);
        1 ≤ s.hsUsed ∧ slotByte (s.hsSlot (s.sptr - 1#6)) = some 0xFF#8) := by decide +kernel
/-- For the LRET clause of ReturnsLoadPc. -/
theorem witness_ReturnsLoadPc :
    (0xFFFFF#20).toNat = ({ base with ilx := 0xFF#8, ilh := 0xFF#8, ill := 0xFF#8 } : State).ilNat := by decide +kernel
theorem witness_CallThenReturn :
    base.cond .always = true ∧ base.hsUsed + 2 ≤ base.chip.hsDepth.val ∧ (∃ t, exec (.calls 0xFFF#12) base = .next t) ∧
      (∃ t, exec (.lcall .always 0xFFFFF#20) base = .next t) ∧ (∃ t, exec (.lnks 0#12) base = .next t) ∧
      ∃ t, exec (.llnk .always 0#20) base = .next t :=
  ⟨by decide +kernel, by decide +kernel, exists_next (by decide +kernel), exists_next (by decide +kernel),
    exists_next (by decide +kernel), exists_next (by decide +kernel)⟩
/-- Taken, not taken, and taken with no offset. -/
theorem witness_LoopJump :
    (base.setXb 3#2 .r2 0x01#8).xb 3#2 .r2 ≠ 0#8 ∧ (0xFF#8 : Byte) ≠ 0#8 ∧ base.xb 3#2 .r2 = 0#8 := by decide +kernel
theorem witness_SwapExchanges : Spr.idl0 ≠ .sr0 ∧ Spr.idl0 ≠ .sr1 ∧ Spr.ill ≠ .sr0 ∧ Spr.ill ≠ .sr1 := by decide +kernel
/-- One slot, or one slot too few, on each side of every range. -/
theorem witness_StackRangeStops :
    NoRoom { base with hsFull := true } 1 ∧ NoRoom { base with sptr := 63#6 } 2 ∧
    NoRoom { trapping 0#6 with hsFull := true } 1 ∧ NoRoom (trapping 63#6) 2 ∧
    TakesInterrupt (requesting { base with sr0 := 0x42#8, sptr := 63#6 }) 0x00010#20 ∧
    TakesStackFull { trapping 63#6 with sfPending := true } 0x00030#20 ∧
    base.hsUsed = 0 ∧ ({ base with sptr := 1#6 } : State).hsUsed < 2 ∧
    (1 ≤ ({ base with sptr := 1#6 } : State).hsUsed ∧ ({ base with sptr := 1#6 } : State).hsSlot 0#6 = .unspecified) ∧
    (let s := ({ base with sptr := 2#6 } : State).setHsSlot 0#6 (.byte 0xFF#8);
      2 ≤ s.hsUsed ∧ s.hsSlot (s.sptr - 2#6) = .byte 0xFF#8) := by
  unfold NoRoom HasRoom
  exact ⟨by decide +kernel, by decide +kernel, by decide +kernel, by decide +kernel, takesInterrupt_of (by decide +kernel),
    takesStackFull_of rfl rfl (by decide +kernel), by decide +kernel⟩
theorem witness_ProgramMemoryLoads :
    (0x12345#20).toNat = ({ base with ilx := 0xF1#8, ilh := 0x23#8, ill := 0x45#8 } : State).ilNat ∧
      base.pmMapped 0x12345#20 = true ∧
      ({ base with chip := { chip0 with pmUnmapped := [(0x12345, 0x12345)] } } : State).pmMapped 0x12345#20 = false := by
  decide +kernel

end Sys2Proof.Tests
end

section
/-! What one step can do, said once (`StepCase`), and from it that no step changes the chip or program memory. -/

namespace Sys2Proof.Machine

/-- The six things a completed step can be, each with its guards. `exception` speaks of the state as a running core sees
it: a halted core that a request wakes is considered at the boundary as running (rule R333). -/
inductive StepCase (s : State) : State → Prop where
  | reset (pin : s.resetPin = true) : StepCase s (applyReset s).sample
  | locked (pin : s.resetPin = false) (run : s.run = .locked) : StepCase s s.sample
  | asleep {m : HaltMode} (pin : s.resetPin = false) (run : s.run = .halted m) (wakes : s.wakes = false) :
      StepCase s s.sample
  | wake {m : HaltMode} (pin : s.resetPin = false) (run : s.run = .halted m) (wakes : s.wakes = true)
      (boundary : boundaryException { s with run := .running } = none) : StepCase s { s with run := .running }.sample
  | exception {u : State} (pin : s.resetPin = false)
      (run : s.run = .running ∨ (∃ m, s.run = .halted m) ∧ s.wakes = true)
      (boundary : boundaryException { s with run := .running } = some (.next u)) : StepCase s u.sample
  | instr {i : Instr} {u : State} (pin : s.resetPin = false) (run : s.run = .running)
      (boundary : boundaryException s = none) (fetched : fetchInstr s = .next i) (slot : slotAllows s i = true)
      (executed : exec i s.beginInstr = .next u) : StepCase s (endInstr s u)

/-- An instruction's step: it was fetched, may stand where it does, and has executed. -/
theorem stepInstr_eq_next {s t : State} :
    stepInstr s = .next t ↔
      ∃ i u, fetchInstr s = .next i ∧ slotAllows s i = true ∧ exec i s.beginInstr = .next u ∧ t = endInstr s u := by
  unfold stepInstr
  rw [andThen_eq_next]
  refine exists_congr fun i => ?_
  by_cases hs : slotAllows s i = true
  · simp [hs, andThen_eq_next, eq_comm (a := t)]
  · simp [hs]

/-- A step that completes is one of the cases. -/
theorem stepCase_of_step {s t : State} (h : step s = .next t) : StepCase s t := by
  unfold step at h
  split at h
  case isTrue pin =>
    cases h
    exact .reset pin
  case isFalse pin =>
    replace pin : s.resetPin = false := by simpa using pin
    split at h
    case h_1 run =>
      cases h
      exact .locked pin run
    case h_2 m run =>
      split at h
      case isTrue wakes =>
        split at h
        case h_1 o boundary =>
          obtain ⟨u, rfl, ht⟩ := andThen_eq_next.mp h
          cases ht
          exact .exception pin (.inr ⟨⟨m, run⟩, wakes⟩) boundary
        case h_2 boundary =>
          cases h
          exact .wake pin run wakes boundary
      case isFalse wakes =>
        cases h
        exact .asleep pin run (by simpa using wakes)
    case h_3 run =>
      split at h
      case h_1 o boundary =>
        obtain ⟨u, rfl, ht⟩ := andThen_eq_next.mp h
        cases ht
        have running : { s with run := .running } = s := by rw [← run]
        exact .exception pin (.inl run) (running.symm ▸ boundary)
      case h_2 boundary =>
        obtain ⟨i, u, fetched, slot, executed, rfl⟩ := stepInstr_eq_next.mp h
        exact .instr pin run boundary fetched slot executed

/-! ### The chip and program memory -/

/-- The parameters and every word of program memory are the same. -/
def KeepsProgram (s t : State) : Prop :=
  t.chip = s.chip ∧ ∀ a : PAddr, memRead t.pm a.toNat = memRead s.pm a.toNat

/-- The parts that make up the parameters and program memory. -/
def Part.isProgram : Part → Bool
  | .chip => true
  | .pm _ => true
  | _ => false

/-- States with the same chip and the same program memory. -/
theorem KeepsProgram.of_eq {s t : State} (hc : t.chip = s.chip) (hp : t.pm = s.pm) : KeepsProgram s t :=
  ⟨hc, fun _ => by rw [hp]⟩

theorem KeepsProgram.trans {s t u : State} (h : KeepsProgram s t) (h' : KeepsProgram t u) : KeepsProgram s u :=
  ⟨h'.1.trans h.1, fun a => (h'.2 a).trans (h.2 a)⟩

/-- A frame that lists no part of them keeps them. -/
theorem OnlyChanges.keepsProgram {w : List Part} {s t : State} (h : OnlyChanges w s t)
    (hw : ∀ p ∈ w, p.isProgram = false) : KeepsProgram s t :=
  ⟨h .chip fun hm => Bool.noConfusion (hw _ hm), fun a => h (.pm a) fun hm => Bool.noConfusion (hw _ hm)⟩

theorem sprParts_not_program (bank : Bool) (r : Spr) : ∀ p ∈ sprParts bank r, p.isProgram = false := by
  cases r <;> simp [sprParts, sr0Parts, flagParts, Part.isProgram]

theorem idmParts_not_program (bank : Bool) (m : Idm) : ∀ p ∈ idmParts bank m, p.isProgram = false := by
  unfold idmParts
  cases m.mode <;> cases m.idx <;> simp [Part.isProgram]

/-- The flags an instruction writes are flags. -/
theorem flagsWritten_subset (i : Instr) : ∀ p ∈ flagsWritten i, p ∈ flagParts := by
  cases i
  case ldSprGpr r d | popSpr r => by_cases hr : r = .sr1 <;> simp [flagsWritten, hr]
  all_goals simp [flagsWritten, flagParts]

theorem flagParts_not_program : ∀ p ∈ flagParts, p.isProgram = false := by
  simp [flagParts, Part.isProgram]

/-- No instruction's own parts are the program's: none writes the parameters or program memory (rules R4, R78). -/
theorem ownParts_not_program (s : State) (i : Instr) : ∀ p ∈ ownParts s i, p.isProgram = false := by
  cases i
  case stIdm m d => cases hd : idmDisplacement s.chip m <;> simp [ownParts, hd, Part.isProgram]
  case ldSpr0Imm r imm => exact sprParts_not_program _ _
  case ldSprGpr r d => exact sprParts_not_program _ _
  case swap d r => simpa [ownParts, Part.isProgram] using sprParts_not_program s.idb r
  case popSpr r => simpa [ownParts, Part.isProgram] using sprParts_not_program s.idb r
  all_goals simp [ownParts, Part.isProgram, sr0Parts, pushAddrParts]

theorem execParts_not_program (s : State) (i : Instr) : ∀ p ∈ execParts s i, p.isProgram = false := by
  intro p hp
  simp only [execParts, List.mem_cons, List.mem_append] at hp
  rcases hp with rfl | (ho | hf) | hm
  · rfl
  · exact ownParts_not_program s i p ho
  · exact flagParts_not_program p (flagsWritten_subset i p hf)
  · split at hm
    · exact idmParts_not_program _ _ p hm
    · cases hm

theorem exec_keepsProgram {i : Instr} {s t : State} (h : exec i s = .next t) : KeepsProgram s t :=
  (exec_onlyChanges h).keepsProgram (execParts_not_program s i)

theorem takeException_keepsProgram {v : PAddr} {s t : State} (h : takeException v s = .next t) : KeepsProgram s t :=
  (takeException_onlyChanges h).keepsProgram (by simp [pushAddrParts, Part.isProgram])

/-- The entry at a boundary, whether it answers the stack-full exception or an interrupt. -/
theorem boundaryException_keepsProgram {s u : State} (h : boundaryException s = some (.next u)) : KeepsProgram s u := by
  obtain ⟨-, ⟨v, -, ho⟩ | ⟨-, v, -, ho⟩⟩ := boundaryException_spec h
  · have h' : KeepsProgram { s with sfPending := false } u := takeException_keepsProgram ho.symm
    exact h'
  · exact takeException_keepsProgram ho.symm

/-! ### The end of an instruction -/

theorem setRun_onlyChanges (s : State) (r : RunState) : OnlyChanges [.run] s { s with run := r } := by
  intro p hp
  cases p
  case run => exact absurd (List.mem_singleton.mpr rfl) hp
  case sptr => exact ⟨rfl, rfl⟩
  case dm a => exact ⟨rfl, rfl, fun _ => rfl⟩
  all_goals rfl

/-- Completing a delay slot changes PC or the pending target alone (rule R236; log entry 32). -/
theorem endSlot_onlyChanges (s t : State) : OnlyChanges [.delay, .pc] t (endSlot s t) := by
  unfold endSlot
  split
  · split
    · exact (setDelay_onlyChanges t _).mono (by simp)
    · exact (setPc_onlyChanges t _).mono (by simp)
  · exact onlyChanges_refl _ _

/-- Completing STOP or IDLE changes the run state alone (rule R333). -/
theorem endHalt_onlyChanges (s t : State) : OnlyChanges [.run] t (endHalt s t) := by
  unfold endHalt
  split
  · split
    · exact setRun_onlyChanges t _
    · exact onlyChanges_refl _ _
  · exact onlyChanges_refl _ _

theorem endInstr_onlyChanges (s t : State) :
    OnlyChanges [.delay, .pc, .run, .inputs, .tick] t (endInstr s t) :=
  ((endSlot_onlyChanges s t).trans (endHalt_onlyChanges s _)).trans (sample_onlyChanges _)

theorem endInstr_keepsProgram (s t : State) : KeepsProgram t (endInstr s t) :=
  (endInstr_onlyChanges s t).keepsProgram (by simp [Part.isProgram])

/-! ### Every step -/

theorem step_keepsProgram {s t : State} (h : step s = .next t) : KeepsProgram s t := by
  cases stepCase_of_step h with
  | reset | locked | asleep | wake => exact .of_eq rfl rfl
  | exception pin run boundary =>
    have h' : KeepsProgram { s with run := .running } _ := boundaryException_keepsProgram boundary
    exact h'
  | instr pin run boundary fetched slot executed =>
    exact (exec_keepsProgram executed).trans (endInstr_keepsProgram s _)

/-- Settles O4: of the things a step can be, each keeps the chip and program memory. -/
theorem stepKeepsProgram : Obligations.StepKeepsProgram := fun _ _ h => step_keepsProgram h

end Sys2Proof.Machine
end

section
/-! The flags among the parts an instruction can change are those its rule lists (rules R7, R32). -/

namespace Sys2Proof.Machine

/-- Of the special purpose registers SR1 alone holds flags. -/
theorem eq_sr1_of_flag_mem_sprParts {bank : Bool} {r : Spr} :
    ∀ p ∈ flagParts, p ∈ sprParts bank r → r = .sr1 := by
  cases r <;> simp [flagParts, sprParts, sr0Parts]

theorem flag_not_mem_idmParts (bank : Bool) (m : Idm) : ∀ p ∈ flagParts, p ∉ idmParts bank m := by
  unfold idmParts
  cases m.mode <;> cases m.idx <;> simp [flagParts]

/-- SWAP with SR1 has no meaning, so a SWAP that completes writes no flag (rule R280). -/
theorem swap_not_status {d : Gpr} {r : Spr} {s t : State} (h : exec (.swap d r) s = .next t) : r.isStatus = false := by
  have h' : execSwap d r s = .next t := h
  unfold execSwap at h'
  split at h'
  · cases h'
  · simp_all

/-- Beside the flags its rule lists, an instruction's own parts hold a flag only for AND of two registers, where it is C,
and for SWAP with SR1. -/
theorem flag_mem_ownParts {s : State} {i : Instr} :
    ∀ p ∈ flagParts, p ∈ ownParts s i →
      p ∈ flagsWritten i ∨ (p = .flagC ∧ ∃ d g, i = .andReg d g) ∨ ∃ d, i = .swap d .sr1 := by
  intro p hp ho
  cases i
  case andReg d g =>
    have : p = .flagC := by
      rcases List.mem_cons.mp ho with rfl | hc
      · simp [flagParts] at hp
      · exact List.mem_singleton.mp hc
    exact .inr (.inl ⟨this, d, g, rfl⟩)
  case swap d r =>
    rcases List.mem_cons.mp ho with rfl | hr
    · simp [flagParts] at hp
    · obtain rfl := eq_sr1_of_flag_mem_sprParts p hp hr
      exact .inr (.inr ⟨d, rfl⟩)
  case ldSprGpr r d =>
    obtain rfl := eq_sr1_of_flag_mem_sprParts p hp ho
    exact .inl hp
  case popSpr r =>
    rcases List.mem_cons.mp ho with rfl | hr
    · simp [flagParts] at hp
    · obtain rfl := eq_sr1_of_flag_mem_sprParts p hp hr
      exact .inl hp
  case ldSpr0Imm r imm =>
    have := eq_sr1_of_flag_mem_sprParts p hp ho
    cases r <;> simp [spr0ToSpr] at this
  case stIdm m d =>
    cases hd : idmDisplacement s.chip m <;> simp [ownParts, hd] at ho
    simp [ho, flagParts] at hp
  all_goals
    simp only [flagParts, List.mem_cons, List.not_mem_nil, or_false] at hp
    rcases hp with rfl | rfl | rfl | rfl <;> simp [ownParts, sr0Parts, pushAddrParts] at ho

/-- AND of two registers on a chip that keeps C writes Rd, Z, N and PC alone (rule R144). -/
theorem exec_andReg_keep {d g : Gpr} {s : State} (h : s.chip.logicC = .keep) :
    exec (.andReg d g) s = .next (andWith d (s.x g) s) := by
  show Host.Outcome.next (andRegWith d (s.x g) s) = _
  unfold andRegWith
  rw [h]

/-- Settles O6: the frame of all instructions names no flag beyond the listed ones, but for the two cases that
`flag_mem_ownParts` leaves. -/
theorem unlistedFlagsKept : Obligations.UnlistedFlagsKept := by
  intro i s t h p hp hw hand
  by_cases ho : p ∈ ownParts s i
  · rcases flag_mem_ownParts p hp ho with hl | ⟨rfl, d, g, rfl⟩ | ⟨d, rfl⟩
    · exact absurd hl hw
    · rw [exec_andReg_keep (hand rfl d g rfl)] at h
      cases h
      exact writeLogic_onlyChanges s d _ .flagC (by simp)
    · exact absurd (swap_not_status h) (by decide)
  · refine exec_onlyChanges h p ?_
    simp only [execParts, List.mem_cons, List.mem_append, not_or]
    refine ⟨?_, ⟨ho, hw⟩, ?_⟩
    · rintro rfl
      simp [flagParts] at hp
    · split
      · exact flag_not_mem_idmParts _ _ p hp
      · exact List.not_mem_nil

end Sys2Proof.Machine
end

section
/-! The two-operand instructions: the four forms of the second operand said once (`withSource`), what the shared effects
write in exact arithmetic, and ADD, SUB, AND, OR and XOR from these. -/

namespace Sys2Proof.Machine

/-! ### What the shared effects write -/

@[simp] theorem writeSum_xb (s : State) (d : Gpr) (o : Sum) : (s.writeSum d o).xb s.bankSel d = o.r :=
  s.setX_xb_same d o.r
@[simp] theorem writeSum_c (s : State) (d : Gpr) (o : Sum) : (s.writeSum d o).c = o.c := by
  simp [State.writeSum, State.arithFlags]
@[simp] theorem writeSum_z (s : State) (d : Gpr) (o : Sum) : (s.writeSum d o).z = (o.r == 0#8) := by
  simp [State.writeSum, State.arithFlags]
@[simp] theorem writeSum_v (s : State) (d : Gpr) (o : Sum) : (s.writeSum d o).v = o.v := by
  simp [State.writeSum, State.arithFlags]
@[simp] theorem writeSum_n (s : State) (d : Gpr) (o : Sum) : (s.writeSum d o).n = (o.v ^^ o.r.msb) := by
  simp [State.writeSum, State.arithFlags]
@[simp] theorem writeSum_pc (s : State) (d : Gpr) (o : Sum) : (s.writeSum d o).pc = seq s.pc 1 := rfl
@[simp] theorem writeSum_idb (s : State) (d : Gpr) (o : Sum) : (s.writeSum d o).idb = s.idb := rfl

@[simp] theorem writeLogic_xb (s : State) (d : Gpr) (r : Byte) : (s.writeLogic d r).xb s.bankSel d = r :=
  s.setX_xb_same d r
@[simp] theorem writeLogic_z (s : State) (d : Gpr) (r : Byte) : (s.writeLogic d r).z = (r == 0#8) := by
  simp [State.writeLogic, State.logicFlags]
@[simp] theorem writeLogic_n (s : State) (d : Gpr) (r : Byte) : (s.writeLogic d r).n = r.msb := by
  simp [State.writeLogic, State.logicFlags]
@[simp] theorem writeLogic_pc (s : State) (d : Gpr) (r : Byte) : (s.writeLogic d r).pc = seq s.pc 1 := rfl
@[simp] theorem writeLogic_idb (s : State) (d : Gpr) (r : Byte) : (s.writeLogic d r).idb = s.idb := rfl

/-! ### The flags in exact arithmetic -/

/-- A byte is zero when its number is. -/
theorem byte_beq_zero (r : Byte) : (r == 0#8) = decide (r.toNat = 0) := by
  rw [Bool.eq_iff_iff, beq_iff_eq, decide_eq_true_eq, ← BitVec.toNat_inj]
  rfl

/-- An addition whose carry, zero, overflow and sign flags are those of `addC` has the flags of the exact sums. -/
theorem sumFlags_addC {a b : Byte} {cin : Bool} {t : State} (hc : t.c = (addC a b cin).c)
    (hz : t.z = ((addC a b cin).r == 0#8)) (hv : t.v = (addC a b cin).v)
    (hn : t.n = ((addC a b cin).v ^^ (addC a b cin).r.msb)) :
    SumFlags (a.toNat + b.toNat + cin.toNat) (a.toInt + b.toInt + cin.toNat) t :=
  ⟨hc.trans (addC_c a b cin), hz.trans (by rw [byte_beq_zero, addC_r]), hv.trans (addC_v a b cin),
    hn.trans (addC_n a b cin)⟩

/-- Adding the complement with carry `cin` subtracts, with borrow `1 - cin`: the exact sums differ from the exact
differences by 256 and by nothing. -/
theorem sum_not_eq_sub (a b : Byte) (cin : Bool) :
    ((a.toNat + (~~~b).toNat + cin.toNat : Nat) : Int) = (a.toNat : Int) - b.toNat - (1 - cin.toNat) + 256 ∧
      a.toInt + (~~~b).toInt + cin.toNat = a.toInt - b.toInt - (1 - cin.toNat) := by
  have hb := b.isLt
  have hn : (~~~b).toNat = 255 - b.toNat := by simp [BitVec.toNat_not]
  have hi : (~~~b).toInt = -1 - b.toInt := by
    rw [BitVec.toInt_eq_toNat_cond, BitVec.toInt_eq_toNat_cond, hn]
    split <;> split <;> omega
  rw [hn, hi]
  omega

/-- The flags of such a sum, with 256 more than the exact difference `x`, are those of the difference. -/
theorem SumFlags.difference {n : Nat} {x y : Int} {t : State} (h : SumFlags n y t) (hx : (n : Int) = x + 256) :
    DifferenceFlags x y t := by
  obtain ⟨hc, hz, hs⟩ := h
  refine ⟨hc.trans (decide_eq_decide.mpr ?_), hz.trans (decide_eq_decide.mpr ?_), hs⟩ <;> omega

/-! ### The forms of the second operand -/

/-- The effect `f` with the value of the second operand, in each of its forms (rule R140). -/
def withSource (src : Source) (f : Byte → State → State) (s : State) : Res State :=
  match src with
  | .imm v => .next (f v s)
  | .adr a => withAdr a f s
  | .reg g => withReg g f s
  | .idm m => withIdm m f s

theorem exec_addForm (d : Gpr) (src : Source) (s : State) : exec (addForm d src) s = withSource src (addWith d) s := by
  cases src <;> rfl

theorem exec_subForm (d : Gpr) (src : Source) (s : State) : exec (subForm d src) s = withSource src (subWith d) s := by
  cases src <;> rfl

theorem exec_orForm (d : Gpr) (src : Source) (s : State) : exec (orForm d src) s = withSource src (orWith d) s := by
  cases src <;> rfl

theorem exec_xorForm (d : Gpr) (src : Source) (s : State) : exec (xorForm d src) s = withSource src (xorWith d) s := by
  cases src <;> rfl

/-- AND, but for the register form on a chip where that clears C (rule R144, D15). -/
theorem exec_andForm {d : Gpr} {src : Source} {s : State} (h : s.chip.logicC = .keep ∨ ∀ g, src ≠ .reg g) :
    exec (andForm d src) s = withSource src (andWith d) s := by
  cases src with
  | reg g => exact exec_andReg_keep (h.resolve_right fun hg => hg g rfl)
  | imm v | adr a | idm m => rfl

/-- An operand that has a value gives it to the effect, and the index update that may follow leaves the general
registers, SR1 and PC as the effect has them. -/
theorem withSource_completes {src : Source} {b : Byte} {f : Byte → State → State} {w : List Part} {s : State}
    (hv : src.value s = some b) (hw : OnlyChanges w s (f b s)) (hb : (f b s).idb = s.idb) :
    Completes (withSource src f s) fun t =>
      (t.gpr = (f b s).gpr ∧ t.sr1 = (f b s).sr1 ∧ t.pc = (f b s).pc) ∧ OnlyChanges (w ++ src.parts s) s t := by
  have plain : Completes (.next (f b s)) fun t =>
      (t.gpr = (f b s).gpr ∧ t.sr1 = (f b s).sr1 ∧ t.pc = (f b s).pc) ∧ OnlyChanges (w ++ []) s t :=
    ⟨f b s, rfl, ⟨rfl, rfl, rfl⟩, hw.mono (by simp)⟩
  cases src with
  | imm v =>
    cases hv
    exact plain
  | adr a =>
    cases hv
    exact plain
  | reg g =>
    cases hv
    exact plain
  | idm m =>
    unfold Source.value at hv
    dsimp only at hv
    split at hv
    case h_2 => cases hv
    case h_1 disp hd =>
      cases hv
      obtain ⟨hg, -, hf, hp⟩ := idmUpdate_keeps (f (s.dmRead (s.idmAddr m disp)) s) m disp
      exact ⟨_, withIdm_eq_next.mpr ⟨disp, hd, rfl⟩, ⟨hg, hf, hp⟩, hw.idmUpdate m disp hb⟩

/-- An effect that writes an 8-bit sum to Rd, with any operand. -/
theorem withSource_writesSum {src : Source} {a b b' : Byte} {cin : Bool} {d : Gpr} {f : Byte → State → State} {s : State}
    (hv : src.value s = some b) (hf : f b s = s.writeSum d (addC a b' cin)) :
    WritesSum s d (src.parts s) (a.toNat + b'.toNat + cin.toNat) (a.toInt + b'.toInt + cin.toNat)
      (withSource src f s) := by
  obtain ⟨t, ht, ⟨hg, hr, hp⟩, ho⟩ :=
    withSource_completes hv (hf ▸ writeSum_onlyChanges s d (addC a b' cin)) (hf ▸ writeSum_idb s d _)
  rw [hf] at hg hr hp
  obtain ⟨hc, hz, hv, hn⟩ := State.flags_congr hr
  refine ⟨t, ht, ?_, ?_, hp, ho.mono ?_⟩
  · rw [State.xb_congr hg, writeSum_xb, addC_r]
  · exact sumFlags_addC (hc.trans (writeSum_c ..)) (hz.trans (writeSum_z ..)) (hv.trans (writeSum_v ..))
      (hn.trans (writeSum_n ..))
  · simp [writesGpr]
    tauto

/-- A sum that exceeds the exact difference `x` by 256, and whose signed sum is the difference `y`, is a subtraction. -/
theorem WritesSum.difference {s : State} {d : Gpr} {extra : List Part} {n : Nat} {x y : Int} {o : Res State}
    (h : WritesSum s d extra n y o) (hx : (n : Int) = x + 256) : WritesDifference s d extra x y o := by
  obtain ⟨t, ht, hr, hf, hp, hc⟩ := h
  exact ⟨t, ht, by rw [hr]; omega, hf.difference hx, hp, hc⟩

/-- An effect that moves or computes a byte bit by bit into Rd, with any operand. -/
theorem withSource_writesByte {src : Source} {b r : Byte} {d : Gpr} {f : Byte → State → State} {s : State}
    (hv : src.value s = some b) (hf : f b s = s.writeLogic d r) :
    WritesByte s d (src.parts s) r (withSource src f s) := by
  obtain ⟨t, ht, ⟨hg, hr, hp⟩, ho⟩ :=
    withSource_completes hv (hf ▸ writeLogic_onlyChanges s d r) (hf ▸ writeLogic_idb s d _)
  rw [hf] at hg hr hp
  obtain ⟨-, hz, -, hn⟩ := State.flags_congr hr
  refine ⟨t, ht, ?_, ⟨?_, ?_⟩, hp, ho.mono ?_⟩
  · rw [State.xb_congr hg, writeLogic_xb]
  · rw [hz, writeLogic_z, byte_beq_zero]
  · rw [hn, writeLogic_n, BitVec.msb_eq_decide]
  · simp [writesGpr]
    tauto

/-! ### ADD, SUB, AND, OR, XOR -/

/-- Settles O27: ADD is the addition with carry in 0. -/
theorem addAddsOperand : Obligations.AddAddsOperand := by
  intro d src b s hv
  rw [exec_addForm]
  simpa using withSource_writesSum (cin := false) hv rfl

/-- Settles O28: SUB adds the complement with carry in 1, which is the exact difference plus 256. -/
theorem subSubtractsOperand : Obligations.SubSubtractsOperand := by
  intro d src b s hv
  obtain ⟨hx, hy⟩ := sum_not_eq_sub (s.x d) b true
  have h := (withSource_writesSum (f := subWith d) hv rfl).difference hx
  rw [hy] at h
  rw [exec_subForm]
  simpa using h

/-- The register form of AND on a chip with AND_RR_CLEARS: the same write, and C cleared. -/
theorem exec_andReg_clears {d g : Gpr} {s : State} (h : s.chip.logicC = .andRRClears) :
    exec (.andReg d g) s = .next (andWith d (s.x g) s).clearC := by
  show Host.Outcome.next (andRegWith d (s.x g) s) = _
  unfold andRegWith
  rw [h]

/-- Settles O30: the first part by the forms, the second by the extra write of C. -/
theorem andMasksOperand : Obligations.AndMasksOperand := by
  constructor
  · intro d src b s hv hc
    rw [exec_andForm hc]
    exact withSource_writesByte hv rfl
  · intro d g s hc
    rw [exec_andReg_clears hc]
    have ho := (writeLogic_onlyChanges s d (s.x d &&& s.x g)).trans (clearC_onlyChanges _)
    refine ⟨⟨_, rfl, ?_, ⟨?_, ?_⟩, rfl, ho.mono ?_⟩, _, rfl, State.setFlags_c ..⟩
    · exact writeLogic_xb ..
    · rw [State.clearC, State.setFlags_z, andWith, writeLogic_z, byte_beq_zero]
    · rw [State.clearC, State.setFlags_n, andWith, writeLogic_n, BitVec.msb_eq_decide]
    · simp [writesGpr]

/-- Settles O31: both write a byte computed bit by bit, in every form. -/
theorem orXorCombineOperand : Obligations.OrXorCombineOperand := by
  intro d src b s hv
  rw [exec_orForm, exec_xorForm]
  exact ⟨withSource_writesByte hv rfl, withSource_writesByte hv rfl⟩

end Sys2Proof.Machine
end

section
/-! Every step keeps the invariant `State.Inv`. The invariant reads seven fields of the state; what leaves them alone keeps
it, and of the operations that write them each keeps it by a lemma of its own. -/

namespace Sys2Proof.Machine

/-- The fields the invariant reads. -/
def State.invFields (s : State) :
    List Host.Cell × List (Nat × Word) × BitVec 6 × Bool × Vector HsSlot 64 × Bool × Chip :=
  (s.dm, s.pm, s.sptr, s.hsFull, s.hs, s.sfPending, s.chip)

theorem State.invFields_eq_iff {s t : State} :
    t.invFields = s.invFields ↔
      t.dm = s.dm ∧ t.pm = s.pm ∧ t.sptr = s.sptr ∧ t.hsFull = s.hsFull ∧ t.hs = s.hs ∧ t.sfPending = s.sfPending ∧
        t.chip = s.chip := by
  simp only [State.invFields, Prod.mk.injEq]

theorem State.hsUsed_congr {s t : State} (hp : t.sptr = s.sptr) (hf : t.hsFull = s.hsFull) : t.hsUsed = s.hsUsed := by
  unfold State.hsUsed
  rw [hp, hf]

theorem State.Inv.congr {s t : State} (hs : s.Inv) (h : t.invFields = s.invFields) : t.Inv := by
  obtain ⟨hdm, hpm, hptr, hfull, hhs, hsf, hchip⟩ := State.invFields_eq_iff.mp h
  constructor
  · exact hdm ▸ hs.dm
  · exact hpm ▸ hs.pm
  · rw [hfull, hptr]
    exact hs.full
  · rw [hchip, State.hsUsed_congr hptr hfull]
    exact hs.depth
  · rw [hchip, hsf]
    exact hs.waits
  · intro i
    rw [hchip, State.hsSlot_congr hhs]
    exact hs.slots i

/-! ### Updates that leave the fields alone -/

theorem setIdReg_invFields (s : State) (r : IdxReg) (a : DAddr) : (s.setIdReg r a).invFields = s.invFields := by
  simp [State.invFields_eq_iff]

theorem setSpr_invFields (s : State) (r : Spr) (v : Byte) : (s.setSpr r v).invFields = s.invFields := by
  simp [State.invFields_eq_iff]

theorem idmUpdate_invFields (s : State) (m : Idm) (disp : DAddr) : (s.idmUpdate m disp).invFields = s.invFields := by
  rcases s.idmUpdate_spec m disp with h | h <;> rw [h]
  exact setIdReg_invFields s _ _

theorem andRegWith_invFields (d : Gpr) (b : Byte) (s : State) : (andRegWith d b s).invFields = s.invFields := by
  unfold andRegWith
  split <;> rfl

theorem endSlot_invFields (s t : State) : (endSlot s t).invFields = t.invFields := by
  unfold endSlot
  split
  · split <;> rfl
  · rfl

theorem endHalt_invFields (s t : State) : (endHalt s t).invFields = t.invFields := by
  unfold endHalt
  split
  · split <;> rfl
  · rfl

theorem endInstr_invFields (s t : State) : (endInstr s t).invFields = t.invFields :=
  (endHalt_invFields s (endSlot s t)).trans (endSlot_invFields s t)

/-- An operation followed by an update: the result keeps the invariant if it does so after every answer. -/
theorem andThen_keepsInv {α : Type} {o : Res α} {f : α → State} {t : State}
    (h : andThen o (fun a => .next (f a)) = .next t) (hf : ∀ a, o = .next a → (f a).Inv) : t.Inv := by
  obtain ⟨a, ha, ht⟩ := andThen_eq_next.mp h
  cases ht
  exact hf a ha

/-! ### Data memory -/

/-- A store into data memory keeps its canonical form (rule R61). -/
theorem State.Inv.dmStore {s : State} (hs : s.Inv) (a : DAddr) (v : Byte) :
    State.Inv { s with dm := memWrite s.dm a.toNat v } :=
  { dm := memWf_memWrite hs.dm a.isLt v, pm := hs.pm, full := hs.full, depth := hs.depth, waits := hs.waits,
    slots := hs.slots }

theorem dmWrite_keepsInv {a : DAddr} {v : Byte} {s t : State} (hs : s.Inv) (h : dmWrite a v s = .next t) : t.Inv := by
  obtain ⟨-, rfl⟩ := dmWrite_eq_next.mp h
  exact hs.dmStore a v

theorem storeIdm_keepsInv {m : Idm} {v : Byte} {s t : State} (hs : s.Inv) (h : storeIdm m v s = .next t) : t.Inv := by
  obtain ⟨disp, -, -, rfl⟩ := storeIdm_eq_next.mp h
  exact (hs.dmStore _ v).congr (idmUpdate_invFields _ m disp)

theorem withIdm_keepsInv {m : Idm} {f : Byte → State → State} {s t : State} (hs : s.Inv) (h : withIdm m f s = .next t)
    (hf : ∀ b, (f b s).invFields = s.invFields) : t.Inv := by
  obtain ⟨disp, -, rfl⟩ := withIdm_eq_next.mp h
  exact hs.congr ((idmUpdate_invFields _ m disp).trans (hf _))

theorem bitOp_keepsInv {adr : Byte} {f : Byte → Byte} {s t : State} (hs : s.Inv) (h : bitOp adr f s = .next t) :
    t.Inv := by
  refine andThen_keepsInv h fun u hu => ?_
  have stored : u.Inv := by
    split at hu
    · exact dmWrite_keepsInv hs hu
    · cases hu
      exact hs.congr rfl
  exact stored.congr rfl

/-! ### The hardware stack -/

/-- There are at most 64 slots, in use or not. -/
theorem State.hsUsed_le (s : State) : s.hsUsed ≤ 64 := by
  unfold State.hsUsed
  split <;> omega

theorem State.hsUsed_of_full {s : State} (h : s.hsFull = true) : s.hsUsed = 64 := if_pos h

theorem State.hsUsed_of_not_full {s : State} (h : s.hsFull = false) : s.hsUsed = s.sptr.toNat := if_neg (by simp [h])

/-- Raising `sptr` within the 64 slots uses so many more of them, also when `sptr` wraps (rule R44). -/
theorem raiseSptr_hsUsed {s : State} {k : Nat} (h : s.hsUsed + k ≤ 64) : (s.raiseSptr k).hsUsed = s.hsUsed + k := by
  by_cases hk : s.hsUsed + k = 64
  · rw [State.hsUsed_of_full (by simpa using hk), hk]
  · rw [State.hsUsed_of_not_full (by simpa using hk), State.raiseSptr_sptr, BitVec.toNat_add, BitVec.toNat_ofNat]
    cases hf : s.hsFull with
    | true => have := State.hsUsed_of_full hf; omega
    | false => have := State.hsUsed_of_not_full hf; omega

/-- Lowering `sptr` by slots that are in use frees them, also when `sptr` had wrapped (rule R44). -/
theorem lowerSptr_hsUsed_le {s : State} {k : Nat} (h : k ≤ s.hsUsed) :
    (s.lowerSptr k).hsUsed ≤ s.hsUsed := by
  rw [State.hsUsed_of_not_full (s := s.lowerSptr k) rfl, State.lowerSptr_sptr]
  cases hf : s.hsFull with
  | true => have := State.hsUsed_of_full hf; omega
  | false =>
    have hu := State.hsUsed_of_not_full hf
    rw [BitVec.toNat_sub, BitVec.toNat_ofNat]
    omega

/-- Freeing slots that are in use keeps the invariant, whatever is done with what they hold. -/
theorem State.Inv.lowerSptr {s : State} {k : Nat} (hs : s.Inv) (h : k ≤ s.hsUsed) : (s.lowerSptr k).Inv where
  dm := hs.dm
  pm := hs.pm
  full := fun hf => Bool.noConfusion hf
  depth := fun hr => (lowerSptr_hsUsed_le h).trans (hs.depth hr)
  waits := hs.waits
  slots := hs.slots

/-- Using more slots keeps the invariant where there is room for them: within HS_DEPTH on a chip whose pushes stop there,
within the 64 on any. -/
theorem State.Inv.raiseSptr {s : State} {k : Nat} (hs : s.Inv) (h64 : s.hsUsed + k ≤ 64)
    (hd : s.chip.stackFull = .refuse → s.hsUsed + k ≤ s.chip.hsDepth.val) : (s.raiseSptr k).Inv where
  dm := hs.dm
  pm := hs.pm
  full := by
    intro hr
    have hk : s.hsUsed + k = 64 := by simpa using hr
    rw [State.raiseSptr_sptr, ← BitVec.toNat_inj, BitVec.toNat_add, BitVec.toNat_ofNat]
    cases hf : s.hsFull with
    | true =>
      have hu := State.hsUsed_of_full hf
      have hw := congrArg BitVec.toNat (hs.full hf)
      rw [BitVec.toNat_ofNat] at hw ⊢
      omega
    | false =>
      have hu := State.hsUsed_of_not_full hf
      rw [BitVec.toNat_ofNat]
      omega
  depth := fun hr => (raiseSptr_hsUsed h64).trans_le (hd hr)
  waits := hs.waits
  slots := hs.slots

/-- Writing a slot keeps the invariant if what is written fits the chip (rule R42). -/
theorem State.Inv.setHsSlot {s : State} {v : HsSlot} (hs : s.Inv) (i : BitVec 6)
    (hv : slotFits s.chip.np64kw v = true) : (s.setHsSlot i v).Inv where
  dm := hs.dm
  pm := hs.pm
  full := hs.full
  depth := hs.depth
  waits := hs.waits
  slots := by
    intro j
    rw [State.hsSlot_setHsSlot]
    split
    · exact hv
    · exact hs.slots j

/-- After `needRoom` there is room, and the invariant holds as before: it raises the stack-full exception only on a chip
that has it (rules R44, R324). -/
theorem needRoom_room {k : Nat} {s t : State} (h : needRoom k s = .next t) :
    t.hsUsed + k ≤ 64 ∧ (t.chip.stackFull = .refuse → t.hsUsed + k ≤ t.chip.hsDepth.val) := by
  rcases needRoom_spec h with ⟨hd, rfl⟩ | ⟨v, hv, -, h64, rfl⟩
  · have := t.chip.hsDepth.isLt
    exact ⟨by omega, fun _ => hd⟩
  · exact ⟨h64, fun hr => absurd (hv.symm.trans hr) (by simp)⟩

theorem needRoom_keepsInv {k : Nat} {s t : State} (hs : s.Inv) (h : needRoom k s = .next t) : t.Inv := by
  rcases needRoom_spec h with ⟨-, rfl⟩ | ⟨v, hv, -, -, rfl⟩
  · exact hs
  · have traps : s.chip.stackFull ≠ .refuse := by simp [hv]
    exact { dm := hs.dm, pm := hs.pm, full := hs.full, depth := hs.depth, waits := fun hr => absurd hr traps,
            slots := hs.slots }

theorem pushByte_keepsInv {v : Byte} {s t : State} (hs : s.Inv) (h : pushByte v s = .next t) : t.Inv := by
  obtain ⟨u, hu, rfl⟩ := pushByte_spec h
  obtain ⟨h64, hd⟩ := needRoom_room hu
  exact ((needRoom_keepsInv hs hu).setHsSlot _ rfl).raiseSptr h64 hd

theorem pushAddr_keepsInv {a : PAddr} {s t : State} (hs : s.Inv) (h : pushAddr a s = .next t) : t.Inv := by
  obtain ⟨u, hu, rfl⟩ := pushAddr_spec h
  obtain ⟨h64, hd⟩ := needRoom_room hu
  have fits : slotFits u.chip.np64kw (if u.chip.np64kw then .addr20 a else .addr16 (a.extractLsb' 0 16)) = true := by
    cases u.chip.np64kw <;> rfl
  exact (((needRoom_keepsInv hs hu).setHsSlot _ fits).setHsSlot _ rfl).raiseSptr h64 hd

theorem dropSlots_keepsInv {k : Nat} {s t : State} (hs : s.Inv) (h : dropSlots k s = .next t) : t.Inv := by
  obtain ⟨hk, rfl⟩ := dropSlots_eq_next.mp h
  exact hs.lowerSptr hk

theorem popByte_keepsInv {p : Byte × State} {s : State} (hs : s.Inv) (h : popByte s = .next p) : p.2.Inv := by
  obtain ⟨hk, -, hp⟩ := popByte_eq_next.mp h
  exact hp ▸ hs.lowerSptr hk

theorem popAddr_keepsInv {s t : State} (hs : s.Inv) (h : popAddr s = .next t) : t.Inv := by
  obtain ⟨hk, a, -, rfl⟩ := popAddr_eq_next.mp h
  exact (hs.lowerSptr hk).congr rfl

/-! ### Exceptions and reset -/

theorem takeException_keepsInv {v : PAddr} {s t : State} (hs : s.Inv) (h : takeException v s = .next t) : t.Inv := by
  obtain ⟨u, hu, rfl⟩ := takeException_eq_next.mp h
  exact (pushAddr_keepsInv hs hu).congr rfl

/-- A stack-full exception that no longer waits. -/
theorem State.Inv.answerStackFull {s : State} (hs : s.Inv) : State.Inv { s with sfPending := false } :=
  { dm := hs.dm, pm := hs.pm, full := hs.full, depth := hs.depth, waits := fun _ => rfl, slots := hs.slots }

theorem boundaryException_keepsInv {s t : State} (hs : s.Inv) (h : boundaryException s = some (.next t)) : t.Inv := by
  obtain ⟨-, ⟨v, -, ho⟩ | ⟨-, v, -, ho⟩⟩ := boundaryException_spec h
  · exact takeException_keepsInv hs.answerStackFull ho.symm
  · exact takeException_keepsInv hs ho.symm

theorem replicate_hsSlot {s : State} (h : s.hs = Vector.replicate 64 HsSlot.unspecified) (i : BitVec 6) :
    s.hsSlot i = .unspecified := by
  unfold State.hsSlot
  rw [h]
  simp [Vector.get_eq_getElem]

/-- Reset empties the stack and gives data memory some canonical contents (rules R48, R350). -/
theorem applyReset_keepsInv {s : State} (hs : s.Inv) : (applyReset s).Inv where
  dm := memWf_memOfCells dmSize _
  pm := hs.pm
  full := fun _ => rfl
  depth := fun _ => Nat.zero_le _
  waits := fun _ => rfl
  slots := fun i => by rw [replicate_hsSlot rfl]; rfl

/-! ### Instructions -/

theorem execLcall_keepsInv {cc : Cond} {imm : PAddr} {s t : State} (hs : s.Inv) (h : execLcall cc imm s = .next t) :
    t.Inv := by
  unfold execLcall at h
  split at h
  · exact andThen_keepsInv h fun u hu => (pushAddr_keepsInv hs hu).congr rfl
  · cases h
    exact hs.congr rfl

theorem execJnzd_invFields {n : Gpr} {imm : Byte} {s t : State} (h : execJnzd n imm s = .next t) :
    t.invFields = s.invFields := by
  unfold execJnzd at h
  dsimp only at h
  split at h
  · cases h
    rfl
  · split at h <;> cases h
    rfl

theorem execSys_invFields {imm : Byte} {s t : State} (h : execSys imm s = .next t) : t.invFields = s.invFields := by
  unfold execSys at h
  dsimp only at h
  split at h
  · split at h <;> cases h <;> rfl
  · cases h
    rfl

theorem loadTable_invFields {s t : State} (h : loadTable s = .next t) : t.invFields = s.invFields := by
  obtain ⟨w, -, ht⟩ := andThen_eq_next.mp h
  cases ht
  rfl

theorem execSwap_invFields {d : Gpr} {r : Spr} {s t : State} (h : execSwap d r s = .next t) :
    t.invFields = s.invFields := by
  unfold execSwap at h
  split at h <;> cases h
  exact setSpr_invFields s r _

/-- A conditional instruction that leaves the fields alone either way. -/
theorem ite_next_invFields {c : Prop} [Decidable c] {a b s t : State}
    (h : (if c then .next a else .next b : Res State) = .next t) (ha : a.invFields = s.invFields)
    (hb : b.invFields = s.invFields) : t.invFields = s.invFields := by
  split at h <;> cases h
  · exact ha
  · exact hb

/-- Every instruction keeps the invariant: the loads and stores of the stack and of data memory by the lemmas above, the
others because they do not touch what it reads. -/
theorem exec_keepsInv {i : Instr} {s t : State} (hs : s.Inv) (h : exec i s = .next t) : t.Inv := by
  cases i
  case addIdm d m | subIdm d m | cpIdm d m | ldIdm d m | andIdm d m | orIdm d m | xorIdm d m =>
    exact withIdm_keepsInv hs h fun _ => rfl
  case stAdr adr d => exact andThen_keepsInv h fun u hu => (dmWrite_keepsInv hs hu).congr rfl
  case stIdm m d => exact andThen_keepsInv h fun u hu => (storeIdm_keepsInv hs hu).congr rfl
  case bits adr bs => exact bitOp_keepsInv (f := (· ||| bitMask bs)) hs h
  case bitr adr bs => exact bitOp_keepsInv (f := (· &&& ~~~(bitMask bs))) hs h
  case bitc adr bs => exact bitOp_keepsInv (f := (· ^^^ bitMask bs)) hs h
  case pushGpr d | pushSpr r => exact andThen_keepsInv h fun u hu => (pushByte_keepsInv hs hu).congr rfl
  case popGpr d => exact andThen_keepsInv h fun p hp => (popByte_keepsInv hs hp).congr rfl
  case popSpr r =>
    exact andThen_keepsInv h fun p hp => (popByte_keepsInv hs hp).congr (setSpr_invFields p.2 r p.1)
  case pop => exact andThen_keepsInv h fun u hu => (dropSlots_keepsInv hs hu).congr rfl
  case calls imm => exact andThen_keepsInv h fun u hu => (pushAddr_keepsInv hs hu).congr rfl
  case lcall cc imm => exact execLcall_keepsInv hs h
  case ret => exact popAddr_keepsInv hs h
  case iret =>
    obtain ⟨u, hu, rfl⟩ := returnFromException_eq_next.mp h
    exact (popAddr_keepsInv hs hu).congr rfl
  case andReg d g =>
    cases h
    exact hs.congr (andRegWith_invFields d _ s)
  case ldSpr0Imm r imm | ldSprGpr r d =>
    cases h
    exact hs.congr (setSpr_invFields s _ _)
  case swap d r => exact hs.congr (execSwap_invFields h)
  case jnzd n imm => exact hs.congr (execJnzd_invFields h)
  case sys imm => exact hs.congr (execSys_invFields h)
  case ldc | ldcInc => exact andThen_keepsInv h fun u hu => (hs.congr (loadTable_invFields hu)).congr rfl
  case jr cc imm | ljp cc imm | llnk cc imm => exact hs.congr (ite_next_invFields h rfl rfl)
  all_goals
    cases h
    exact hs.congr rfl

/-- Settles O3: of the things a step can be, each keeps the invariant. -/
theorem stepKeepsInv : Obligations.StepKeepsInv := by
  intro s t hs h
  cases stepCase_of_step h with
  | reset => exact (applyReset_keepsInv hs).congr rfl
  | locked | asleep | wake => exact hs.congr rfl
  | exception pin run boundary =>
    have running : State.Inv { s with run := .running } := hs.congr rfl
    exact (boundaryException_keepsInv running boundary).congr rfl
  | instr pin run boundary fetched slot executed =>
    have begun : s.beginInstr.Inv := hs.congr rfl
    exact (exec_keepsInv begun executed).congr (endInstr_invFields s _)

/-- Settles O2: both memories are empty, and so is the stack. -/
theorem resetInv : Obligations.ResetInv where
  dm := reset_memWf.1
  pm := reset_memWf.2
  full := fun _ => rfl
  depth := fun _ => Nat.zero_le _
  waits := fun _ => rfl
  slots := fun i => by rw [replicate_hsSlot rfl]; rfl

end Sys2Proof.Machine
end

section
/-! What reset leaves, at the start and in the middle of a run (rules R40, R48, R350). -/

namespace Sys2Proof.Machine

theorem reset_xb (b : BitVec 2) (g : Gpr) : State.reset.xb b g = 0#8 := by
  simp [State.xb, State.reset, Vector.get_eq_getElem]

theorem reset_idxBank (k : Bool) : State.reset.idxBank k = { idh := 0#8, idl0 := 0#8, idl1 := 0#8 } := by
  cases k <;> rfl

/-- Settles O1: the fields are those `State.reset` names; the registers, the slots and the memories read as they do
everywhere. -/
theorem resetState : Obligations.ResetState :=
  ⟨rfl, rfl, rfl, rfl, rfl, rfl, rfl, replicate_hsSlot rfl, rfl, rfl, reset_xb, reset_idxBank, rfl, rfl, rfl, rfl, rfl,
    rfl, rfl, fun _ => memRead_nil _, fun _ => memRead_nil _, rfl, rfl⟩

/-- The step that serves a reset request, whatever the run state. -/
theorem step_of_resetPin {s : State} (h : s.resetPin = true) : step s = .next (applyReset s).sample := by
  unfold step
  rw [if_pos h]

/-- Settles O21: the step is `applyReset` and the sampling, which keeps what `applyReset` gave. -/
theorem resetStep : Obligations.ResetStep := by
  intro s h
  refine ⟨_, step_of_resetPin h, ?_⟩
  exact ⟨rfl, rfl, rfl, rfl, rfl, rfl, rfl, rfl, rfl, replicate_hsSlot rfl, memWf_memOfCells dmSize _, fun _ => rfl, rfl,
    rfl⟩

end Sys2Proof.Machine
end

section
/-! The length of what decodes: the decoder answers a two-word instruction exactly for the words rule R123 says are the
first of two. -/

namespace Sys2Proof

theorem extract_toNat {w : Nat} (x : BitVec w) (lo len : Nat) :
    (x.extractLsb' lo len).toNat = x.toNat / 2 ^ lo % 2 ^ len := by
  rw [BitVec.extractLsb'_toNat, Nat.shiftRight_eq_div_pow]

theorem field_toNat (w : Word) (lo len : Nat) : (field w lo len).toNat = w.toNat / 2 ^ lo % 2 ^ len :=
  extract_toNat w lo len

/-- The first words of two by the fields the decoder looks at: group 100 with IR[12] = 0, and IR[7:4] from 1101 on. -/
theorem isFirstOfTwo_iff (w : Word) :
    isFirstOfTwo w = true ↔ (field w 13 3).toNat = 4 ∧ field w 12 1 ≠ 1#1 ∧ 13 ≤ (field w 4 4).toNat := by
  unfold isFirstOfTwo
  simp only [Bool.and_eq_true, beq_iff_eq, bne_iff_ne, ne_eq, ← BitVec.toNat_inj, field_toNat, BitVec.toNat_ofNat]
  omega

theorem isFirstOfTwo_eq_false_of_group {w : Word} (h : (field w 13 3).toNat ≠ 4) : isFirstOfTwo w = false :=
  Bool.eq_false_iff.mpr fun ht => h ((isFirstOfTwo_iff w).mp ht).1

theorem isFirstOfTwo_eq_false_of_bit {w : Word} (h : field w 12 1 = 1#1) : isFirstOfTwo w = false :=
  Bool.eq_false_iff.mpr fun ht => ((isFirstOfTwo_iff w).mp ht).2.1 h

theorem isFirstOfTwo_eq_false_of_low {w : Word} (h : (field w 6 2).toNat < 3) : isFirstOfTwo w = false := by
  refine Bool.eq_false_iff.mpr fun ht => ?_
  obtain ⟨-, -, ht⟩ := (isFirstOfTwo_iff w).mp ht
  rw [field_toNat] at h ht
  omega

/-! ### The one-word groups -/

theorem decodeImm_isLong (w : Word) : (decodeImm w).isLong = false := by
  unfold decodeImm
  split <;> rfl

theorem decodeIdm_isLong (w : Word) : (decodeIdm w).isLong = false := by
  unfold decodeIdm
  split <;> rfl

theorem decodeAdr_isLong (w : Word) : (decodeAdr w).isLong = false := by
  unfold decodeAdr
  split <;> rfl

theorem decodeAdrCarry_isLong (w : Word) : (decodeAdrCarry w).isLong = false := by
  unfold decodeAdrCarry
  split <;> rfl

theorem decodeSpr0_isLong (w : Word) : (decodeSpr0 w).isLong = false := by
  unfold decodeSpr0
  split <;> rfl

theorem decodeCop_isLong (w : Word) : (decodeCop w).isLong = false := by
  unfold decodeCop
  split <;> rfl

theorem decodeSr0Bank_isLong (c : Chip) (w : Word) : (decodeSr0Bank c w).isLong = false := by
  unfold decodeSr0Bank
  split <;> rfl

theorem decodeBm_isLong (c : Chip) (w : Word) : (decodeBm c w).isLong = false := by
  unfold decodeBm
  split <;> rfl

theorem decodeAluOp1_isLong (w : Word) : (decodeAluOp1 w).isLong = false := by
  unfold decodeAluOp1
  split <;> rfl

theorem decodeAluOp2_isLong {w : Word} {i : Instr} (h : decodeAluOp2 w = .ok i) : i.isLong = false := by
  unfold decodeAluOp2 at h
  split at h <;> cases h <;> rfl

theorem decodeModOp1_isLong {w : Word} {i : Instr} (h : decodeModOp1 w = .ok i) : i.isLong = false := by
  unfold decodeModOp1 at h
  split at h <;> cases h <;> rfl

theorem decodeTwice_isLong {w : Word} {f : Gpr → Instr} {i : Instr} (h : decodeTwice w f = .ok i)
    (hf : ∀ g, (f g).isLong = false) : i.isLong = false := by
  unfold decodeTwice at h
  split at h <;> cases h
  exact hf _

theorem ite_isLong {p : Prop} [Decidable p] {i j : Instr} (hi : i.isLong = false) (hj : j.isLong = false) :
    (if p then i else j).isLong = false := by
  split
  · exact hi
  · exact hj

/-- The rows of rule R105's table below 40h: those with a table of their own by its lemma, the others as they stand. -/
theorem decodeLow_isLong {c : Chip} {w : Word} {i : Instr} (h : decodeLow c w = .ok i) : i.isLong = false := by
  unfold decodeLow at h
  split at h
  case h_4 => cases h; exact decodeBm_isLong c w
  case h_11 | h_12 => cases h; exact decodeAluOp1_isLong w
  case h_13 | h_14 => exact decodeAluOp2_isLong h
  case h_21 | h_22 | h_30 | h_32 => cases h; exact ite_isLong rfl rfl
  case h_27 | h_28 => exact decodeTwice_isLong h fun _ => rfl
  case h_33 | h_34 => exact decodeModOp1_isLong h
  all_goals cases h <;> rfl

/-- The long branches are where IR[7:4] is 1101 or more. -/
theorem decodeLong_isLong {w next : Word} {i : Instr} (h : decodeLong w next = .ok i) :
    i.isLong = true ∧ 13 ≤ (field w 4 4).toNat := by
  unfold decodeLong at h
  split at h <;> cases h
  all_goals exact ⟨rfl, by omega⟩

theorem isFirstOfTwo_eq_isLong_of_decodeControl {c : Chip} {w next : Word} {i : Instr}
    (h : decodeControl c w next = .ok i) (hg : (field w 13 3).toNat = 4) (hb : field w 12 1 ≠ 1#1) :
    isFirstOfTwo w = i.isLong := by
  unfold decodeControl at h
  split at h
  case h_1 hl => rw [decodeLow_isLong h, isFirstOfTwo_eq_false_of_low (by omega)]
  case h_2 hl =>
    cases h
    rw [decodeSr0Bank_isLong, isFirstOfTwo_eq_false_of_low (by omega)]
  case h_3 =>
    obtain ⟨hi, hl⟩ := decodeLong_isLong h
    rw [hi, isFirstOfTwo_iff]
    exact ⟨hg, hb, hl⟩

/-- What decodes has the length its first word says (rule R123). -/
theorem isFirstOfTwo_eq_isLong_of_decode {c : Chip} {w next : Word} {i : Instr} (h : decode c w next = .ok i) :
    isFirstOfTwo w = i.isLong := by
  unfold decode at h
  split at h
  case h_5 hg =>
    split at h
    case isTrue hb =>
      cases h
      rw [decodeSpr0_isLong, isFirstOfTwo_eq_false_of_bit hb]
    case isFalse hb => exact isFirstOfTwo_eq_isLong_of_decodeControl h hg hb
  all_goals
    rw [isFirstOfTwo_eq_false_of_group (by omega)]
    cases h
    symm
  case h_1 => exact decodeImm_isLong w
  case h_2 => exact decodeIdm_isLong w
  case h_3 => exact decodeAdr_isLong w
  case h_4 => exact decodeAdrCarry_isLong w
  case h_6 => rfl
  case h_7 => exact ite_isLong rfl rfl
  case h_8 => exact decodeCop_isLong w

end Sys2Proof
end

section
/-! The step of a running core at a boundary without an exception is the instruction at PC. -/

namespace Sys2Proof.Machine

/-- A fetch from mapped addresses gives the instruction the words decode to (rules R37, R67, R123). -/
theorem fetchInstr_of_decode {s : State} {i : Instr} (h1 : s.pmMapped s.pc = true)
    (h2 : i.isLong = true → s.pmMapped (seq s.pc 1) = true)
    (hd : decode s.chip (memRead s.pm s.pc.toNat) (if i.isLong then memRead s.pm (seq s.pc 1).toNat else 0#16) = .ok i) :
    fetchInstr s = .next i := by
  have hl := isFirstOfTwo_eq_isLong_of_decode hd
  have first : pmRead s.pc s = .next (memRead s.pm s.pc.toNat) := pmRead_eq_next.mpr ⟨h1, rfl⟩
  have words : fetch s =
      .next (memRead s.pm s.pc.toNat, if i.isLong then memRead s.pm (seq s.pc 1).toNat else 0#16) := by
    unfold fetch
    rw [first, andThen_next, hl]
    split
    · rename_i hi
      rw [pmRead_eq_next.mpr ⟨h2 hi, rfl⟩, andThen_next]
    · rfl
  unfold fetchInstr
  rw [words, andThen_next, hd]

theorem step_eq_stepInstr {s : State} (hp : s.resetPin = false) (hr : s.run = .running)
    (hb : boundaryException s = none) : step s = stepInstr s := by
  unfold step
  rw [if_neg (by simp [hp]), hr]
  simp only [hb]

/-- With nothing pending an instruction begins in the state as it is. -/
theorem beginInstr_of_none_pending {s : State} (hd : s.delay = none) (hh : s.haltAfter = none) : s.beginInstr = s := by
  unfold State.beginInstr
  rw [← hd, ← hh]

/-- With nothing pending before it an instruction ends with the sampling alone. -/
theorem endInstr_of_none_pending {s : State} (hd : s.delay = none) (hh : s.haltAfter = none) (t : State) :
    endInstr s t = t.sample := by
  unfold endInstr endHalt endSlot
  rw [hd, hh]

/-- Settles O13: the fetch gives `i`, and with nothing pending `beginInstr` and `endInstr` only sample. -/
theorem stepRunsDecodedInstruction : Obligations.StepRunsDecodedInstruction := by
  intro s i hp hr hb h1 h2 hd
  have hs : step s = if slotAllows s i then andThen (exec i s.beginInstr) fun t => .next (endInstr s t)
      else .refused .delaySlotNotOneCycle := by
    rw [step_eq_stepInstr hp hr hb, stepInstr, fetchInstr_of_decode h1 h2 hd, andThen_next]
  refine ⟨fun ha => ?_, fun ha => ?_, fun hn hh => ?_⟩
  · rw [hs, if_pos ha]
  · rw [hs, if_neg (by simp [ha])]
  · have ha : slotAllows s i = true := by simp [slotAllows, hn]
    rw [hs, if_pos ha, beginInstr_of_none_pending hn hh]
    simp only [endInstr_of_none_pending hn hh]

end Sys2Proof.Machine
end

section
/-! The special registers whose writers the rules list: TF, SR0, TBH and TBL stand in the frame of no other instruction
(rules R27, R29, R33). -/

namespace Sys2Proof.Machine

/-- The instruction is a listed writer of the part, if the part is one whose writers a rule lists. -/
def Part.hasWriter : Part → Instr → Bool
  | .tf, i => writesTf i
  | .sr0 _, i => writesSr0 i
  | .tbh, i => writesTable i
  | .tbl, i => writesTable i
  | _, _ => true

theorem flagParts_hasWriter (i : Instr) : ∀ p ∈ flagParts, p.hasWriter i = true := by
  simp [flagParts, Part.hasWriter]

theorem idmParts_hasWriter (bank : Bool) (m : Idm) (i : Instr) : ∀ p ∈ idmParts bank m, p.hasWriter i = true := by
  unfold idmParts
  cases m.mode <;> cases m.idx <;> simp [Part.hasWriter]

/-- Of the special purpose registers SR0 alone is one whose writers are listed. -/
theorem sprParts_hasWriter (bank : Bool) (r : Spr) (i : Instr) (h : r = .sr0 → writesSr0 i = true) :
    ∀ p ∈ sprParts bank r, p.hasWriter i = true := by
  cases r
  case sr0 => simpa [sprParts, sr0Parts, Part.hasWriter] using h
  all_goals simp [sprParts, flagParts, Part.hasWriter]

/-- A part that an instruction may change has it as a listed writer; SWAP with SR0 alone is none, which has no meaning. -/
theorem ownParts_hasWriter (s : State) (i : Instr) (h : ∀ d, i ≠ .swap d .sr0) :
    ∀ p ∈ ownParts s i, p.hasWriter i = true := by
  cases i
  case ldSpr0Imm r imm => exact sprParts_hasWriter _ _ _ (by cases r <;> simp [spr0ToSpr, writesSr0])
  case ldSprGpr r d => exact sprParts_hasWriter _ _ _ (by simp [writesSr0])
  case popSpr r =>
    simpa [ownParts, Part.hasWriter] using sprParts_hasWriter s.idb r (.popSpr r) (by simp [writesSr0])
  case swap d r =>
    simpa [ownParts, Part.hasWriter] using
      sprParts_hasWriter s.idb r (.swap d r) (by rintro rfl; exact absurd rfl (h d))
  case stIdm m d => cases hd : idmDisplacement s.chip m <;> simp [ownParts, hd, Part.hasWriter]
  all_goals simp [ownParts, Part.hasWriter, sr0Parts, pushAddrParts, writesTf, writesSr0, writesTable]

theorem execParts_hasWriter (s : State) (i : Instr) (h : ∀ d, i ≠ .swap d .sr0) :
    ∀ p ∈ execParts s i, p.hasWriter i = true := by
  intro p hp
  simp only [execParts, List.mem_cons, List.mem_append] at hp
  rcases hp with rfl | (ho | hf) | hm
  · rfl
  · exact ownParts_hasWriter s i h p ho
  · exact flagParts_hasWriter i p (flagsWritten_subset i p hf)
  · split at hm
    · exact idmParts_hasWriter _ _ i p hm
    · cases hm

/-- An instruction that is no listed writer of a part leaves it as it was. -/
theorem exec_same_of_not_writer {i : Instr} {s t : State} (h : exec i s = .next t) {p : Part}
    (hp : p.hasWriter i = false) : p.same s t := by
  refine exec_onlyChanges h p fun hm => ?_
  have noSwap : ∀ d, i ≠ .swap d .sr0 := by
    rintro d rfl
    exact absurd (swap_not_status h) (by decide)
  exact Bool.noConfusion (hp.symm.trans (execParts_hasWriter s i noSwap p hm))

/-- Settles O5: by the frame of all instructions, SR0 bit by bit. -/
theorem specialRegisterWriters : Obligations.SpecialRegisterWriters := by
  intro i s t h
  refine ⟨fun hw => exec_same_of_not_writer h (p := .tf) hw, fun hw => ?_, fun hw => ?_⟩
  · refine BitVec.eq_of_getLsbD_eq fun k hk => ?_
    exact exec_same_of_not_writer h (p := .sr0 ⟨k, hk⟩) hw
  · exact ⟨exec_same_of_not_writer h (p := .tbh) hw, exec_same_of_not_writer h (p := .tbl) hw⟩

end Sys2Proof.Machine
end

section
/-! Addresses of program memory in exact arithmetic: the advance in a page, the targets of jumps and calls, and what PC
becomes when a 20-bit address is loaded (rules R28, R38, R231, R236). -/

namespace Sys2Proof.Machine

theorem append_toNat {m n : Nat} (x : BitVec m) (y : BitVec n) : (x ++ y).toNat = x.toNat * 2 ^ n + y.toNat := by
  rw [BitVec.toNat_append, ← Nat.shiftLeft_add_eq_or_of_lt y.isLt, Nat.shiftLeft_eq]

/-- An address is its page and its offset in it. -/
theorem pageAppend_toNat (a : PAddr) (off : BitVec 12) :
    (a.extractLsb' 12 8 ++ off).toNat = a.toNat / 4096 * 4096 + off.toNat := by
  have := a.isLt
  rw [append_toNat, extract_toNat]
  omega

theorem seq_toNat (a : PAddr) (n : Nat) : (seq a n).toNat = a.toNat / 4096 * 4096 + (a.toNat % 4096 + n) % 4096 := by
  rw [seq, pageAppend_toNat, BitVec.toNat_add, extract_toNat, BitVec.toNat_ofNat]
  omega

theorem seq_seq (a : PAddr) (m n : Nat) : seq (seq a m) n = seq a (m + n) := by
  apply BitVec.eq_of_toNat_eq
  rw [seq_toNat, seq_toNat, seq_toNat]
  omega

theorem pageTarget_toNat (s : State) (off : BitVec 12) :
    (s.pageTarget off).toNat = s.pc.toNat / 4096 * 4096 + off.toNat := pageAppend_toNat s.pc off

/-- A taken JNZD goes 256 - imm words back from the delay slot, in its page. -/
theorem jnzdTarget_toNat (ds : PAddr) (imm : Byte) :
    (jnzdTarget ds imm).toNat / 4096 = ds.toNat / 4096 ∧
      (((jnzdTarget ds imm).toNat % 4096 : Nat) : Int) = ((ds.toNat % 4096 : Nat) - (256 - (imm.toNat : Int))) % 4096 := by
  have h : (jnzdTarget ds imm).toNat =
      ds.toNat / 4096 * 4096 + (ds.toNat % 4096 + (15 * 256 + imm.toNat)) % 4096 := by
    rw [jnzdTarget, pageAppend_toNat, BitVec.toNat_add, extract_toNat, append_toNat]
    simp
  omega

theorem extract_low16 (a : PAddr) : a.extractLsb' 0 16 = BitVec.ofNat 16 a.toNat := by
  apply BitVec.eq_of_toNat_eq
  rw [extract_toNat, BitVec.toNat_ofNat]
  omega

/-- Loading 16 bits keeps PC[19:16] (rule R231 (c)). -/
theorem loadsPc_of_low16 {s : State} (h : s.chip.np64kw = false) (a : PAddr) :
    LoadsPc s a (s.pc.extractLsb' 16 4 ++ BitVec.ofNat 16 a.toNat) := by
  have := s.pc.isLt
  unfold LoadsPc
  rw [if_neg (by simp [h]), append_toNat, extract_toNat, BitVec.toNat_ofNat]
  omega

theorem loadsPc_longTarget (s : State) (a : PAddr) : LoadsPc s a (s.longTarget a) := by
  unfold State.longTarget
  split
  · rename_i h
    exact (if_pos h).mpr rfl
  · rename_i h
    rw [extract_low16]
    exact loadsPc_of_low16 (by simpa using h) a

theorem il_toNat (s : State) : s.il.toNat = s.ilNat := by
  have hh := s.ilh.isLt
  have hl := s.ill.isLt
  rw [State.il, State.ilNat, append_toNat, append_toNat, extract_toNat]
  omega

theorem savesLink_setLink (s : State) (a : PAddr) : SavesLink s (s.setLink a) a := by
  have := a.isLt
  refine ⟨?_, ?_, ?_⟩
  · rw [State.setLink, extract_toNat]
    omega
  · rw [State.setLink, extract_toNat]
    rfl
  · split
    · rename_i h
      rw [State.setLink, if_pos h, append_toNat, extract_toNat, BitVec.toNat_ofNat]
      omega
    · rename_i h
      rw [State.setLink, if_neg h]

end Sys2Proof.Machine
end

section
/-! The hardware stack within its range: what a push with room and a pop of what stands on the stack do (rules R40 to R43),
and the instructions that push and pop. -/

namespace Sys2Proof.Machine

/-- An operation that completes, followed by an update of the state. -/
theorem Completes.andThen {o : Res State} {f : State → State} {P Q : State → Prop} (h : Completes o P)
    (hf : ∀ t, P t → Q (f t)) : Completes (andThen o fun t => .next (f t)) Q := by
  obtain ⟨t, rfl, ht⟩ := h
  exact ⟨f t, rfl, hf t ht⟩

theorem OnlyChanges.pc_eq {w : List Part} {s t : State} (h : OnlyChanges w s t) (hw : .pc ∉ w) : t.pc = s.pc := h .pc hw

/-! ### Pushes -/

theorem HasRoom.le {s : State} {k : Nat} (h : HasRoom s k) : s.hsUsed + k ≤ 64 := by
  have := s.chip.hsDepth.isLt
  unfold HasRoom at h
  omega

/-- With room the byte stands in the first free slot, and nothing else changes but `sptr`. -/
theorem pushByte_of_room {s : State} (h : HasRoom s 1) (v : Byte) :
    Completes (pushByte v s) fun t => PushedByte s t v ∧ OnlyChanges [.sptr, .slot s.sptr] s t := by
  have hp : pushByte v s = .next ((s.setHsSlot s.sptr (.byte v)).raiseSptr 1) := by
    rw [pushByte, needRoom_of_room h, andThen_next]
  refine ⟨_, hp, ⟨rfl, raiseSptr_hsUsed h.le, ?_⟩, ?_⟩
  · rw [State.raiseSptr_hsSlot, State.hsSlot_setHsSlot, if_pos rfl]
  · exact ((setHsSlot_onlyChanges s _ _).trans (raiseSptr_onlyChanges _ _)).mono (by simp)

theorem sptr_ne_next (p : BitVec 6) : p ≠ p + 1#6 := by
  revert p
  decide

/-- With room the address stands in the first free slot, the one above it is unspecified, and nothing else changes but
`sptr`. -/
theorem pushAddr_of_room {s : State} (h : HasRoom s 2) (a : PAddr) :
    Completes (pushAddr a s) fun t => PushedAddr s t a ∧ OnlyChanges (pushAddrParts s) s t := by
  have hp : pushAddr a s =
      .next (((s.setHsSlot s.sptr (if s.chip.np64kw then .addr20 a else .addr16 (BitVec.ofNat 16 a.toNat))).setHsSlot
        (s.sptr + 1#6) .unspecified).raiseSptr 2) := by
    rw [pushAddr, needRoom_of_room h, andThen_next, extract_low16]
  refine ⟨_, hp, ⟨rfl, raiseSptr_hsUsed h.le, ?_, ?_⟩, ?_⟩
  · rw [State.raiseSptr_hsSlot, State.hsSlot_setHsSlot, if_neg (sptr_ne_next _), State.hsSlot_setHsSlot, if_pos rfl]
  · rw [State.raiseSptr_hsSlot, State.hsSlot_setHsSlot, if_pos rfl]
  · refine (((setHsSlot_onlyChanges s _ _).trans (setHsSlot_onlyChanges _ _ _)).trans (raiseSptr_onlyChanges _ _)).mono ?_
    simp [pushAddrParts]

/-- A push of one slot that leads on to the next instruction. -/
theorem pushByte_advance_of_room {s : State} (h : HasRoom s 1) (v : Byte) :
    Completes (andThen (pushByte v s) fun t => .next (t.advance 1)) fun t =>
      PushedByte s t v ∧ t.pc = seq s.pc 1 ∧ OnlyChanges [.pc, .sptr, .slot s.sptr] s t := by
  refine (pushByte_of_room h v).andThen fun t ⟨pushed, frame⟩ => ⟨pushed, ?_, ?_⟩
  · rw [State.advance_pc, frame.pc_eq (by simp)]
  · exact (frame.trans (advance_onlyChanges t 1)).mono (by simp)

/-- A push of a return address that leads to a target. -/
theorem pushAddr_setPc_of_room {s : State} (h : HasRoom s 2) (a p : PAddr) :
    Completes (andThen (pushAddr a s) fun t => .next (t.setPc p)) fun t =>
      PushedAddr s t a ∧ t.pc = p ∧ OnlyChanges (.pc :: pushAddrParts s) s t := by
  refine (pushAddr_of_room h a).andThen fun t ⟨pushed, frame⟩ => ⟨pushed, rfl, ?_⟩
  exact (frame.trans (setPc_onlyChanges t p)).mono (by simp [pushAddrParts])

/-! ### Pops -/

theorem popByte_of_topByte {s : State} {v : Byte} (h : TopByte s v) : popByte s = .next (v, s.lowerSptr 1) :=
  popByte_eq_next.mpr ⟨h.1, h.2, rfl⟩

/-- The address on top of the stack is loaded into PC, as wide as it stands there. -/
theorem slotAddr_of_topAddr {s : State} {a : PAddr} (h : TopAddr s a) :
    ∃ p, s.slotAddr (s.hsSlot (s.sptr - 2#6)) = some p ∧ LoadsPc s a p := by
  obtain ⟨-, wide | ⟨narrow, slot⟩⟩ := h
  · exact ⟨s.longTarget a, by rw [wide]; rfl, loadsPc_longTarget s a⟩
  · refine ⟨s.pc.extractLsb' 16 4 ++ BitVec.ofNat 16 a.toNat, ?_, loadsPc_of_low16 narrow a⟩
    rw [slot, State.slotAddr, if_neg (by simp [narrow])]

theorem popAddr_of_topAddr {s : State} {a : PAddr} (h : TopAddr s a) :
    ∃ p, popAddr s = .next ((s.lowerSptr 2).setPc p) ∧ LoadsPc s a p := by
  obtain ⟨p, hp, loads⟩ := slotAddr_of_topAddr h
  exact ⟨p, popAddr_eq_next.mpr ⟨h.1, p, hp, rfl⟩, loads⟩

/-- Settles O54: the pushes by their lemmas, the pops by the states they answer. -/
theorem stackPrimitives : Obligations.StackPrimitives := by
  intro s v a
  refine ⟨fun h => ?_, fun h => ?_, fun h => ?_, fun h => ?_⟩
  · obtain ⟨t, ht, ⟨hptr, -, hslot⟩, -⟩ := pushByte_of_room h v
    exact ⟨t, ht, hslot, hptr⟩
  · exact ⟨_, popByte_of_topByte h, rfl, fun _ => rfl⟩
  · obtain ⟨t, ht, ⟨hptr, -, hslot, -⟩, -⟩ := pushAddr_of_room h a
    exact ⟨t, ht, by rw [hslot, extract_low16], hptr⟩
  · obtain ⟨p, hp, loads⟩ := popAddr_of_topAddr h
    exact ⟨_, hp, loads, rfl⟩

/-- Settles O55: both push a byte and go on. -/
theorem pushStoresByte : Obligations.PushStoresByte := fun _ _ _ h =>
  ⟨pushByte_advance_of_room h _, pushByte_advance_of_room h _⟩

/-- Z and N after a byte is moved or computed bit by bit (rule R11). -/
theorem logicFlags_byteFlags (s : State) (r : Byte) : ByteFlags r (s.logicFlags r) := by
  constructor
  · rw [State.logicFlags, State.setFlags_z, byte_beq_zero]
  · rw [State.logicFlags, State.setFlags_n, BitVec.msb_eq_decide]

theorem exec_popGpr_of_topByte {s : State} {v : Byte} (h : TopByte s v) (d : Gpr) :
    exec (.popGpr d) s = .next ((s.lowerSptr 1).writeLogic d v) := by
  show execPopGpr d s = _
  rw [execPopGpr, popByte_of_topByte h]
  rfl

theorem exec_popSpr_of_topByte {s : State} {v : Byte} (h : TopByte s v) (r : Spr) :
    exec (.popSpr r) s = .next (((s.lowerSptr 1).setSpr r v).advance 1) := by
  show execPopSpr r s = _
  rw [execPopSpr, popByte_of_topByte h]
  rfl

theorem advance_spr (s : State) (n : Nat) (r : Spr) : (s.advance n).spr r = s.spr r := by
  cases r <;> rfl

/-- Settles O56: the popped byte goes to a register of the state with `sptr` lowered; POP only lowers it. -/
theorem popLoadsByte : Obligations.PopLoadsByte := by
  intro d r v s
  refine ⟨fun h => ⟨?_, ?_⟩, fun h => ?_⟩
  · refine ⟨_, exec_popGpr_of_topByte h d, writeLogic_xb (s.lowerSptr 1) d v, logicFlags_byteFlags _ v, rfl, rfl, ?_⟩
    exact ((lowerSptr_onlyChanges s 1).trans (writeLogic_onlyChanges _ d v)).mono (by simp [writesGpr])
  · refine ⟨_, exec_popSpr_of_topByte h r, ?_, by simp, by simp, ?_⟩
    · rw [advance_spr, State.setSpr_spr]
    · refine (((lowerSptr_onlyChanges s 1).trans (setSpr_onlyChanges _ r v)).trans (advance_onlyChanges _ 1)).mono ?_
      simp [or_comm, or_left_comm]
  · have hp : exec .pop s = .next ((s.lowerSptr 2).advance 1) := by
      show execPop s = _
      rw [execPop, dropSlots_eq_next.mpr ⟨h, rfl⟩, andThen_next]
    exact ⟨_, hp, rfl, rfl, ((lowerSptr_onlyChanges s 2).trans (advance_onlyChanges _ 1)).mono (by simp)⟩

end Sys2Proof.Machine
end

section
/-! Calls, links, returns and JNZD (spec/43_branch.md). -/

namespace Sys2Proof.Machine

/-! ### LCALL and LLNK, taken and not taken -/

theorem exec_lcall_taken {cc : Cond} {s : State} (h : s.cond cc = true) (imm : PAddr) :
    exec (.lcall cc imm) s = andThen (pushAddr (seq s.pc 2) s) fun t => .next (t.setPc (s.longTarget imm)) := if_pos h

theorem exec_lcall_untaken {cc : Cond} {s : State} (h : s.cond cc = false) (imm : PAddr) :
    exec (.lcall cc imm) s = .next (s.advance 2) := if_neg (by simp [h])

theorem exec_llnk_taken {cc : Cond} {s : State} (h : s.cond cc = true) (imm : PAddr) :
    exec (.llnk cc imm) s = .next ((s.setLink (seq s.pc 2)).setPc (s.longTarget imm)) := if_pos h

theorem exec_llnk_untaken {cc : Cond} {s : State} (h : s.cond cc = false) (imm : PAddr) :
    exec (.llnk cc imm) s = .next (s.advance 2) := if_neg (by simp [h])

/-- Settles O44: a taken call is a push that leads to its target. -/
theorem callsPushReturnAddress : Obligations.CallsPushReturnAddress := by
  intro cc off imm s
  refine ⟨fun room => ⟨?_, fun taken => ?_⟩, fun untaken => ?_⟩
  · obtain ⟨t, ht, pushed, hpc, frame⟩ := pushAddr_setPc_of_room room (seq s.pc 1) (s.pageTarget off)
    exact ⟨t, ht, pushed, hpc ▸ pageTarget_toNat s off, frame⟩
  · obtain ⟨t, ht, pushed, hpc, frame⟩ := pushAddr_setPc_of_room room (seq s.pc 2) (s.longTarget imm)
    exact ⟨t, (exec_lcall_taken taken imm).trans ht, pushed, hpc ▸ loadsPc_longTarget s imm, frame⟩
  · exact ⟨_, exec_lcall_untaken untaken imm, rfl, advance_onlyChanges s 2⟩

theorem link_onlyChanges (s : State) (a p : PAddr) : OnlyChanges [.pc, .ill, .ilh, .ilx] s ((s.setLink a).setPc p) :=
  ((setLink_onlyChanges s a).trans (setPc_onlyChanges _ p)).mono (by simp)

/-- Settles O45: a taken link writes IL and then PC. -/
theorem linksSaveReturnAddress : Obligations.LinksSaveReturnAddress := by
  intro cc off imm s
  refine ⟨?_, fun taken => ?_, fun untaken => ?_⟩
  · exact ⟨_, rfl, savesLink_setLink s _, pageTarget_toNat s off, link_onlyChanges s _ _⟩
  · exact ⟨_, exec_llnk_taken taken imm, savesLink_setLink s _, loadsPc_longTarget s imm, link_onlyChanges s _ _⟩
  · exact ⟨_, exec_llnk_untaken untaken imm, rfl, advance_onlyChanges s 2⟩

/-- Settles O46: RET and IRET by the pop of the address on top, LRET because IL is the address. -/
theorem returnsLoadPc : Obligations.ReturnsLoadPc := by
  intro a s
  refine ⟨fun top => ?_, fun link => ?_⟩
  · obtain ⟨p, hp, loads⟩ := popAddr_of_topAddr top
    have frame := (lowerSptr_onlyChanges s 2).trans (setPc_onlyChanges _ p)
    refine ⟨⟨_, hp, loads, rfl, frame.mono (by simp)⟩, ?_⟩
    exact ⟨_, returnFromException_eq_next.mpr ⟨_, hp, rfl⟩, loads, rfl, State.setIe_ie ..,
      (frame.trans (setIe_onlyChanges _ true)).mono (by simp)⟩
  · have hil : s.il = a := BitVec.eq_of_toNat_eq ((il_toNat s).trans link.symm)
    exact ⟨_, rfl, hil ▸ loadsPc_longTarget s s.il, setPc_onlyChanges s _⟩

/-! ### JNZD -/

/-- Where JNZD leads with the target `a` pending: Rn of bank 3 is decreased and the delay slot is next (rule R236). -/
def State.afterJnzd (s : State) (n : Gpr) (a : PAddr) : State :=
  { (s.setXb 3#2 n (s.xb 3#2 n - 1#8)).setPc (seq s.pc 1) with delay := some a }

theorem afterJnzd_xb (s : State) (n : Gpr) (a : PAddr) : (s.afterJnzd n a).xb 3#2 n = s.xb 3#2 n - 1#8 :=
  s.xb_setXb_same 3#2 n _

theorem afterJnzd_onlyChanges (s : State) (n : Gpr) (a : PAddr) :
    OnlyChanges [.pc, .gpr 3#2 n, .delay] s (s.afterJnzd n a) :=
  (((setXb_onlyChanges s _ n _).trans (setPc_onlyChanges _ _)).trans (setDelay_onlyChanges _ _)).mono (by simp)

theorem exec_jnzd (n : Gpr) (imm : Byte) (s : State) :
    exec (.jnzd n imm) s =
      if s.xb 3#2 n = 0#8 then .next (s.afterJnzd n (seq s.pc 2))
      else if imm = 0#8 then .refused .jnzdZeroOffset
      else .next (s.afterJnzd n (jnzdTarget (seq s.pc 1) imm)) := by
  rw [← seq_seq s.pc 1 1]
  rfl

theorem byte_dec_toNat {b : Byte} (h : b ≠ 0#8) : (b - 1#8).toNat = b.toNat - 1 := by
  bv_omega

/-- Settles O48: the three ends of JNZD, with the target in exact arithmetic. -/
theorem loopJump : Obligations.LoopJump := by
  intro n imm s
  rw [exec_jnzd]
  refine ⟨fun hr hi => ?_, fun hr => ?_, fun hr hi => ?_⟩
  · rw [if_neg hr, if_neg hi]
    obtain ⟨page, offset⟩ := jnzdTarget_toNat (seq s.pc 1) imm
    refine ⟨_, rfl, ?_, rfl, ⟨_, rfl, ?_, offset⟩, afterJnzd_onlyChanges s n _⟩
    · rw [afterJnzd_xb, byte_dec_toNat hr]
    · rw [page, seq_toNat]
      omega
  · rw [if_pos hr]
    exact ⟨_, rfl, by rw [afterJnzd_xb, hr]; rfl, rfl, rfl, afterJnzd_onlyChanges s n _⟩
  · rw [if_neg hr, if_pos hi]

end Sys2Proof.Machine
end

section
/-! Where the hardware stack stops what pushes or pops (rules R40, R44, R323). -/

namespace Sys2Proof.Machine

theorem pushByte_of_noRoom {s : State} (h : NoRoom s 1) (v : Byte) : pushByte v s = .fault .hsRange := by
  rw [pushByte, needRoom_of_noRoom h, andThen_fault]

theorem pushAddr_of_noRoom {s : State} (h : NoRoom s 2) (a : PAddr) : pushAddr a s = .fault .hsRange := by
  rw [pushAddr, needRoom_of_noRoom h, andThen_fault]

/-- An exception that finds no room for its return address stops the step (rule R323). -/
theorem step_of_exception_noRoom {s : State} {v : PAddr} (h : NoRoom s 2) (ht : TakesInterrupt s v ∨ TakesStackFull s v) :
    step s = .fault .hsRange := by
  rcases ht with ht | ht
  · rw [step_of_takesInterrupt ht, takeException_of_noRoom (s := { s with run := .running }) h, andThen_fault]
  · rw [step_of_takesStackFull ht, takeException_of_noRoom (s := { s with run := .running, sfPending := false }) h,
      andThen_fault]

theorem dropSlots_of_lt {k : Nat} {s : State} (h : s.hsUsed < k) : dropSlots k s = .fault .hsRange := if_neg (by omega)

theorem popByte_of_empty {s : State} (h : s.hsUsed = 0) : popByte s = .fault .hsRange := by
  rw [popByte, dropSlots_of_lt (by omega), andThen_fault]

theorem popAddr_of_lt {s : State} (h : s.hsUsed < 2) : popAddr s = .fault .hsRange := by
  rw [popAddr, dropSlots_of_lt h, andThen_fault]

/-- A slot whose low byte no push wrote. -/
theorem popByte_of_unspecified {s : State} (h : 1 ≤ s.hsUsed) (hv : s.hsSlot (s.sptr - 1#6) = .unspecified) :
    popByte s = .fault .hsMixedWidth := by
  rw [popByte, dropSlots_eq_next.mpr ⟨h, rfl⟩, andThen_next, State.lowerSptr_sptr, hv]
  rfl

/-- A slot that no push of an address wrote. -/
theorem popAddr_of_no_address {s : State} (h : 2 ≤ s.hsUsed)
    (hv : s.hsSlot (s.sptr - 2#6) = .unspecified ∨ ∃ v, s.hsSlot (s.sptr - 2#6) = .byte v) :
    popAddr s = .fault .hsMixedWidth := by
  rw [popAddr, dropSlots_eq_next.mpr ⟨h, rfl⟩, andThen_next, State.lowerSptr_sptr]
  rcases hv with hv | ⟨v, hv⟩ <;> rw [hv] <;> rfl

/-- An instruction that begins with an operation that stops, stops with it. -/
theorem andThen_of_fault {α β : Type} {o : Res α} {e : Fault} (h : o = .fault e) (f : α → Res β) :
    andThen o f = .fault e := by
  rw [h, andThen_fault]

/-- Settles O57: every instruction named begins with the push or the pop that stops. -/
theorem stackRangeStops : Obligations.StackRangeStops := by
  intro d r cc off imm s
  refine ⟨fun h => ?_, fun h => ?_, fun h => ?_, fun h => ?_, fun h hv => ?_, fun h hv => ?_⟩
  · exact ⟨andThen_of_fault (pushByte_of_noRoom h _) _, andThen_of_fault (pushByte_of_noRoom h _) _⟩
  · refine ⟨andThen_of_fault (pushAddr_of_noRoom h _) _, fun taken => ?_, fun v => step_of_exception_noRoom h⟩
    rw [exec_lcall_taken taken, andThen_of_fault (pushAddr_of_noRoom h _)]
  · exact ⟨andThen_of_fault (popByte_of_empty h) _, andThen_of_fault (popByte_of_empty h) _⟩
  · exact ⟨andThen_of_fault (dropSlots_of_lt h) _, popAddr_of_lt h, andThen_of_fault (popAddr_of_lt h) _⟩
  · exact ⟨andThen_of_fault (popByte_of_unspecified h hv) _, andThen_of_fault (popByte_of_unspecified h hv) _⟩
  · exact ⟨popAddr_of_no_address h hv, andThen_of_fault (popAddr_of_no_address h hv) _⟩

end Sys2Proof.Machine
end

section
/-! The loads between banks and into special and table registers (rules R206, R209, R210, R212). -/

namespace Sys2Proof.Machine

/-- Settles O38: one register write, then Z and N. -/
theorem loadBetweenBanks : Obligations.LoadBetweenBanks := by
  intro bankd banks d g s
  refine ⟨_, rfl, s.xb_setXb_same bankd d _, logicFlags_byteFlags (s.setXb bankd d _) _, rfl, ?_⟩
  exact (((setXb_onlyChanges s bankd d _).trans (logicFlags_onlyChanges _ _)).trans (advance_onlyChanges _ 1)).mono
    (by simp)

/-- An instruction that loads a special purpose register and does nothing else. -/
theorem setSpr_advance_loads (s : State) (r : Spr) (v : Byte) :
    Completes (.next ((s.setSpr r v).advance 1)) fun t =>
      t.spr r = v ∧ t.pc = seq s.pc 1 ∧ OnlyChanges (.pc :: sprParts s.idb r) s t := by
  refine ⟨_, rfl, ?_, by simp, ((setSpr_onlyChanges s r v).trans (advance_onlyChanges _ 1)).mono (by simp [or_comm])⟩
  rw [advance_spr, State.setSpr_spr]

/-- Settles O39: the special purpose registers by their write, the table registers by the frame of the instruction. -/
theorem loadsIntoSpecialRegisters : Obligations.LoadsIntoSpecialRegisters := by
  intro r r0 imm d s
  refine ⟨setSpr_advance_loads s _ imm, setSpr_advance_loads s r _, ?_, ?_⟩
  · exact ⟨_, rfl, rfl, rfl, exec_onlyChanges (i := .ldTbl d) rfl⟩
  · exact ⟨_, rfl, rfl, rfl, exec_onlyChanges (i := .ldTbh d) rfl⟩

end Sys2Proof.Machine
end

section
/-! Addresses of operands in exact arithmetic: the direct address, and the four modes of an indexed operand with the
update of its index register (rules R63 to R65). -/

namespace Sys2Proof.Machine

/-- Settles O23: the page byte stands above the offset. -/
theorem directAddress : Obligations.DirectAddress := by
  intro s adr
  have idh : s.idx.idh = (s.idxBank (s.sr0.getLsbD 2)).idh := rfl
  rw [State.directAddr, append_toNat, State.eid, idh]
  split
  · omega
  · simp

theorem idReg_toNat (s : State) (x : IdxReg) :
    (s.idReg x).toNat =
      256 * s.idx.idh.toNat + (match x with | .id0 => s.idx.idl0.toNat | .id1 => s.idx.idl1.toNat) := by
  cases x <;> rw [State.idReg, append_toNat] <;> dsimp only <;> omega

/-! ### The displacement -/

/-- The offset field extended with zeros, added to an index register. -/
theorem add_zeroExtended_toNat (a : DAddr) (off : BitVec 5) :
    (a + (0#11 ++ off)).toNat = (a.toNat + off.toNat) % 65536 := by
  rw [BitVec.toNat_add, append_toNat, BitVec.toNat_ofNat]
  omega

/-- The offset field extended with ones subtracts 32 minus the field. -/
theorem add_onesExtended_toNat (a : DAddr) (off : BitVec 5) :
    (a + (0b11111111111#11 ++ off)).toNat = (a.toNat + 65536 - (32 - off.toNat)) % 65536 := by
  have := off.isLt
  rw [BitVec.toNat_add, append_toNat, BitVec.toNat_ofNat]
  omega

/-- A minus mode with an offset that an assembler writes (rule R65). -/
theorem idmDisplacement_minus (c : Chip) (x : IdxReg) {mode : IdmMode} {off : BitVec 5}
    (hm : mode = .preDec ∨ mode = .minus) (h : off ≠ 0#5) :
    idmDisplacement c ⟨x, mode, off⟩ = some (0b11111111111#11 ++ off) := by
  rcases hm with rfl | rfl <;> exact if_neg h

theorem idmDisplacement_minusZero {c : Chip} {m : Idm} (h : m.minusZero = true) (hc : c.idmNeg0 = .refuse) :
    idmDisplacement c m = none := by
  obtain ⟨x, mode, off⟩ := m
  cases mode <;> simp [Idm.minusZero] at h <;> simp [idmDisplacement, h, hc]

/-- Settles O24: the modes differ in the displacement and in whether the access or the update takes the sum. -/
theorem indexedAddress : Obligations.IndexedAddress := by
  intro s x off id
  have hid : (s.idReg x).toNat = id := idReg_toNat s x
  have plus := add_zeroExtended_toNat (s.idReg x) off
  have minus := add_onesExtended_toNat (s.idReg x) off
  rw [hid] at plus minus
  refine ⟨hid, ⟨_, rfl, hid, ?_⟩, ⟨_, rfl, plus, rfl⟩, fun ho => ⟨?_, ?_⟩⟩
  · exact (congrArg BitVec.toNat (s.setIdReg_idReg x _)).trans plus
  · exact ⟨_, idmDisplacement_minus _ x (.inl rfl) ho, minus,
      (congrArg BitVec.toNat (s.setIdReg_idReg x _)).trans minus⟩
  · exact ⟨_, idmDisplacement_minus _ x (.inr rfl) ho, minus, rfl⟩

/-! ### Instructions with an indexed operand -/

/-- An instruction with an indexed operand is a store, or an effect with the byte at the address that leaves the index
registers alone (rules R101, R140). -/
theorem exec_of_idm {i : Instr} {m : Idm} (h : i.idm? = some m) :
    (∃ d, i = .stIdm m d) ∨
      ∃ f : Byte → State → State, (∀ s, exec i s = withIdm m f s) ∧ ∀ b s, (f b s).idx = s.idx := by
  cases i
  case stIdm m' d =>
    cases h
    exact .inl ⟨d, rfl⟩
  case addIdm | subIdm | cpIdm | ldIdm | andIdm | orIdm | xorIdm =>
    cases h
    exact .inr ⟨_, fun _ => rfl, fun _ _ => rfl⟩
  all_goals cases h

theorem idReg_congr {s t : State} (h : t.idx = s.idx) (x : IdxReg) : t.idReg x = s.idReg x := by
  cases x <;> rw [State.idReg, State.idReg, h]

/-- The index update reads and writes the selected index bank alone. -/
theorem idmUpdate_idx_congr {s t : State} (h : t.idx = s.idx) (m : Idm) (disp : DAddr) :
    (t.idmUpdate m disp).idx = (s.idmUpdate m disp).idx := by
  have written : ∀ x a, (t.setIdReg x a).idx = (s.setIdReg x a).idx := by
    intro x a
    cases x <;> simp only [State.setIdReg, State.setIdx_idx, h]
  cases hm : m.mode <;> simp only [State.idmUpdate, hm, written, idReg_congr h, h]

/-- Settles O25: the effect, or the store, comes before the update and leaves the index registers as they were. -/
theorem indexRegisterAfterAccess : Obligations.IndexRegisterAfterAccess := by
  intro i m disp s t hi hd ht x
  refine idReg_congr ?_ x
  rcases exec_of_idm hi with ⟨d, rfl⟩ | ⟨f, hf, idx⟩
  · obtain ⟨u, hu, hn⟩ := andThen_eq_next.mp ht
    cases hn
    obtain ⟨disp', hd', -, rfl⟩ := storeIdm_eq_next.mp hu
    cases hd.symm.trans hd'
    have written : State.idx { s with dm := memWrite s.dm (s.idmAddr m disp).toNat (s.x d) } = s.idx := rfl
    exact idmUpdate_idx_congr written m disp
  · rw [hf] at ht
    obtain ⟨disp', hd', rfl⟩ := withIdm_eq_next.mp ht
    cases hd.symm.trans hd'
    exact idmUpdate_idx_congr (idx _ s) m disp

/-- Settles O26: the operand has no displacement, so neither the effect nor the store takes place. -/
theorem minusZeroStops : Obligations.MinusZeroStops := by
  intro i m s hi hm hc
  have none := idmDisplacement_minusZero hm hc
  rcases exec_of_idm hi with ⟨d, rfl⟩ | ⟨f, hf, -⟩
  · show andThen (storeIdm m (s.x d) s) _ = _
    rw [storeIdm, none, andThen_refused]
  · rw [hf, withIdm, none]

end Sys2Proof.Machine
end

section
/-! Writes of data memory: the stores, and the bit operations on a byte of memory (rules R61, R66, R203, R205, R260 to
R263). -/

namespace Sys2Proof.Machine

/-! ### One byte written -/

theorem dmRead_of_mapped {s : State} {a : DAddr} (h : s.dmMapped a = true) : s.dmRead a = s.dmCell a := if_pos h

/-- In a canonical memory the byte stands at a mapped address, and nothing else changes. -/
theorem dmWrite_of_mapped {s : State} {a : DAddr} (hwf : memWf dmSize s.dm = true) (h : s.dmMapped a = true) (v : Byte) :
    Completes (dmWrite a v s) fun t => t.dmRead a = v ∧ OnlyChanges [.dm a] s t := by
  refine ⟨_, dmWrite_eq_next.mpr ⟨h, rfl⟩, ?_, dmStore_onlyChanges s a v⟩
  have mapped : State.dmMapped { s with dm := memWrite s.dm a.toNat v } a = true := h
  rw [dmRead_of_mapped mapped]
  exact memRead_memWrite_same hwf a.toNat v

theorem dmWrite_of_unmapped {s : State} {a : DAddr} (h : s.dmMapped a = false) (v : Byte) :
    dmWrite a v s = .fault .dmUnmappedWrite := if_neg (by simp [h])

theorem storeIdm_of_displacement {s : State} {m : Idm} {disp : DAddr} (h : idmDisplacement s.chip m = some disp)
    (v : Byte) :
    storeIdm m v s = andThen (dmWrite (s.idmAddr m disp) v s) fun t => .next (t.idmUpdate m disp) := by
  rw [storeIdm, h]

/-! ### The stores -/

theorem idmUpdate_dmRead (s : State) (m : Idm) (disp a : DAddr) : (s.idmUpdate m disp).dmRead a = s.dmRead a := by
  rcases s.idmUpdate_spec m disp with h | h <;> rw [h]
  exact State.setIdReg_dmRead ..

/-- Settles O40: the write of one byte, then the index update, which leaves memory alone, then PC. -/
theorem storesWriteOneByte : Obligations.StoresWriteOneByte := by
  refine ⟨fun d adr s hwf mapped => ?_, fun d m disp s hwf hd mapped => ?_⟩
  · refine (dmWrite_of_mapped hwf mapped (s.x d)).andThen fun t ⟨byte, frame⟩ => ⟨byte, ?_, ?_⟩
    · rw [State.advance_pc, frame.pc_eq (by simp)]
    · exact (frame.trans (advance_onlyChanges t 1)).mono (by simp)
  · have stored : Completes (storeIdm m (s.x d) s) fun t =>
        t.dmRead (s.idmAddr m disp) = s.x d ∧ t.pc = s.pc ∧
          OnlyChanges (.dm (s.idmAddr m disp) :: idmParts s.idb m) s t := by
      rw [storeIdm_of_displacement hd]
      refine (dmWrite_of_mapped hwf mapped (s.x d)).andThen fun t ⟨byte, frame⟩ => ⟨?_, ?_, ?_⟩
      · rw [idmUpdate_dmRead, byte]
      · obtain ⟨-, -, -, hpc⟩ := idmUpdate_keeps t m disp
        rw [hpc, frame.pc_eq (by simp)]
      · have hb : t.idb = s.idb := frame (.sr0 2) (by simp)
        exact frame.idmUpdate m disp hb
    refine stored.andThen fun t ⟨byte, hpc, frame⟩ => ⟨byte, ?_, ?_⟩
    · rw [State.advance_pc, hpc]
    · exact (frame.trans (advance_onlyChanges t 1)).mono (by simp; tauto)

/-! ### The bit operations with TF = 1 -/

theorem bitMask_getLsbD (bs : BitVec 3) (k : Nat) : (bitMask bs).getLsbD k = decide (k = bs.toNat) := by
  have := bs.isLt
  rw [bitMask, ← BitVec.twoPow_eq, BitVec.getLsbD_twoPow, decide_eq_true (by omega), Bool.true_and]
  simp only [eq_comm]

theorem editsBit_or (m : Byte) (bs : BitVec 3) : EditsBit m (m ||| bitMask bs) bs true := by
  intro k
  rw [BitVec.getLsbD_or, bitMask_getLsbD]
  split <;> simp [*]

theorem editsBit_and_not (m : Byte) (bs : BitVec 3) : EditsBit m (m &&& ~~~(bitMask bs)) bs false := by
  intro k
  rw [BitVec.getLsbD_and, BitVec.getLsbD_not, bitMask_getLsbD]
  split <;> simp [*]

theorem editsBit_xor (m : Byte) (bs : BitVec 3) : EditsBit m (m ^^^ bitMask bs) bs (!m.getLsbD bs.toNat) := by
  intro k
  rw [BitVec.getLsbD_xor, bitMask_getLsbD]
  split <;> simp [*]

theorem bitOp_toMemory {s : State} (h : s.tf = true) (adr : Byte) (f : Byte → Byte) :
    bitOp adr f s =
      andThen (dmWrite (s.directAddr adr) (f (s.dmRead (s.directAddr adr))) s) fun t =>
        .next ((t.zFlag (f (s.dmRead (s.directAddr adr)) == 0#8)).advance 1) := by
  rw [bitOp, if_pos h]

/-- A bit operation on memory writes the edited byte back, and Z from it. -/
theorem bitOp_writesByte {s : State} {adr : Byte} (htf : s.tf = true) (hwf : memWf dmSize s.dm = true)
    (mapped : s.dmMapped (s.directAddr adr) = true) {f : Byte → Byte} {bs : BitVec 3} {v : Bool}
    (edits : EditsBit (s.dmRead (s.directAddr adr)) (f (s.dmRead (s.directAddr adr))) bs v) :
    Completes (bitOp adr f s) fun t =>
      EditsBit (s.dmRead (s.directAddr adr)) (t.dmRead (s.directAddr adr)) bs v ∧
        t.z = decide (t.dmRead (s.directAddr adr) = 0#8) ∧ t.pc = seq s.pc 1 ∧
        OnlyChanges [.pc, .flagZ, .dm (s.directAddr adr)] s t := by
  rw [bitOp_toMemory htf]
  generalize f (s.dmRead (s.directAddr adr)) = r at edits
  refine (dmWrite_of_mapped hwf mapped r).andThen fun t ⟨byte, frame⟩ => ?_
  rw [State.advance_dmRead, State.zFlag, State.setFlags_dmRead, byte]
  refine ⟨edits, ?_, ?_, ?_⟩
  · rw [State.advance_z, State.setFlags_z, Bool.beq_eq_decide_eq]
  · rw [State.advance_pc, State.setFlags_pc, frame.pc_eq (by simp)]
  · exact ((frame.trans (zFlag_onlyChanges t _)).trans (advance_onlyChanges _ 1)).mono (by simp)

theorem exec_bits (adr : Byte) (bs : BitVec 3) (s : State) :
    exec (.bits adr bs) s = bitOp adr (fun m => m ||| bitMask bs) s := rfl

theorem exec_bitr (adr : Byte) (bs : BitVec 3) (s : State) :
    exec (.bitr adr bs) s = bitOp adr (fun m => m &&& ~~~(bitMask bs)) s := rfl

theorem exec_bitc (adr : Byte) (bs : BitVec 3) (s : State) :
    exec (.bitc adr bs) s = bitOp adr (fun m => m ^^^ bitMask bs) s := rfl

/-- Settles O50: one operation with three edits. -/
theorem bitOperationsToMemory : Obligations.BitOperationsToMemory := by
  intro adr bs s htf hwf mapped
  dsimp only
  rw [exec_bits, exec_bitr, exec_bitc]
  exact ⟨bitOp_writesByte htf hwf mapped (editsBit_or _ bs), bitOp_writesByte htf hwf mapped (editsBit_and_not _ bs),
    bitOp_writesByte htf hwf mapped (editsBit_xor _ bs)⟩

/-- Settles O41: all five begin with the write that stops. -/
theorem unmappedStoreStops : Obligations.UnmappedStoreStops := by
  intro adr d bs m disp s
  refine ⟨fun h => ?_, fun hd h => ?_, fun h htf => ?_⟩
  · exact andThen_of_fault (dmWrite_of_unmapped h _) _
  · refine andThen_of_fault ?_ _
    rw [storeIdm_of_displacement hd, dmWrite_of_unmapped h, andThen_fault]
  · have stops : ∀ f, bitOp adr f s = .fault .dmUnmappedWrite := fun f => by
      rw [bitOp_toMemory htf, dmWrite_of_unmapped h, andThen_fault]
    rw [exec_bits, exec_bitr, exec_bitc]
    exact ⟨stops _, stops _, stops _⟩

end Sys2Proof.Machine
end

section
/-! The words that are no instruction, by the decoder, and the lengths it can tell from the first word alone (rules R119,
R120, R123, R128). -/

namespace Sys2Proof

/-! ### The parts of the opcode map -/

/-- The words 8xxxh, group 100 with IR[12] = 0 (rule R105). -/
theorem decode_eq_decodeControl {w : Word} (h : w.toNat / 4096 = 8) (c : Chip) (next : Word) :
    decode c w next = decodeControl c w next := by
  have group : (field w 13 3).toNat = 4 := by rw [field_toNat]; omega
  have bit : field w 12 1 ≠ 1#1 := by rw [ne_eq, ← BitVec.toNat_inj, field_toNat, BitVec.toNat_ofNat]; omega
  simp only [decode, group, if_neg bit]

theorem decodeControl_eq_decodeLow {w : Word} (h : w.toNat % 256 < 0x40) (c : Chip) (next : Word) :
    decodeControl c w next = decodeLow c w := by
  have row : (field w 6 2).toNat = 0 := by rw [field_toNat]; omega
  simp only [decodeControl, row]

theorem decodeControl_eq_decodeLong {w : Word} (h : 0x80 ≤ w.toNat % 256) (c : Chip) (next : Word) :
    decodeControl c w next = decodeLong w next := by
  have row : 2 ≤ (field w 6 2).toNat := by rw [field_toNat]; omega
  unfold decodeControl
  split
  case h_1 => omega
  case h_2 => omega
  case h_3 => rfl

theorem decode_eq_decodeLow {w : Word} (h : w.toNat / 4096 = 8) (hl : w.toNat % 256 < 0x40) (c : Chip) (next : Word) :
    decode c w next = decodeLow c w :=
  (decode_eq_decodeControl h c next).trans (decodeControl_eq_decodeLow hl c next)

theorem decode_eq_decodeLong {w : Word} (h : w.toNat / 4096 = 8) (hl : 0x80 ≤ w.toNat % 256) (c : Chip) (next : Word) :
    decode c w next = decodeLong w next :=
  (decode_eq_decodeControl h c next).trans (decodeControl_eq_decodeLong hl c next)

/-! ### Invalid words -/

/-- Column `col` = IR[11:10] holds no instruction in row `row` = IR[5:2] of rule R105's table below 40h (rule R119). -/
def LowUnused (row col : Nat) : Prop :=
  (row = 1 ∨ row = 3) ∧ col = 3 ∨ row = 2 ∨ (row = 4 ∨ row = 5 ∨ row = 8 ∨ row = 9) ∧ 2 ≤ col ∨
    row = 11 ∧ (col = 1 ∨ col = 3) ∨ (row = 12 ∨ row = 13) ∧ 1 ≤ col ∨ 14 ≤ row

theorem decodeLow_of_lowUnused {w : Word} (h : LowUnused (field w 2 4).toNat (field w 10 2).toNat) (c : Chip) :
    decodeLow c w = .error .invalid := by
  unfold LowUnused at h
  unfold decodeLow
  split
  case h_35 => rfl
  all_goals omega

theorem decodeLong_of_lt {w : Word} (h : (field w 4 4).toNat < 13) (next : Word) :
    decodeLong w next = .error .invalid := by
  unfold decodeLong
  split
  case h_4 => rfl
  all_goals omega

/-- The rows of rule R119's table are the unused places below 40h and the rows 80h to CFh. -/
theorem unused_of_invalidRows {w : Word} {r : Nat × Nat × List Nat} (hr : r ∈ Machine.invalidRows)
    (lo : r.1 ≤ w.toNat % 256) (hi : w.toNat % 256 ≤ r.2.1) (col : w.toNat / 1024 % 4 ∈ r.2.2) :
    w.toNat % 256 < 0x40 ∧ LowUnused (field w 2 4).toNat (field w 10 2).toNat ∨
      0x80 ≤ w.toNat % 256 ∧ (field w 4 4).toNat < 13 := by
  simp only [LowUnused, field_toNat]
  simp only [Machine.invalidRows, List.mem_cons, List.not_mem_nil, or_false] at hr
  rcases hr with rfl | rfl | rfl | rfl | rfl | rfl | rfl | rfl | rfl <;>
    simp only [List.mem_cons, List.not_mem_nil, or_false] at lo hi col <;> omega

theorem decode_of_invalidWord {w : Word} (h : Machine.InvalidWord w) (c : Chip) (next : Word) :
    decode c w next = .error .invalid := by
  obtain ⟨group, r, hr, lo, hi, col⟩ := h
  rcases unused_of_invalidRows hr lo hi col with ⟨low, unused⟩ | ⟨high, unused⟩
  · rw [decode_eq_decodeLow group low, decodeLow_of_lowUnused unused]
  · rw [decode_eq_decodeLong group high, decodeLong_of_lt unused]

/-! ### Reserved and differing words -/

theorem decodeAluOp2_of_seven {w : Word} (h : (field w 0 3).toNat = 7) : decodeAluOp2 w = .error .reserved := by
  simp only [decodeAluOp2, h]

theorem decodeModOp1_of_ge {w : Word} (h : 5 ≤ (field w 0 3).toNat) : decodeModOp1 w = .error .reserved := by
  unfold decodeModOp1
  split
  case h_6 => rfl
  all_goals omega

theorem decode_of_reservedWord {w : Word} (h : Machine.ReservedWord w) (c : Chip) (next : Word) :
    decode c w next = .error .reserved := by
  rcases h with ⟨hi, lo⟩ | ⟨hi, lo, lo'⟩
  · have row : (field w 2 4).toNat = 5 := by rw [field_toNat]; omega
    have col : (field w 10 2).toNat = 1 := by rw [field_toNat]; omega
    have code : (field w 0 3).toNat = 7 := by rw [field_toNat]; omega
    rw [decode_eq_decodeLow (by omega) (by omega), ← decodeAluOp2_of_seven code]
    simp only [decodeLow, row, col]
  · have row : (field w 2 4).toNat = 13 := by rw [field_toNat]; omega
    have col : (field w 10 2).toNat = 0 := by rw [field_toNat]; omega
    have code : 5 ≤ (field w 0 3).toNat := by rw [field_toNat]; omega
    rw [decode_eq_decodeLow (by omega) (by omega), ← decodeModOp1_of_ge code]
    simp only [decodeLow, row, col]

theorem decode_of_differingWord {w : Word} (h : Machine.DifferingWord w) (c : Chip) (next : Word) :
    decode c w next = .error .fieldsDiffer := by
  obtain ⟨hi, lo, differ⟩ := h
  have row : (field w 2 4).toNat = 10 := by rw [field_toNat]; omega
  have col : (field w 10 2).toNat = 0 ∨ (field w 10 2).toNat = 1 := by rw [field_toNat]; omega
  have fields : field w 8 2 ≠ field w 0 2 := by
    rw [ne_eq, ← BitVec.toNat_inj, field_toNat, field_toNat]
    omega
  rw [decode_eq_decodeLow (by omega) (by omega)]
  rcases col with col | col <;> simp only [decodeLow, row, col, decodeTwice, if_neg fields]

/-! ### First words of two -/

/-- Every first word of a two-word instruction is an instruction, so what is rejected is one word long. -/
theorem isFirstOfTwo_eq_false_of_decode_error {c : Chip} {w next : Word} {e : DecodeError}
    (h : decode c w next = .error e) : isFirstOfTwo w = false := by
  refine Bool.eq_false_iff.mpr fun two => ?_
  obtain ⟨group, bit, row⟩ := (isFirstOfTwo_iff w).mp two
  have long : (field w 4 4).toNat = 13 ∨ (field w 4 4).toNat = 14 ∨ (field w 4 4).toNat = 15 := by
    have := (field w 4 4).isLt
    omega
  rw [ne_eq, ← BitVec.toNat_inj, BitVec.toNat_ofNat] at bit
  rw [field_toNat] at group bit row
  rw [decode_eq_decodeLong (by omega) (by omega)] at h
  rcases long with code | code | code <;> simp only [decodeLong, code] at h <;> cases h

/-- A field reads the same under a mask that covers it. -/
theorem field_mask {m : Word} {lo len : Nat} (h : m.extractLsb' lo len = BitVec.allOnes len) (w : Word) :
    field (w &&& m) lo len = field w lo len := by
  rw [field, BitVec.extractLsb'_and, h, BitVec.and_allOnes, field]

/-- Only IR[15:12] and IR[7:4] say that a word is the first of two (rules R114, R123). -/
theorem isFirstOfTwo_mask (w : Word) : isFirstOfTwo (w &&& 0xF0F0#16) = isFirstOfTwo w := by
  rw [isFirstOfTwo, field_mask rfl, field_mask rfl, field_mask rfl, isFirstOfTwo]

end Sys2Proof
end

section
/-! Fetches that stop the step: a word that is no instruction, and unmapped program memory (rules R37, R67, R119, R120,
R128). -/

namespace Sys2Proof.Machine

theorem pmRead_of_unmapped {s : State} {a : PAddr} (h : s.pmMapped a = false) : pmRead a s = .fault .pmUnmapped :=
  if_neg (by simp [h])

/-- A word that the decoder rejects is refused by name, whatever follows it. -/
theorem fetchInstr_of_decode_error {s : State} {e : DecodeError} (mapped : s.pmMapped s.pc = true)
    (h : ∀ next, decode s.chip (memRead s.pm s.pc.toNat) next = .error e) :
    fetchInstr s = .refused (decodeRefusal e) := by
  have word : fetch s = .next (memRead s.pm s.pc.toNat, 0#16) := by
    rw [fetch, pmRead_eq_next.mpr ⟨mapped, rfl⟩, andThen_next, isFirstOfTwo_eq_false_of_decode_error (h 0#16)]
    rfl
  rw [fetchInstr, word, andThen_next, h]

/-- An unmapped first word, or second word of an instruction that has one, stops the fetch. -/
theorem fetch_of_unmapped {s : State}
    (h : s.pmMapped s.pc = false ∨
      s.pmMapped s.pc = true ∧ isFirstOfTwo (memRead s.pm s.pc.toNat) = true ∧ s.pmMapped (seq s.pc 1) = false) :
    fetch s = .fault .pmUnmapped := by
  rcases h with first | ⟨first, two, second⟩
  · rw [fetch, pmRead_of_unmapped first, andThen_fault]
  · rw [fetch, pmRead_eq_next.mpr ⟨first, rfl⟩, andThen_next, if_pos two, pmRead_of_unmapped second, andThen_fault]

theorem stepInstr_of_fetch_fault {s : State} {e : Fault} (h : fetch s = .fault e) : stepInstr s = .fault e :=
  andThen_of_fault (andThen_of_fault h _) _

theorem stepInstr_of_fetchInstr_refused {s : State} {r : Refusal} (h : fetchInstr s = .refused r) :
    stepInstr s = .refused r := by
  rw [stepInstr, h, andThen_refused]

/-- Settles O14: the fetch is the first thing an instruction's step does. -/
theorem badFetchStops : Obligations.BadFetchStops := by
  intro s hp hr hb
  rw [step_eq_stepInstr hp hr hb]
  have rejected {e : DecodeError} (mapped : s.pmMapped s.pc = true)
      (h : ∀ next, decode s.chip (memRead s.pm s.pc.toNat) next = .error e) :
      stepInstr s = .refused (decodeRefusal e) :=
    stepInstr_of_fetchInstr_refused (fetchInstr_of_decode_error mapped h)
  refine ⟨fun first => stepInstr_of_fetch_fault (fetch_of_unmapped (.inl first)), fun mapped => ⟨?_, ?_, ?_, ?_⟩⟩
  · exact fun h => rejected mapped (decode_of_invalidWord h s.chip)
  · exact fun h => rejected mapped (decode_of_reservedWord h s.chip)
  · exact fun h => rejected mapped (decode_of_differingWord h s.chip)
  · intro long second
    refine stepInstr_of_fetch_fault (fetch_of_unmapped (.inr ⟨mapped, ?_, second⟩))
    rw [← isFirstOfTwo_mask]
    simp only [List.mem_cons, List.not_mem_nil, or_false] at long
    rcases long with h | h | h <;> rw [h] <;> decide

end Sys2Proof.Machine
end

section
/-! The miscellaneous instructions that neither swap nor move the stack: LDC, NOP, BREAK, SYS and the coprocessor
(spec/45_misc.md). -/

namespace Sys2Proof.Machine

/-! ### LDC -/

/-- TBH and TBL hold the two halves of a word. -/
def State.setTable (w : Word) (s : State) : State := { s with tbh := w.extractLsb' 8 8, tbl := w.extractLsb' 0 8 }

theorem loadTable_of_mapped {s : State} (h : s.pmMapped s.il = true) :
    loadTable s = .next (s.setTable (memRead s.pm s.il.toNat)) := by
  rw [loadTable, pmRead_eq_next.mpr ⟨h, rfl⟩, andThen_next, State.setTable]

theorem setTable_toNat (s : State) (w : Word) :
    (s.setTable w).tbh.toNat = w.toNat / 256 ∧ (s.setTable w).tbl.toNat = w.toNat % 256 := by
  have := w.isLt
  refine ⟨(extract_toNat w 8 8).trans ?_, (extract_toNat w 0 8).trans ?_⟩ <;> omega

theorem exec_ldc_of_mapped {s : State} (h : s.pmMapped s.il = true) :
    exec .ldc s = .next ((s.setTable (memRead s.pm s.il.toNat)).advance 1) := by
  show execLdc s = _
  rw [execLdc, loadTable_of_mapped h, andThen_next]

theorem exec_ldcInc_of_mapped {s : State} (h : s.pmMapped s.il = true) :
    exec .ldcInc s = .next (((s.setTable (memRead s.pm s.il.toNat)).setSpr .ill (s.ill + 1#8)).advance 1) := by
  show execLdcInc s = _
  rw [execLdcInc, loadTable_of_mapped h, andThen_next]
  rfl

theorem loadTable_of_unmapped {s : State} (h : s.pmMapped s.il = false) : loadTable s = .fault .pmUnmapped :=
  andThen_of_fault (pmRead_of_unmapped h) _

/-- Settles O60: the address is IL, and the frames are those of the instructions. -/
theorem programMemoryLoads : Obligations.ProgramMemoryLoads := by
  intro a s ha
  obtain rfl : s.il = a := BitVec.eq_of_toNat_eq ((il_toNat s).trans ha.symm)
  refine ⟨fun mapped => ?_, fun unmapped => ?_⟩
  · obtain ⟨high, low⟩ := setTable_toNat s (memRead s.pm s.il.toNat)
    have ldc := exec_ldc_of_mapped mapped
    have ldcInc := exec_ldcInc_of_mapped mapped
    refine ⟨⟨_, ldc, high, low, rfl, exec_onlyChanges ldc⟩, _, ldcInc, high, low, ?_, rfl, exec_onlyChanges ldcInc⟩
    exact BitVec.toNat_add s.ill 1#8
  · have stops := loadTable_of_unmapped unmapped
    exact ⟨andThen_of_fault stops _, andThen_of_fault stops _⟩

/-! ### NOP, BREAK, COP, SYS -/

/-- The halt that waits after SYS: by its code, where the platform decodes it (rule R333). -/
theorem exec_sys (imm : Byte) (s : State) :
    exec (.sys imm) s =
      .next { (s.emit (.sys imm)).advance 1 with
        haltAfter :=
          if s.chip.decodesStopIdle = true ∧ imm = 0x0A#8 then some .stop
          else if s.chip.decodesStopIdle = true ∧ imm = 0x05#8 then some .idle
          else s.haltAfter } := by
  show execSys imm s = _
  unfold execSys haltCode
  by_cases stop : imm = 0x0A#8
  · subst stop
    cases s.chip.decodesStopIdle <;> rfl
  · by_cases idle : imm = 0x05#8
    · subst idle
      cases s.chip.decodesStopIdle <;> rfl
    · simp only [stop, idle, and_false, if_false]
      rfl

/-- Settles O58: each is one update or two, framed by the instruction. -/
theorem controlInstructions : Obligations.ControlInstructions := by
  intro imm code s
  refine ⟨⟨_, rfl, rfl, advance_onlyChanges s 1⟩, ⟨_, rfl, rfl, setRun_onlyChanges s _⟩, ⟨_, rfl, rfl, rfl, ?_⟩, ?_⟩
  · exact exec_onlyChanges (i := .cop code) rfl
  · exact ⟨_, exec_sys imm s, rfl, rfl, rfl, exec_onlyChanges (exec_sys imm s)⟩

/-! ### CLD -/

theorem exec_cldLoad (d : Gpr) (imm : Byte) (s : State) :
    exec (.cldLoad d imm) s = .next ((s.emit (.copRead imm)).writeLogic d s.inputs.copByte) := rfl

theorem writeLogic_byteFlags (s : State) (d : Gpr) (r : Byte) : ByteFlags r (s.writeLogic d r) :=
  logicFlags_byteFlags (s.setX d r) r

/-- Settles O59: a read writes the coprocessor's byte after its event, a write is the event alone. -/
theorem coprocessorTransfers : Obligations.CoprocessorTransfers := by
  intro d imm s
  refine ⟨⟨_, exec_cldLoad d imm s, ?_, writeLogic_byteFlags _ d _, rfl, rfl, ?_⟩, ⟨_, rfl, rfl, rfl, ?_⟩⟩
  · exact writeLogic_xb (s.emit (.copRead imm)) d _
  · exact ((emit_onlyChanges s _).trans (writeLogic_onlyChanges _ d _)).mono (by simp [writesGpr])
  · exact exec_onlyChanges (i := .cldStore imm d) rfl

end Sys2Proof.Machine
end

section
/-! The decoder by the fields of a word: which part of the opcode map a word stands in, and which row of that part's table,
each said for any word whose fields are known (spec/30_encoding.md rules R91, R100 to R117). -/

namespace Sys2Proof

section
variable {w : Word}

/-! ### Fields of a word -/

/-- A word that matches `v` under the mask `m` has the fields of `v` wherever the mask covers them. -/
theorem field_of_match {m v : Word} (h : w &&& m = v) {lo len : Nat}
    (cover : m.extractLsb' lo len = BitVec.allOnes len) : field w lo len = v.extractLsb' lo len := by
  rw [← field_mask cover w, h, field]

/-- A field whose upper bits are known has one of two values. -/
theorem field_of_upper {lo len : Nat} {k : BitVec len} (upper : field w (lo + 1) len = k) :
    field w lo (len + 1) = k ++ 0#1 ∨ field w lo (len + 1) = k ++ 1#1 := by
  have split : field w (lo + 1) len ++ field w lo 1 = field w lo (len + 1) :=
    BitVec.extractLsb'_append_extractLsb'_eq_extractLsb' rfl
  rw [← split, upper]
  rcases BitVec.eq_zero_or_eq_one (field w lo 1) with bit | bit
  · exact .inl (by rw [bit])
  · exact .inr (by rw [bit])

/-! ### The parts of the opcode map (rules R91, R105) -/

variable (c : Chip) (next : Word)

theorem decode_imm (group : field w 13 3 = 0#3) : decode c w next = .ok (decodeImm w) := by
  rw [decode, group]; rfl

theorem decode_idm (group : field w 13 3 = 1#3) : decode c w next = .ok (decodeIdm w) := by
  rw [decode, group]; rfl

theorem decode_adr (group : field w 13 3 = 2#3) : decode c w next = .ok (decodeAdr w) := by
  rw [decode, group]; rfl

theorem decode_adrCarry (group : field w 13 3 = 3#3) : decode c w next = .ok (decodeAdrCarry w) := by
  rw [decode, group]; rfl

theorem decode_spr0 (group : field w 13 3 = 4#3) (bit : field w 12 1 = 1#1) :
    decode c w next = .ok (decodeSpr0 w) := by
  rw [decode, group, bit]; rfl

theorem decode_low (group : field w 13 3 = 4#3) (bit : field w 12 1 = 0#1) (rows : field w 6 2 = 0#2) :
    decode c w next = decodeLow c w := by
  rw [decode, group, bit, decodeControl, rows]; rfl

theorem decode_sr0Bank (group : field w 13 3 = 4#3) (bit : field w 12 1 = 0#1) (rows : field w 6 2 = 1#2) :
    decode c w next = .ok (decodeSr0Bank c w) := by
  rw [decode, group, bit, decodeControl, rows]; rfl

theorem decode_long (group : field w 13 3 = 4#3) (bit : field w 12 1 = 0#1) (rows : field w 6 2 = 3#2) :
    decode c w next = decodeLong w next := by
  rw [decode, group, bit, decodeControl, rows]; rfl

theorem decode_jr (group : field w 13 3 = 5#3) : decode c w next = .ok (.jr (fieldCc w) (fieldImm9 w)) := by
  rw [decode, group]; rfl

theorem decode_calls (group : field w 13 3 = 6#3) (bit : field w 12 1 = 0#1) :
    decode c w next = .ok (.calls (fieldImm12 w)) := by
  rw [decode, group, bit]; rfl

theorem decode_lnks (group : field w 13 3 = 6#3) (bit : field w 12 1 = 1#1) :
    decode c w next = .ok (.lnks (fieldImm12 w)) := by
  rw [decode, group, bit]; rfl

theorem decode_cop (group : field w 13 3 = 7#3) : decode c w next = .ok (decodeCop w) := by
  rw [decode, group]; rfl

/-! ### Rows that leave one bit of their code to an operand: IR[10] of format BIT, IR[2] of an SPR, IR[11:10] of COP -/

theorem decodeAdr_bitt (op : field w 11 2 = 2#2) : decodeAdr w = .bitt (fieldImm8 w) (fieldBs w) := by
  rcases field_of_upper op with row | row <;> rw [decodeAdr, row] <;> rfl

theorem decodeAdr_bits (op : field w 11 2 = 3#2) : decodeAdr w = .bits (fieldImm8 w) (fieldBs w) := by
  rcases field_of_upper op with row | row <;> rw [decodeAdr, row] <;> rfl

theorem decodeAdrCarry_bitr (op : field w 11 2 = 2#2) : decodeAdrCarry w = .bitr (fieldImm8 w) (fieldBs w) := by
  rcases field_of_upper op with row | row <;> rw [decodeAdrCarry, row] <;> rfl

theorem decodeAdrCarry_bitc (op : field w 11 2 = 3#2) : decodeAdrCarry w = .bitc (fieldImm8 w) (fieldBs w) := by
  rcases field_of_upper op with row | row <;> rw [decodeAdrCarry, row] <;> rfl

theorem decodeCop_cop (bit : field w 12 1 = 1#1) : decodeCop w = .cop (fieldImm12 w) := by
  rcases field_of_upper bit with op | op <;> rcases field_of_upper op with row | row <;> rw [decodeCop, row] <;> rfl

theorem decodeLow_ldSprGpr (rows : field w 3 3 = 3#3) (col : field w 10 2 = 0#2) :
    decodeLow c w = .ok (.ldSprGpr (fieldSpr w) (fieldD w)) := by
  rcases field_of_upper rows with row | row <;> rw [decodeLow, row, col] <;> rfl

theorem decodeLow_ldGprSpr (rows : field w 3 3 = 3#3) (col : field w 10 2 = 1#2) :
    decodeLow c w = .ok (.ldGprSpr (fieldD w) (fieldSpr w)) := by
  rcases field_of_upper rows with row | row <;> rw [decodeLow, row, col] <;> rfl

theorem decodeLow_swap (rows : field w 3 3 = 3#3) (col : field w 10 2 = 2#2) :
    decodeLow c w = .ok (.swap (fieldD w) (fieldSpr w)) := by
  rcases field_of_upper rows with row | row <;> rw [decodeLow, row, col] <;> rfl

theorem decodeLow_toTable (rows : field w 3 3 = 3#3) (col : field w 10 2 = 3#2) :
    decodeLow c w = .ok (if field w 1 1 = 1#1 then .ldTbh (fieldD w) else .ldTbl (fieldD w)) := by
  rcases field_of_upper rows with row | row <;> rw [decodeLow, row, col] <;> rfl

theorem decodeLow_pushSpr (rows : field w 3 3 = 4#3) (col : field w 10 2 = 0#2) :
    decodeLow c w = .ok (.pushSpr (fieldSpr w)) := by
  rcases field_of_upper rows with row | row <;> rw [decodeLow, row, col] <;> rfl

theorem decodeLow_popSpr (rows : field w 3 3 = 4#3) (col : field w 10 2 = 1#2) :
    decodeLow c w = .ok (.popSpr (fieldSpr w)) := by
  rcases field_of_upper rows with row | row <;> rw [decodeLow, row, col] <;> rfl

end

end Sys2Proof
end

section
/-! What decodes and what does not: the well-formedness of decoded instructions, the part the second word has in them, and
the words the decoder rejects (rules R118 to R120, R123, R126, R128). -/

namespace Sys2Proof

/-! ### Decoded instructions are well formed -/

/-- BMS and BMC, the only terms that can fail it, are told apart by BM_SELECT. -/
theorem decodeBm_wellFormed (c : Chip) (w : Word) : (decodeBm c w).wellFormed c = true := by
  unfold decodeBm
  split
  case isTrue selected => exact selected
  case isFalse notSelected => simpa [Instr.wellFormed] using notSelected

theorem ite_wellFormed {c : Chip} {p : Prop} [Decidable p] {i j : Instr} (hi : i.wellFormed c = true)
    (hj : j.wellFormed c = true) : (if p then i else j).wellFormed c = true := by
  split
  · exact hi
  · exact hj

theorem decodeLow_wellFormed {c : Chip} {w : Word} {i : Instr} (h : decodeLow c w = .ok i) :
    i.wellFormed c = true := by
  unfold decodeLow at h
  split at h
  case h_4 => cases h; exact decodeBm_wellFormed c w
  case h_11 | h_12 => cases h; unfold decodeAluOp1; split <;> rfl
  case h_13 | h_14 => unfold decodeAluOp2 at h; split at h <;> cases h <;> rfl
  case h_21 | h_22 | h_30 | h_32 => cases h; exact ite_wellFormed rfl rfl
  case h_27 | h_28 => unfold decodeTwice at h; split at h <;> cases h; rfl
  case h_33 | h_34 => unfold decodeModOp1 at h; split at h <;> cases h <;> rfl
  all_goals cases h <;> rfl

theorem decodeControl_wellFormed {c : Chip} {w next : Word} {i : Instr} (h : decodeControl c w next = .ok i) :
    i.wellFormed c = true := by
  unfold decodeControl at h
  split at h
  case h_1 => exact decodeLow_wellFormed h
  case h_2 => cases h; unfold decodeSr0Bank; split <;> rfl
  case h_3 => unfold decodeLong at h; split at h <;> cases h <;> rfl

theorem wellFormed_of_decode {c : Chip} {w next : Word} {i : Instr} (h : decode c w next = .ok i) :
    i.wellFormed c = true := by
  unfold decode at h
  split at h
  case h_1 => cases h; unfold decodeImm; split <;> rfl
  case h_2 => cases h; unfold decodeIdm; split <;> rfl
  case h_3 => cases h; unfold decodeAdr; split <;> rfl
  case h_4 => cases h; unfold decodeAdrCarry; split <;> rfl
  case h_5 =>
    split at h
    · cases h; unfold decodeSpr0; split <;> rfl
    · exact decodeControl_wellFormed h
  case h_6 => cases h; rfl
  case h_7 => cases h; exact ite_wellFormed rfl rfl
  case h_8 => cases h; unfold decodeCop; split <;> rfl

/-! ### The second word -/

/-- Of the words 8xxxh only the first words of two look at the next word. -/
theorem decodeControl_next {c : Chip} {w : Word} (group : (field w 13 3).toNat = 4) (bit : field w 12 1 ≠ 1#1)
    (h : isFirstOfTwo w = false) (next next' : Word) : decodeControl c w next = decodeControl c w next' := by
  have row : (field w 4 4).toNat < 13 := by
    by_contra long
    exact Bool.eq_false_iff.mp h ((isFirstOfTwo_iff w).mpr ⟨group, bit, by omega⟩)
  simp only [decodeControl, decodeLong_of_lt row]

theorem decode_next {w : Word} (h : isFirstOfTwo w = false) (c : Chip) (next next' : Word) :
    decode c w next = decode c w next' := by
  unfold decode
  split
  case h_5 group =>
    split
    case isTrue => rfl
    case isFalse bit => exact decodeControl_next group bit h next next'
  all_goals rfl

/-- Settles O8: well-formedness group by group, the length by `isFirstOfTwo_eq_isLong_of_decode`. -/
theorem decodedInstructions : Obligations.DecodedInstructions := by
  intro c w next i h
  have length := isFirstOfTwo_eq_isLong_of_decode h
  exact ⟨wellFormed_of_decode h, length, fun short next' => decode_next (length.trans short) c next' next ▸ h⟩

/-! ### Rejected words -/

/-- Only group 100 with IR[12] = 0 holds words that are no instruction. -/
theorem decodeControl_of_decode_error {c : Chip} {w next : Word} {e : DecodeError} (h : decode c w next = .error e) :
    w.toNat / 4096 = 8 ∧ decodeControl c w next = .error e := by
  unfold decode at h
  split at h
  case h_5 group =>
    split at h
    case isTrue => cases h
    case isFalse bit =>
      refine ⟨?_, h⟩
      rw [← BitVec.toNat_inj, field_toNat, BitVec.toNat_ofNat] at bit
      rw [field_toNat] at group
      omega
  all_goals cases h

/-- What rules R119, R120 and R128 say of a word rejected for the reason given. -/
def RejectedFor (w : Word) : DecodeError → Prop
  | .invalid => Machine.InvalidWord w
  | .reserved => Machine.ReservedWord w
  | .fieldsDiffer => Machine.DifferingWord w

theorem decode_of_rejectedFor {w : Word} {e : DecodeError} (h : RejectedFor w e) (c : Chip) (next : Word) :
    decode c w next = .error e := by
  cases e with
  | invalid => exact decode_of_invalidWord h c next
  | reserved => exact decode_of_reservedWord h c next
  | fieldsDiffer => exact decode_of_differingWord h c next

/-- An unused place of rule R105's table is in a row of rule R119's table. -/
theorem invalidWord_of_unused {w : Word} (group : w.toNat / 4096 = 8)
    (h : w.toNat % 256 < 0x40 ∧ LowUnused (field w 2 4).toNat (field w 10 2).toNat ∨
      0x80 ≤ w.toNat % 256 ∧ (field w 4 4).toNat < 13) : Machine.InvalidWord w := by
  refine ⟨group, ?_⟩
  simp only [LowUnused, field_toNat] at h
  simp only [Machine.invalidRows, List.mem_cons, List.not_mem_nil, or_false, exists_eq_or_imp, exists_eq_left]
  rcases h with ⟨low, h⟩ | ⟨high, long⟩
  · rcases h with ⟨row | row, col⟩ | row | ⟨row, col⟩ | ⟨row, col⟩ | ⟨row, col⟩ | row <;> omega
  · omega

theorem decodeAluOp2_error {w : Word} {e : DecodeError} (h : decodeAluOp2 w = .error e) :
    e = .reserved ∧ (field w 0 3).toNat = 7 := by
  have lt : (field w 0 3).toNat < 8 := (field w 0 3).isLt
  unfold decodeAluOp2 at h
  split at h <;> cases h
  exact ⟨rfl, by grind⟩

theorem decodeModOp1_error {w : Word} {e : DecodeError} (h : decodeModOp1 w = .error e) :
    e = .reserved ∧ 5 ≤ (field w 0 3).toNat := by
  unfold decodeModOp1 at h
  split at h <;> cases h
  exact ⟨rfl, by grind⟩

theorem decodeTwice_error {w : Word} {i : Gpr → Instr} {e : DecodeError} (h : decodeTwice w i = .error e) :
    e = .fieldsDiffer ∧ (field w 8 2).toNat ≠ (field w 0 2).toNat := by
  unfold decodeTwice at h
  split at h <;> cases h
  case isFalse differ => exact ⟨rfl, mt BitVec.eq_of_toNat_eq differ⟩

/-- The rows below 40h that reject a word: the tables with reserved codes, PUSH and POP, and the unused places. -/
theorem rejectedFor_of_decodeLow_error {c : Chip} {w : Word} {e : DecodeError} (group : w.toNat / 4096 = 8)
    (low : w.toNat % 256 < 0x40) (h : decodeLow c w = .error e) : RejectedFor w e := by
  have four : (field w 10 2).toNat < 4 := (field w 10 2).isLt
  unfold decodeLow at h
  split at h
  case h_13 row col | h_14 row col =>
    obtain ⟨rfl, code⟩ := decodeAluOp2_error h
    rw [field_toNat] at row col code
    exact .inl (by omega)
  case h_27 row col | h_28 row col =>
    obtain ⟨rfl, differ⟩ := decodeTwice_error h
    rw [field_toNat] at row col
    rw [field_toNat, field_toNat] at differ
    exact ⟨by omega, by omega, by omega⟩
  case h_33 row col | h_34 row col =>
    obtain ⟨rfl, code⟩ := decodeModOp1_error h
    rw [field_toNat] at row col code
    exact .inr (by omega)
  case h_35 =>
    cases h
    refine invalidWord_of_unused group (.inl ⟨low, ?_⟩)
    generalize (field w 2 4).toNat = row, (field w 10 2).toNat = col at *
    unfold LowUnused
    interval_cases col <;> grind
  all_goals cases h

theorem rejectedFor_of_decode_error {c : Chip} {w next : Word} {e : DecodeError} (h : decode c w next = .error e) :
    RejectedFor w e := by
  obtain ⟨group, h⟩ := decodeControl_of_decode_error h
  unfold decodeControl at h
  split at h
  case h_1 rows =>
    rw [field_toNat] at rows
    exact rejectedFor_of_decodeLow_error group (by omega) h
  case h_2 => cases h
  case h_3 _ row0 row1 =>
    have lt : (field w 4 4).toNat < 16 := (field w 4 4).isLt
    have high : 2 ≤ (field w 6 2).toNat := by grind
    rw [field_toNat] at high
    unfold decodeLong at h
    split at h <;> cases h
    exact invalidWord_of_unused group (.inr ⟨by omega, by grind⟩)

theorem decode_eq_error_iff (c : Chip) (w next : Word) (e : DecodeError) :
    decode c w next = .error e ↔ RejectedFor w e :=
  ⟨rejectedFor_of_decode_error, fun h => decode_of_rejectedFor h c next⟩

/-- Settles O9: what each part of the opcode map rejects, and that the listed words are rejected. -/
theorem rejectedWords : Obligations.RejectedWords := fun c w next =>
  ⟨decode_eq_error_iff c w next .invalid, decode_eq_error_iff c w next .reserved,
    decode_eq_error_iff c w next .fieldsDiffer⟩

end Sys2Proof
end

section
/-! Decoding what the encoder writes (rule R92): the operands read back from each format, then the instructions by
format. -/

namespace Sys2Proof

/-! ### Operands read back -/

section
variable (g o : BitVec 3) (t : BitVec 2) (l : Byte)

@[simp] theorem fieldD_wordOf (d : Gpr) : fieldD (wordOf g o (gprCode d) l) = d := by
  simp [fieldD]

@[simp] theorem fieldImm8_wordOf : fieldImm8 (wordOf g o t l) = l := by
  simp [fieldImm8, field_wordOf_low]

@[simp] theorem fieldIdm_wordOf (m : Idm) : fieldIdm (wordOf g o t (encIdmLow m)) = m := by
  simp [fieldIdm, encIdmLow, field_wordOf_low, lowIdm_slices]

@[simp] theorem fieldG_wordOf (mid : BitVec 6) (r : Gpr) : fieldG (wordOf g o t (mid ++ gprCode r)) = r := by
  simp [fieldG, field_wordOf_low, lowRR_slices]

@[simp] theorem fieldG_wordOf_bank (n : BitVec 4) (r : Gpr) :
    fieldG (wordOf g o t (1#2 ++ n ++ gprCode r)) = r := by
  simp [fieldG, field_wordOf_low, lowBank_slices]

@[simp] theorem fieldSpr_wordOf (mid : BitVec 5) (r : Spr) : fieldSpr (wordOf g o t (mid ++ sprCode r)) = r := by
  simp [fieldSpr, field_wordOf_low, lowSpr_slices]

/-- IR[10:8] of format BIT. -/
@[simp] theorem fieldBs_wordOf (op : BitVec 2) (bs : BitVec 3) :
    fieldBs (wordOf g (op ++ bs.extractLsb' 2 1) (bs.extractLsb' 0 2) l) = bs := by
  rw [fieldBs, field_wordOf_bitNumber, BitVec.extractLsb'_append_eq_right]
  exact BitVec.extractLsb'_append_extractLsb' (w := 1) (len := 2)

/-- IR[12:11], the operation of format BIT. -/
@[simp] theorem field_wordOf_bitOperation (op : BitVec 2) (b : BitVec 1) : field (wordOf g (op ++ b) t l) 11 2 = op := by
  apply BitVec.eq_of_getLsbD_eq
  intro i hi
  simp only [field, wordOf, BitVec.getLsbD_extractLsb', BitVec.getLsbD_append]
  interval_cases i <;> simp

/-- The upper bit of the operation, above two others. -/
@[simp] theorem upper_of_append (b : BitVec 1) (k : BitVec 2) : (b ++ k : BitVec 3).extractLsb' 2 1 = b :=
  BitVec.extractLsb'_append_eq_left

@[simp] theorem fieldCc_wordOf (b : BitVec 1) (cc : Cond) :
    fieldCc (wordOf g (b ++ (condCode cc).extractLsb' 2 2) ((condCode cc).extractLsb' 0 2) l) = cc := by
  rw [fieldCc, field_wordOf_condition, BitVec.extractLsb'_append_eq_right,
    BitVec.extractLsb'_append_extractLsb' (w := 2) (len := 2), condOfCode_condCode]

@[simp] theorem fieldImm9_wordOf (k : BitVec 2) (imm : BitVec 9) :
    fieldImm9 (wordOf g (imm.extractLsb' 8 1 ++ k) t (imm.extractLsb' 0 8)) = imm := by
  rw [fieldImm9, field_wordOf_operationHigh, upper_of_append, field_wordOf_low _ _ _ _ (by decide), BitVec.extractLsb'_eq_self]
  exact BitVec.extractLsb'_append_extractLsb' (w := 1) (len := 8)

@[simp] theorem fieldImm12_wordOf (b : BitVec 1) (imm : BitVec 12) :
    fieldImm12 (wordOf g (b ++ imm.extractLsb' 10 2) (imm.extractLsb' 8 2) (imm.extractLsb' 0 8)) = imm := by
  rw [fieldImm12, field_wordOf_imm12, BitVec.extractLsb'_append_eq_right,
    BitVec.extractLsb'_append_extractLsb'_eq_extractLsb' (start₂ := 10) (start₁ := 8) rfl]
  exact BitVec.extractLsb'_append_extractLsb' (w := 4) (len := 8)

@[simp] theorem fieldImm20_wordOf (op : BitVec 4) (imm : PAddr) :
    fieldImm20 (wordOf g o t (op ++ imm.extractLsb' 16 4)) (imm.extractLsb' 0 16) = imm := by
  rw [fieldImm20, field_wordOf_low _ _ _ _ (by decide), BitVec.extractLsb'_append_eq_right]
  exact BitVec.extractLsb'_append_extractLsb' (w := 4) (len := 16)

@[simp] theorem fieldSr0Imm_wordOf (imm : Byte) :
    fieldSr0Imm (wordOf g o (imm.extractLsb' 6 2) (1#2 ++ imm.extractLsb' 0 6)) = imm := by
  rw [fieldSr0Imm, field_wordOf_top, field_wordOf_low _ _ _ _ (by decide), BitVec.extractLsb'_append_eq_right]
  exact BitVec.extractLsb'_append_extractLsb' (w := 2) (len := 6)

@[simp] theorem fieldBmSelect_wordOf (sel : BitVec 4) :
    fieldBmSelect (wordOf g o (sel.extractLsb' 2 2) (0#6 ++ sel.extractLsb' 0 2)) = sel := by
  rw [fieldBmSelect, field_wordOf_top, field_wordOf_low _ _ _ _ (by decide), BitVec.extractLsb'_append_eq_right]
  exact BitVec.extractLsb'_append_extractLsb' (w := 2) (len := 2)

end

/-- IR[5:3] of formats RS and S. -/
theorem lowSpr_rows (mid : BitVec 5) (r : BitVec 3) : (mid ++ r : Byte).extractLsb' 3 3 = mid.extractLsb' 0 3 := by
  revert mid r
  decide +kernel

/-- BANK: IR[7:3] above three bits without a meaning. -/
theorem encBank_eq (c : Chip) (imm : BitVec 2) :
    encodeFirst c (.bank imm) = wordOf 4#3 3#3 0#2 (2#3 ++ imm ++ 0#3) := by
  show (0b100011#6 ++ 0#2 ++ 1#2 ++ 0#1 ++ imm ++ 0#3 : Word) = _
  revert imm
  decide

theorem lowBankImm_slices (imm : BitVec 2) :
    (2#3 ++ imm ++ 0#3 : Byte).extractLsb' 6 2 = 1#2 ∧ (2#3 ++ imm ++ 0#3 : Byte).extractLsb' 3 2 = imm := by
  revert imm
  decide

/-! ### The instructions, by format -/

/-- Each format is the four parts of `wordOf`: its fixed parts lead the decoder to the row, and its operands read back. -/
theorem decode_encodeFirst {c : Chip} {i : Instr} {next : Word} (wf : i.wellFormed c = true)
    (second : i.isLong = true → next = encodeSecond i) : decode c (encodeFirst c i) next = .ok i := by
  cases i
  case addImm | subImm | cpImm | ldImm | tmImm | andImm | orImm | xorImm =>
    simp [encodeFirst, encGpr_eq, decode_imm, decodeImm]
  case addIdm | subIdm | cpIdm | ldIdm | stIdm | andIdm | orIdm | xorIdm =>
    simp [encodeFirst, encGpr_eq, decode_idm, decodeIdm]
  case addAdr | subAdr | cpAdr | ldAdr => simp [encodeFirst, encGpr_eq, decode_adr, decodeAdr]
  case bitt | bits => simp [encodeFirst, encBit_eq, decode_adr, decodeAdr_bitt, decodeAdr_bits]
  case adcAdr | sbcAdr | cpcAdr | stAdr => simp [encodeFirst, encGpr_eq, decode_adrCarry, decodeAdrCarry]
  case bitr | bitc => simp [encodeFirst, encBit_eq, decode_adrCarry, decodeAdrCarry_bitr, decodeAdrCarry_bitc]
  case ldSpr0Imm => simp [encodeFirst, encTop6_eq, decode_spr0, decodeSpr0]
  case andAdr | orAdr | xorAdr => simp [encodeFirst, encGpr_eq, decode_spr0, decodeSpr0]
  case addReg | subReg | cpReg | adcReg | sbcReg | cpcReg | andReg | orReg | xorReg | ldReg =>
    simp [encodeFirst, encRR_eq, decode_low, decodeLow, field_wordOf_low, lowRR_slices]
  case bms sel =>
    have selected : c.selectsBms sel = true := wf
    simp [encodeFirst, encBm_eq, decode_low, decodeLow, decodeBm, selected, field_wordOf_low, lowRR_slices]
  case bmc sel =>
    have selected : c.selectsBms sel = false := by simpa [Instr.wellFormed] using wf
    simp [encodeFirst, encBm_eq, decode_low, decodeLow, decodeBm, selected, field_wordOf_low, lowRR_slices]
  case sla | sl | rlc | rl | sra | sr | rrc | rr =>
    simp [encodeFirst, encOne_eq, decode_low, decodeLow, decodeAluOp1, field_wordOf_low]
  case inc | incc | dec | decc | com | com2 | comc =>
    simp [encodeFirst, encOne_eq, decode_low, decodeLow, decodeAluOp2, field_wordOf_low]
  case ldSprGpr | ldGprSpr | swap | pushSpr | popSpr =>
    simp [encodeFirst, encSpr_eq, decode_low, decodeLow_ldSprGpr, decodeLow_ldGprSpr, decodeLow_swap,
      decodeLow_pushSpr, decodeLow_popSpr, field_wordOf_low, lowSpr_slices, lowSpr_rows]
  case ldTbl | ldTbh | ldFromTbl | ldFromTbh =>
    simp [encodeFirst, encOne_eq, decode_low, decodeLow, field_wordOf_low]
  case pushGpr | popGpr =>
    simp [encodeFirst, encRR_eq, decode_low, decodeLow, decodeTwice, field_wordOf_low, lowRR_slices]
  case pop | ldc | ldcInc | lret | ret | iret | nop | brk => rw [encodeFirst]; rfl
  case ldBank =>
    simp [encodeFirst, encLdBank_eq, decode_sr0Bank, decodeSr0Bank, decodeLdBank, field_wordOf_low, lowBank_slices]
  case andSr0 | orSr0 =>
    simp [encodeFirst, encSr0_eq, decode_sr0Bank, decodeSr0Bank, field_wordOf_low, lowSr0_slices]
  case bank => simp [encBank_eq, decode_sr0Bank, decodeSr0Bank, field_wordOf_low, lowBankImm_slices]
  case lcall | llnk | ljp =>
    rw [second rfl]
    simp [encodeFirst, encodeSecond, encLong_eq, decode_long, decodeLong, field_wordOf_low, lowLong_slices]
  case jr => simp [encJr_eq, decode_jr]
  case calls | lnks | cop =>
    simp [encodeFirst, encImm12_eq, decode_calls, decode_lnks, decode_cop, decodeCop_cop]
  case cldLoad | cldStore | jnzd => simp [encodeFirst, encGpr_eq, decode_cop, decodeCop]
  case sys =>
    rw [encodeFirst, encTop6_eq]
    simp [decode_cop, decodeCop]

/-- Settles O7: by the format of the instruction. -/
theorem decodeEncode : Obligations.DecodeEncode := fun _ _ _ wf second => decode_encodeFirst wf second

end Sys2Proof
end

section
/-! The opcode map by match and mask (rules R100 to R117, R126 to R128): a word that matches under the mask has the fixed
fields, and the registers are those whose codes its other fields hold. -/

namespace Sys2Proof

/-! ### Operands by their codes -/

section
variable {w : Word}

theorem fieldD_eq {d : Gpr} (h : gprCode d = w.extractLsb' 8 2) : fieldD w = d := by
  rw [fieldD, field, ← h, gprOfCode_gprCode]

theorem fieldG_eq {g : Gpr} (h : gprCode g = w.extractLsb' 0 2) : fieldG w = g := by
  rw [fieldG, field, ← h, gprOfCode_gprCode]

theorem fieldSpr_eq {r : Spr} (h : sprCode r = w.extractLsb' 0 3) : fieldSpr w = r := by
  rw [fieldSpr, field, ← h, sprOfCode_sprCode]

theorem spr0OfCode_eq {r : Spr0} (h : spr0Code r = w.extractLsb' 8 2) : spr0OfCode (field w 8 2) = r := by
  rw [field, ← h, spr0OfCode_spr0Code]

theorem fieldCc_eq {cc : Cond} (h : condCode cc = w.extractLsb' 8 4) : fieldCc w = cc := by
  rw [fieldCc, field, ← h, condOfCode_condCode]

theorem fieldIdm_eq {m : Idm} (hx : idxCode m.idx = w.extractLsb' 7 1) (hm : modeCode m.mode = w.extractLsb' 5 2)
    (ho : m.off = w.extractLsb' 0 5) : fieldIdm w = m := by
  rw [fieldIdm, field, field, field, ← hx, ← hm, ← ho, idxOfCode_idxCode, modeOfCode_modeCode]

/-- PUSH and POP of a GPR named twice. -/
theorem decodeTwice_eq {d g : Gpr} (hd : gprCode d = w.extractLsb' 8 2) (hg : gprCode g = w.extractLsb' 0 2)
    (same : d = g) (i : Gpr → Instr) : decodeTwice w i = .ok (i d) := by
  rw [decodeTwice, fieldD_eq hd, field, field, ← hd, ← hg, if_pos (congrArg gprCode same)]

theorem bit_of_field {lo len k : Nat} (h : k < len) : (field w lo len).extractLsb' k 1 = w.extractLsb' (k + lo) 1 := by
  apply BitVec.eq_of_getLsbD_eq
  intro i hi
  obtain rfl : i = 0 := by omega
  simp only [field, BitVec.getLsbD_extractLsb', Nat.add_zero, h, decide_true, Bool.true_and, Nat.add_comm]

/-- A bank number read from IR[5:2] is two bits of the word. -/
theorem bankNumber_field {p : Nat × Nat} (high : p.1 < 4) (low : p.2 < 4) :
    bankNumber (field w 2 4) p = w.extractLsb' (p.1 + 2) 1 ++ w.extractLsb' (p.2 + 2) 1 := by
  rw [bankNumber, bit_of_field high, bit_of_field low]

/-- The places of the bank numbers' bits are among the four of IR[5:2], as they are these four in some order. -/
theorem bankPlaces_lt (f : BankFields) :
    ((bankdPlace f).1 < 4 ∧ (bankdPlace f).2 < 4) ∧ (banksPlace f).1 < 4 ∧ (banksPlace f).2 < 4 := by
  have four : ∀ k ∈ [(bankdPlace f).1, (bankdPlace f).2, (banksPlace f).1, (banksPlace f).2], k < 4 := by
    intro k hk
    rw [(bankPlaces_perm f).mem_iff] at hk
    revert k
    decide
  simpa [and_assoc] using four

theorem decodeLdBank_eq (c : Chip) {d g : Gpr} (hd : gprCode d = w.extractLsb' 8 2)
    (hg : gprCode g = w.extractLsb' 0 2) :
    let p := bankdPlace c.bankFields
    let q := banksPlace c.bankFields
    decodeLdBank c w = .ldBank (w.extractLsb' (p.1 + 2) 1 ++ w.extractLsb' (p.2 + 2) 1) d
      (w.extractLsb' (q.1 + 2) 1 ++ w.extractLsb' (q.2 + 2) 1) g := by
  obtain ⟨⟨p1, p2⟩, q1, q2⟩ := bankPlaces_lt c.bankFields
  rw [decodeLdBank, fieldD_eq hd, fieldG_eq hg, bankNumber_field p1 p2, bankNumber_field q1 q2]

end

/-! ### The tables -/

/-- Settles O10: rule by rule, the row of the table by the fixed fields. -/
theorem encodingsWithImmediates : Obligations.EncodingsWithImmediates := by
  intro c w next d r cc hd hr hcc
  have dField := fieldD_eq hd
  have imm8 : fieldImm8 w = w.extractLsb' 0 8 := rfl
  have bs : fieldBs w = w.extractLsb' 8 3 := rfl
  have imm9 : fieldImm9 w = w.extractLsb' 12 1 ++ w.extractLsb' 0 8 := rfl
  have imm12 : fieldImm12 w = w.extractLsb' 0 12 := rfl
  -- rule R100
  iterate 8 refine ⟨fun h => by simp [decode_imm, decodeImm, field_of_match h, dField, imm8], ?_⟩
  -- rule R102
  iterate 4 refine ⟨fun h => by simp [decode_adr, decodeAdr, field_of_match h, dField, imm8], ?_⟩
  iterate 2 refine ⟨fun h => by simp [decode_adr, decodeAdr_bitt, decodeAdr_bits, field_of_match h, imm8, bs], ?_⟩
  -- rule R103
  iterate 4 refine ⟨fun h => by simp [decode_adrCarry, decodeAdrCarry, field_of_match h, dField, imm8], ?_⟩
  iterate 2
    refine ⟨fun h => by
      simp [decode_adrCarry, decodeAdrCarry_bitr, decodeAdrCarry_bitc, field_of_match h, imm8, bs], ?_⟩
  -- rule R104
  refine ⟨fun h => by simp [decode_spr0, decodeSpr0, field_of_match h, spr0OfCode_eq hr, imm8], ?_⟩
  iterate 3 refine ⟨fun h => by simp [decode_spr0, decodeSpr0, field_of_match h, dField, imm8], ?_⟩
  -- rules R115, R116
  refine ⟨fun h => by simp [decode_jr, field_of_match h, fieldCc_eq hcc, imm9], ?_⟩
  refine ⟨fun h => by simp [decode_calls, field_of_match h, imm12], ?_⟩
  refine ⟨fun h => by simp [decode_lnks, field_of_match h, imm12], ?_⟩
  -- rule R117
  iterate 4 refine ⟨fun h => by simp [decode_cop, decodeCop, field_of_match h, dField, imm8], ?_⟩
  exact fun h => by simp [decode_cop, decodeCop_cop, field_of_match h, imm12]

/-- Settles O11: rule by rule, the row of the table by the fixed fields. -/
theorem encodingsWithRegisters : Obligations.EncodingsWithRegisters := by
  intro c w next d g r cc m hd hg hr hcc hx hm ho
  have dField := fieldD_eq hd
  have gField := fieldG_eq hg
  have spr := fieldSpr_eq hr
  have idm := fieldIdm_eq hx hm ho
  have sr0Imm : fieldSr0Imm w = w.extractLsb' 8 2 ++ w.extractLsb' 0 6 := rfl
  have bank : field w 3 2 = w.extractLsb' 3 2 := rfl
  have select : fieldBmSelect w = w.extractLsb' 8 2 ++ w.extractLsb' 0 2 := rfl
  have imm20 : fieldImm20 w next = w.extractLsb' 0 4 ++ next := rfl
  -- rule R101
  iterate 8 refine ⟨fun h => by simp [decode_idm, decodeIdm, field_of_match h, dField, idm], ?_⟩
  -- rules R106, R110
  iterate 10 refine ⟨fun h => by simp [decode_low, decodeLow, field_of_match h, dField, gField], ?_⟩
  -- rule R107
  iterate 8 refine ⟨fun h => by simp [decode_low, decodeLow, decodeAluOp1, field_of_match h, dField], ?_⟩
  iterate 7 refine ⟨fun h => by simp [decode_low, decodeLow, decodeAluOp2, field_of_match h, dField], ?_⟩
  -- rule R108
  refine ⟨fun h => by simp [decode_low, decodeLow_ldSprGpr, field_of_match h, dField, spr], ?_⟩
  refine ⟨fun h => by simp [decode_low, decodeLow_ldGprSpr, field_of_match h, dField, spr], ?_⟩
  refine ⟨fun h => by simp [decode_low, decodeLow_swap, field_of_match h, dField, spr], ?_⟩
  iterate 2 refine ⟨fun h => by simp [decode_low, decodeLow_toTable, field_of_match h, dField], ?_⟩
  -- rules R109, R110, R128
  refine ⟨fun h => by simp [decode_low, decodeLow_pushSpr, field_of_match h, spr], ?_⟩
  refine ⟨fun h => by simp [decode_low, decodeLow_popSpr, field_of_match h, spr], ?_⟩
  iterate 2
    refine ⟨fun h same => by simp [decode_low, decodeLow, field_of_match h, decodeTwice_eq hd hg same], ?_⟩
  -- rules R110, R111, R112
  iterate 2 refine ⟨fun h => by simp [decode_low, decodeLow, field_of_match h, dField], ?_⟩
  iterate 3 refine ⟨fun h => by simp [decode_low, decodeLow, field_of_match h], ?_⟩
  iterate 5 refine ⟨fun h => by simp [decode_low, decodeLow, decodeModOp1, field_of_match h], ?_⟩
  -- rules R113, R127
  refine ⟨bankPlaces_perm c.bankFields, ?_⟩
  refine ⟨fun h => by simp [decode_sr0Bank, decodeSr0Bank, field_of_match h, decodeLdBank_eq c hd hg], ?_⟩
  iterate 2 refine ⟨fun h => by simp [decode_sr0Bank, decodeSr0Bank, field_of_match h, sr0Imm], ?_⟩
  refine ⟨fun h => by simp [decode_sr0Bank, decodeSr0Bank, field_of_match h, bank], ?_⟩
  -- rule R126
  refine ⟨fun h => by simp [decode_low, decodeLow, field_of_match h, decodeBm, select], ?_⟩
  -- rule R114
  iterate 2 refine ⟨fun h => by simp [decode_long, decodeLong, field_of_match h, fieldCc_eq hcc, imm20], ?_⟩
  exact fun h => by simp [decode_long, decodeLong, field_of_match h, fieldCc_eq hcc, imm20]

/-- Settles O12: each word is a number, so the decoder computes. -/
theorem printedWords : Obligations.PrintedWords := fun _ =>
  ⟨rfl, rfl, rfl, rfl, rfl, rfl, rfl, rfl, rfl, rfl⟩

end Sys2Proof
end

section
/-! CP, the forms with carry, the one-register arithmetic, and the conditions after a comparison (spec/40_alu.md). A
subtraction is `addC` with a complement, whose exact unsigned sum is 256 more than the difference (`sum_not_eq_sub`). -/

namespace Sys2Proof.Machine

/-! ### What a comparison writes -/

@[simp] theorem compareSum_c (s : State) (o : Sum) : (s.compareSum o).c = o.c := by
  simp [State.compareSum, State.arithFlags]
@[simp] theorem compareSum_z (s : State) (o : Sum) : (s.compareSum o).z = (o.r == 0#8) := by
  simp [State.compareSum, State.arithFlags]
@[simp] theorem compareSum_v (s : State) (o : Sum) : (s.compareSum o).v = o.v := by
  simp [State.compareSum, State.arithFlags]
@[simp] theorem compareSum_n (s : State) (o : Sum) : (s.compareSum o).n = (o.v ^^ o.r.msb) := by
  simp [State.compareSum, State.arithFlags]
@[simp] theorem compareSum_idb (s : State) (o : Sum) : (s.compareSum o).idb = s.idb := rfl

/-- An effect that adds the complement of `b` with carry `cin` and drops the sum, with any operand. -/
theorem withSource_compares {src : Source} {a b : Byte} {cin : Bool} {f : Byte → State → State} {s : State}
    (hv : src.value s = some b) (hf : f b s = s.compareSum (addC a (~~~b) cin)) :
    Compares s (src.parts s) ((a.toNat : Int) - b.toNat - (1 - cin.toNat)) (a.toInt - b.toInt - (1 - cin.toNat))
      (withSource src f s) := by
  obtain ⟨t, ht, ⟨-, hr, hp⟩, ho⟩ :=
    withSource_completes hv (hf ▸ compareSum_onlyChanges s _) (hf ▸ compareSum_idb s _)
  rw [hf] at hr hp
  obtain ⟨hc, hz, hv, hn⟩ := State.flags_congr hr
  obtain ⟨hx, hy⟩ := sum_not_eq_sub a b cin
  have flags := sumFlags_addC (hc.trans (compareSum_c ..)) (hz.trans (compareSum_z ..)) (hv.trans (compareSum_v ..))
    (hn.trans (compareSum_n ..))
  rw [hy] at flags
  refine ⟨t, ht, flags.difference hx, hp, ho.mono ?_⟩
  simp
  tauto

/-- An effect that adds the complement of the operand with carry `cin` and writes the sum to Rd subtracts. -/
theorem withSource_writesDifference {src : Source} {a b : Byte} {cin : Bool} {d : Gpr} {f : Byte → State → State}
    {s : State} (hv : src.value s = some b) (hf : f b s = s.writeSum d (addC a (~~~b) cin)) :
    WritesDifference s d (src.parts s) ((a.toNat : Int) - b.toNat - (1 - cin.toNat))
      (a.toInt - b.toInt - (1 - cin.toNat)) (withSource src f s) := by
  obtain ⟨hx, hy⟩ := sum_not_eq_sub a b cin
  exact hy ▸ (withSource_writesSum hv hf).difference hx

/-! ### CP -/

theorem exec_cpForm (d : Gpr) (src : Source) (s : State) : exec (cpForm d src) s = withSource src (cpWith d) s := by
  cases src <;> rfl

/-- Settles O29: CP adds the complement with carry in 1, so it borrows nothing. -/
theorem cpComparesOperand : Obligations.CpComparesOperand := by
  intro d src b s hv
  rw [exec_cpForm]
  simpa using withSource_compares (f := cpWith d) hv rfl

/-! ### ADC, SBC, CPC -/

/-- Settles O32: each is the addition with the old carry, of the operand or of its complement. -/
theorem carryFormsUseCarry : Obligations.CarryFormsUseCarry := by
  intro d g adr s a m b c
  have hm : (Source.adr adr).value s = some m := rfl
  have hb : (Source.reg g).value s = some b := rfl
  exact ⟨withSource_writesSum (f := adcWith d) hm rfl, withSource_writesSum (f := adcWith d) hb rfl,
    withSource_writesDifference (f := sbcWith d) hm rfl, withSource_writesDifference (f := sbcWith d) hb rfl,
    withSource_compares (f := cpcWith d) hm rfl, withSource_compares (f := cpcWith d) hb rfl⟩

/-! ### The one-register arithmetic -/

/-- A sum written to Rd whose exact values are `x` and `y`. -/
theorem writeSum_writesSum (s : State) (d : Gpr) (a b : Byte) (cin : Bool) {x : Nat} {y : Int}
    (hx : a.toNat + b.toNat + cin.toNat = x) (hy : a.toInt + b.toInt + cin.toNat = y) :
    WritesSum s d [] x y (.next (s.writeSum d (addC a b cin))) :=
  hx ▸ hy ▸ withSource_writesSum (src := .imm b) (f := fun v t => t.writeSum d (addC a v cin)) rfl rfl

/-- Settles O33: INC and INCC add 1 and the carry; DEC and DECC add FFh, which is -1 and unsigned 256 more; COM2 and COMC
add 1 and the carry to the complement, which stands to 0 as in a subtraction. -/
theorem oneRegisterArithmetic : Obligations.OneRegisterArithmetic := by
  intro d s a c
  have ha := a.isLt
  have notNat : (~~~a).toNat = 255 - a.toNat := BitVec.toNat_not
  have notInt : (~~~a).toInt = -a.toInt - 1 := by simpa using (sum_not_eq_sub 0x00#8 a false).2
  refine ⟨?inc, ?incc, ?dec, ?decc, ?com, ?com2, ?comc⟩
  case inc => exact writeSum_writesSum s d a 0x01#8 false (by simp) (by simp)
  case incc => exact writeSum_writesSum s d a 0x00#8 s.c (by simp [c]) (by simp [c])
  case dec => exact (writeSum_writesSum s d a 0xFF#8 false rfl (by simp; omega)).difference (by simp; omega)
  case decc => exact (writeSum_writesSum s d a 0xFF#8 s.c rfl (by simp [c]; omega)).difference (by simp [c]; omega)
  case com => exact withSource_writesByte (src := .imm (~~~a)) (f := fun v t => t.writeLogic d v) rfl rfl
  case com2 => exact writeSum_writesSum s d (~~~a) 0x00#8 true (by simp [notNat]; omega) (by simp [notInt])
  case comc => exact writeSum_writesSum s d (~~~a) 0x00#8 s.c (by simp [notNat, c]) (by simp [notInt, c])

/-! ### The conditions after a comparison -/

/-- The flags of the difference of two bytes compare them: C as unsigned numbers, N as signed numbers, Z for equality. -/
theorem DifferenceFlags.compare {a b : Byte} {t : State}
    (h : DifferenceFlags ((a.toNat : Int) - b.toNat) (a.toInt - b.toInt) t) :
    t.c = decide (b.toNat ≤ a.toNat) ∧ t.z = decide (a = b) ∧ t.n = decide (a.toInt < b.toInt) := by
  obtain ⟨hc, hz, -, hn⟩ := h
  have ha := a.isLt
  have hb := b.isLt
  refine ⟨hc.trans (decide_eq_decide.mpr ?_), hz.trans (decide_eq_decide.mpr ?_), hn.trans (decide_eq_decide.mpr ?_)⟩
  · omega
  · rw [← BitVec.toNat_inj]
    omega
  · omega

/-- Settles O34: the conditions read C, Z and N, and equal bytes are equal as unsigned and as signed numbers. -/
theorem conditionsAfterCompare : Obligations.ConditionsAfterCompare := by
  intro d src b s t hv ht
  obtain ⟨t', ht', hf, -⟩ := cpComparesOperand d src b s hv
  cases ht.symm.trans ht'
  obtain ⟨hc, hz, hn⟩ := hf.compare
  dsimp only
  generalize s.x d = a at hc hz hn ⊢
  have zUnsigned : t.z = decide (a.toNat = b.toNat) := hz.trans (decide_eq_decide.mpr BitVec.toNat_inj.symm)
  have zSigned : t.z = decide (a.toInt = b.toInt) := hz.trans (decide_eq_decide.mpr BitVec.toInt_inj.symm)
  refine ⟨?nc, hc, ?ule, ?ugt, hz, ?nz, hn, ?zp, ?pl, ?zn⟩
  case nc => simp only [State.cond, hc, ← decide_not, decide_eq_decide]; omega
  case ule => simp only [State.cond, hc, zUnsigned, ← decide_not, ← Bool.decide_or, decide_eq_decide]; omega
  case ugt => simp only [State.cond, hc, zUnsigned, ← decide_not, ← Bool.decide_and, decide_eq_decide]; omega
  case nz => simp only [State.cond, hz, ← decide_not]
  case zp => simp only [State.cond, hn, ← decide_not, decide_eq_decide]; omega
  case pl => simp only [State.cond, hn, zSigned, ← decide_not, ← Bool.decide_and, decide_eq_decide]; omega
  case zn => simp only [State.cond, hn, zSigned, ← Bool.decide_or, decide_eq_decide]; omega

end Sys2Proof.Machine
end

section
/-! Shifts and rotates (spec/41_shift_rotate.md): what a bit shifted in makes of the operand's number, SL, RLC, RL, SRA,
SR, RRC and RR from that, and SLA as the addition of the operand to itself. -/

namespace Sys2Proof.Machine

/-! ### The byte that is shifted and the bit that leaves it -/

theorem shiftLeftIn_toNat (a : Byte) (b : Bool) : (shiftLeftIn a b).toNat = 2 * a.toNat % 256 + b.toNat := by
  have hb : b.toNat < 2 := b.toNat_lt
  simp only [shiftLeftIn, BitVec.toNat_append, BitVec.extractLsb'_toNat, BitVec.toNat_ofBool]
  rw [Nat.shiftLeft_eq, mul_comm, ← Nat.two_pow_add_eq_or_of_lt (by simpa using hb)]
  simp only [Nat.shiftRight_zero]
  omega

theorem shiftRightIn_toNat (b : Bool) (a : Byte) : (shiftRightIn b a).toNat = a.toNat / 2 + 128 * b.toNat := by
  have ha := a.isLt
  simp only [shiftRightIn, BitVec.toNat_append, BitVec.extractLsb'_toNat, BitVec.toNat_ofBool]
  rw [Nat.shiftLeft_eq, mul_comm, ← Nat.two_pow_add_eq_or_of_lt (Nat.mod_lt _ (by decide))]
  simp only [Nat.shiftRight_eq_div_pow]
  omega

theorem toNat_msb (a : Byte) : a.msb.toNat = a.toNat / 128 := by
  have ha := a.isLt
  rw [BitVec.msb_eq_decide, Bool.toNat, Bool.cond_decide]
  split <;> omega

theorem lowBit_eq_decide (a : Byte) : a.getLsbD 0 = decide (a.toNat % 2 = 1) := by
  rw [BitVec.getLsbD, Nat.testBit_zero]

theorem toNat_lowBit (a : Byte) : (a.getLsbD 0).toNat = a.toNat % 2 := by
  rw [lowBit_eq_decide, Bool.toNat, Bool.cond_decide]
  split <;> omega

/-! ### The shifts and rotates that keep V -/

/-- The common part of rule R180 does what the rule says, with the number `x` of the byte written. -/
theorem writeShift_writesShift (s : State) (d : Gpr) {r : Byte} {c p : Bool} {x : Nat} (hr : r.toNat = x) (hc : c = p) :
    WritesShift s d x p (.next (s.writeShift d r c)) := by
  subst hr hc
  refine ⟨_, rfl, ?r, ?c, ?z, ?n, rfl, (writeShift_onlyChanges s d r c).mono ?frame⟩
  case r => exact congrArg BitVec.toNat (s.setX_xb_same d r)
  case c => simp [State.writeShift, State.shiftFlags]
  case z => simp [State.writeShift, State.shiftFlags, byte_beq_zero]
  case n => simp [State.writeShift, State.shiftFlags, BitVec.msb_eq_decide]
  case frame => simp [writesGpr]

theorem writeShift_left (s : State) (d : Gpr) (a : Byte) (b : Bool) :
    WritesShift s d (2 * a.toNat % 256 + b.toNat) (decide (128 ≤ a.toNat))
      (.next (s.writeShift d (shiftLeftIn a b) a.msb)) :=
  writeShift_writesShift s d (shiftLeftIn_toNat a b) (BitVec.msb_eq_decide a)

theorem writeShift_right (s : State) (d : Gpr) (a : Byte) (b : Bool) :
    WritesShift s d (a.toNat / 2 + 128 * b.toNat) (decide (a.toNat % 2 = 1))
      (.next (s.writeShift d (shiftRightIn b a) (a.getLsbD 0))) :=
  writeShift_writesShift s d (shiftRightIn_toNat b a) (lowBit_eq_decide a)

/-- Settles O35: three shifts to the left and four to the right, by the bit that comes in. -/
theorem shiftsAndRotates : Obligations.ShiftsAndRotates := by
  intro d s a
  have left := writeShift_left s d (s.x d)
  have right := writeShift_right s d (s.x d)
  refine ⟨left false, left s.c, ?rl, ?sra, right false, right s.c, ?rr⟩
  case rl => exact toNat_msb (s.x d) ▸ left (s.x d).msb
  case sra => exact toNat_msb (s.x d) ▸ right (s.x d).msb
  case rr => exact toNat_lowBit (s.x d) ▸ right ((s.x d).getLsbD 0)

/-! ### SLA -/

/-- A byte shifted left is the byte added to itself. -/
theorem shiftLeftIn_eq_addC (a : Byte) : shiftLeftIn a false = (addC a a false).r := by
  apply BitVec.eq_of_toNat_eq
  rw [shiftLeftIn_toNat, addC_r, Nat.two_mul]
  rfl

/-- The sign changes where that addition overflows. -/
theorem msb_xor_msb_eq_addC_v (a : Byte) : ((addC a a false).r.msb ^^ a.msb) = (addC a a false).v := by
  have v : (addC a a false).v = (a.msb == a.msb && (addC a a false).r.msb != a.msb) := rfl
  simpa using v.symm

/-- SLA writes the sum of the operand with itself and its overflow; N is SLA_N_RULE's (rule R181, D14). -/
theorem exec_sla (d : Gpr) (s : State) :
    let o := addC (s.x d) (s.x d) false
    exec (.sla d) s =
      .next (((s.setX d o.r).setFlags (s.x d).msb (o.r == 0#8) o.v (slaN s.chip.slaN o.r o.v)).advance 1) := by
  show execSla d s = _
  simp only [execSla, shiftLeftIn_eq_addC, msb_xor_msb_eq_addC_v]

/-- Settles O36: the result, the overflow and the sign are those of the operand added to itself (`exec_sla`). -/
theorem shiftLeftArithmetic : Obligations.ShiftLeftArithmetic := by
  intro d s a
  have doubled : (addC a a false).r.toNat = 2 * a.toNat % 256 := by rw [← shiftLeftIn_eq_addC, shiftLeftIn_toNat]; rfl
  have signed : a.toInt + a.toInt + (false.toNat : Int) = 2 * a.toInt := by simp [Int.two_mul]
  refine ⟨_, exec_sla d s, ?r, ?c, ?z, ?v, fun rule => ?msb, fun rule => ?vXorMsb, rfl,
    (exec_onlyChanges (exec_sla d s)).mono ?frame⟩
  case r => exact (congrArg BitVec.toNat (s.setX_xb_same d _)).trans doubled
  case c => rw [State.advance_c, State.setFlags_c, BitVec.msb_eq_decide]
  case z => rw [State.advance_z, State.setFlags_z, byte_beq_zero, doubled]
  case v => rw [State.advance_v, State.setFlags_v, addC_v, signed]
  case msb => rw [State.advance_n, State.setFlags_n, rule, slaN, BitVec.msb_eq_decide, doubled]
  case vXorMsb =>
    rw [State.advance_n, State.setFlags_n, rule, slaN, addC_n, signed, decide_eq_decide]
    omega
  case frame => simp [execParts, ownParts, flagsWritten, Instr.idm?, writesGpr]

end Sys2Proof.Machine
end

section
/-! The loads into a general register of the current bank (spec/42_load.md): one effect, with any operand, that moves a
byte into Rd as the logic instructions write theirs. -/

namespace Sys2Proof.Machine

/-- A load writes its byte as the bitwise instructions write their result (rules R11, R200). -/
theorem loadWith_eq_writeLogic (d : Gpr) (v : Byte) (s : State) : loadWith d v s = s.writeLogic d v := rfl

theorem exec_ldForm (d : Gpr) (src : Source) (s : State) : exec (ldForm d src) s = withSource src (loadWith d) s := by
  cases src <;> rfl

theorem withSource_load_writesByte {src : Source} {b : Byte} {s : State} (d : Gpr) (hv : src.value s = some b) :
    WritesByte s d (src.parts s) b (withSource src (loadWith d) s) :=
  withSource_writesByte hv (loadWith_eq_writeLogic d b s)

/-- A byte taken from the state before, as from a special or a table register, loads like an immediate one. -/
theorem loadWith_writesByte (s : State) (d : Gpr) (v : Byte) : WritesByte s d [] v (.next (loadWith d v s)) :=
  withSource_load_writesByte (src := .imm v) d rfl

/-- Settles O37: the four operand forms by `exec_ldForm`; LD from SR1 too takes the byte the register held before Z and N
were set. -/
theorem loadsIntoGpr : Obligations.LoadsIntoGpr := by
  constructor
  · intro d src b s hv
    rw [exec_ldForm]
    exact withSource_load_writesByte d hv
  · intro d r s
    exact ⟨loadWith_writesByte s d (s.spr r), loadWith_writesByte s d s.tbl, loadWith_writesByte s d s.tbh⟩

end Sys2Proof.Machine
end

section
/-! The conditions and the jumps that save no return address (spec/43_branch.md, rules R230 to R233). -/

namespace Sys2Proof.Machine

/-- Settles O42: the table is the definition, but for ULE and ZN, which it gives as the negations of UGT and PL. -/
theorem conditionTable : Obligations.ConditionTable := by
  intro s
  have ule : s.cond .ule = !s.cond .ugt := by
    show (!s.c || s.z) = !(s.c && !s.z)
    rw [Bool.not_and, Bool.not_not]
  have zn : s.cond .zn = !s.cond .pl := by
    show (s.z || s.n) = !(!s.n && !s.z)
    rw [Bool.not_and, Bool.not_not, Bool.not_not, Bool.or_comm]
  exact ⟨rfl, rfl, rfl, rfl, rfl, rfl, ule, rfl, rfl, rfl, rfl, zn, rfl, rfl, rfl, rfl⟩

/-- The offset of a taken JR: the signed displacement is added modulo the page (rule R232). -/
theorem jrOffset_toNat (a : PAddr) (off : BitVec 9) :
    ((a.extractLsb' 0 12 + off.signExtend 12).toNat : Int) = ((a.toNat % 4096 : Nat) + off.toInt) % 4096 := by
  have displacement : ((off.signExtend 12).toNat : Int) = off.toInt % 4096 := by
    rw [BitVec.signExtend, BitVec.toNat_ofInt]
    omega
  rw [BitVec.toNat_add, extract_toNat]
  omega

theorem exec_jr_taken {cc : Cond} {s : State} (h : s.cond cc = true) (off : BitVec 9) :
    exec (.jr cc off) s = .next (s.setPc (s.pageTarget (s.pc.extractLsb' 0 12 + off.signExtend 12))) := if_pos h

theorem exec_jr_untaken {cc : Cond} {s : State} (h : s.cond cc = false) (off : BitVec 9) :
    exec (.jr cc off) s = .next (s.advance 1) := if_neg (by simp [h])

theorem exec_ljp_taken {cc : Cond} {s : State} (h : s.cond cc = true) (imm : PAddr) :
    exec (.ljp cc imm) s = .next (s.setPc (s.longTarget imm)) := if_pos h

theorem exec_ljp_untaken {cc : Cond} {s : State} (h : s.cond cc = false) (imm : PAddr) :
    exec (.ljp cc imm) s = .next (s.advance 2) := if_neg (by simp [h])

/-- Settles O43: by the condition; the target of JR is its page with the offset `jrOffset_toNat` tells. -/
theorem jumps : Obligations.Jumps := by
  intro cc off imm s
  cases hc : s.cond cc with
  | true =>
    refine ⟨⟨_, exec_jr_taken hc off, ?_, setPc_onlyChanges s _⟩,
      ⟨_, exec_ljp_taken hc imm, loadsPc_longTarget s imm, setPc_onlyChanges s _⟩⟩
    have offset := jrOffset_toNat s.pc off
    rw [if_pos rfl, State.setPc_pc, pageTarget_toNat]
    omega
  | false =>
    exact ⟨⟨_, exec_jr_untaken hc off, rfl, advance_onlyChanges s 1⟩,
      ⟨_, exec_ljp_untaken hc imm, rfl, advance_onlyChanges s 2⟩⟩

end Sys2Proof.Machine
end

section
/-! Calls, links and interrupt entries undone by their returns (rules R234 to R241, R323, R325): what was pushed or linked
is what comes back, and with NP64KW = 0 none of them leaves the 64K words PC lies in. -/

namespace Sys2Proof.Machine

/-- A part that is as before need not be named among what changes. -/
theorem OnlyChanges.restored {p : Part} {w : List Part} {s t : State} (h : OnlyChanges (p :: w) s t)
    (hp : p.same s t) : OnlyChanges w s t := by
  intro q hq
  by_cases hqp : q = p
  · exact hqp ▸ hp
  · exact h q (by simp [hqp, hq])

/-! ### Addresses that a load of PC can reach -/

/-- The address lies in the 64K words PC lies in, if the chip never leaves them: with NP64KW = 0 PC[19:16] keeps its value
(rule R231 (c)). -/
def State.Reaches (s : State) (a : PAddr) : Prop := s.chip.np64kw = false → a.toNat / 65536 = s.pc.toNat / 65536

theorem reaches_seq (s : State) (n : Nat) : s.Reaches (seq s.pc n) := by
  intro _
  rw [seq_toNat]
  omega

theorem reaches_pageTarget (s : State) (off : BitVec 12) : s.Reaches (s.pageTarget off) := by
  intro _
  rw [pageTarget_toNat]
  omega

theorem LoadsPc.reaches {s : State} {a p : PAddr} (h : LoadsPc s a p) : s.Reaches p := by
  intro narrow
  have hp : p.toNat = s.pc.toNat / 65536 * 65536 + a.toNat % 65536 := by simpa [LoadsPc, narrow] using h
  omega

/-- An address that was within reach of `s` is loaded whole, from anywhere within reach of `s`. -/
theorem LoadsPc.eq_of_reaches {s t : State} {a p : PAddr} (h : LoadsPc t a p) (chip : t.chip = s.chip)
    (here : s.Reaches t.pc) (back : s.Reaches a) : p = a := by
  unfold LoadsPc at h
  rw [chip] at h
  cases width : s.chip.np64kw with
  | true => simpa [width] using h
  | false =>
    have hp : p.toNat = t.pc.toNat / 65536 * 65536 + a.toNat % 65536 := by simpa [width] using h
    have := here width
    have := back width
    exact BitVec.eq_of_toNat_eq (by omega)

/-! ### What was pushed is on top -/

theorem PushedAddr.sptr_sub {s t : State} {a : PAddr} (pushed : PushedAddr s t a) : t.sptr - 2#6 = s.sptr := by
  rw [pushed.1, BitVec.add_sub_cancel]

theorem topAddr_of_pushedAddr {s t : State} {a : PAddr} (pushed : PushedAddr s t a) (chip : t.chip = s.chip) :
    TopAddr t a := by
  have ptr := pushed.sptr_sub
  obtain ⟨-, used, slot, -⟩ := pushed
  refine ⟨by omega, ?_⟩
  rw [ptr, slot, chip]
  cases s.chip.np64kw with
  | true => exact .inl rfl
  | false => exact .inr ⟨rfl, rfl⟩

/-- The pop of an address pushed with room: PC takes it, and the stack pointer is as before the push. -/
theorem popAddr_of_pushedAddr {s t : State} {a : PAddr} (room : HasRoom s 2) (pushed : PushedAddr s t a)
    (chip : t.chip = s.chip) :
    Completes (popAddr t) fun u => LoadsPc t a u.pc ∧ Part.sptr.same s u ∧ OnlyChanges [.sptr, .pc] t u := by
  obtain ⟨p, hp, loads⟩ := popAddr_of_topAddr (topAddr_of_pushedAddr pushed chip)
  have notFull : s.hsFull = false := by
    cases full : s.hsFull with
    | false => rfl
    | true =>
      have := State.hsUsed_of_full full
      have := room.le
      omega
  exact ⟨_, hp, loads, ⟨pushed.sptr_sub, notFull.symm⟩, popAddr_onlyChanges hp⟩

/-! ### Return after a call -/

/-- RET after a push of the return address `a` and a jump to `p`, both within reach. -/
theorem ret_of_call {s t : State} {a p : PAddr} (room : HasRoom s 2)
    (call : andThen (pushAddr a s) (fun t => .next (t.setPc p)) = .next t) (target : s.Reaches p) (back : s.Reaches a) :
    Completes (exec .ret t) fun u => u.pc = a ∧ OnlyChanges [.pc, .slot s.sptr, .slot (s.sptr + 1#6)] s u := by
  obtain ⟨t', ht, pushed, hpc, frame⟩ := pushAddr_setPc_of_room room a p
  obtain rfl : t' = t := Host.Outcome.next.inj (ht.symm.trans call)
  have chip : t'.chip = s.chip := frame .chip (by simp [pushAddrParts])
  obtain ⟨u, hu, loads, ptr, popped⟩ := popAddr_of_pushedAddr room pushed chip
  refine ⟨u, hu, loads.eq_of_reaches chip (hpc ▸ target) back, OnlyChanges.restored ?_ ptr⟩
  exact (frame.trans popped).mono (by simp [pushAddrParts])

/-! ### Return after a link -/

/-- LRET loads what the link saved; with NP64KW = 0 the saved address lacks ILX, which then is not loaded either. -/
theorem loadsPc_of_savesLink {s t : State} {a : PAddr} (saved : SavesLink s t a) (chip : t.chip = s.chip) :
    LoadsPc t a (t.longTarget t.il) := by
  obtain ⟨low, high, upper⟩ := saved
  have link := il_toNat t
  have loads := loadsPc_longTarget t t.il
  unfold State.ilNat at link
  unfold LoadsPc at loads ⊢
  rw [chip] at loads ⊢
  cases width : s.chip.np64kw with
  | true =>
    simp only [width, if_true] at upper loads ⊢
    exact loads.trans (BitVec.eq_of_toNat_eq (by omega))
  | false =>
    simp only [width, Bool.false_eq_true, if_false] at loads ⊢
    omega

/-- LRET after a link with the return address `a` and a jump to `p`, both within reach. -/
theorem lret_of_link {s : State} {a p : PAddr} (target : s.Reaches p) (back : s.Reaches a) :
    Completes (exec .lret ((s.setLink a).setPc p)) fun u => u.pc = a ∧ OnlyChanges [.pc, .ill, .ilh, .ilx] s u := by
  have loads : LoadsPc ((s.setLink a).setPc p) a _ := loadsPc_of_savesLink (savesLink_setLink s a) rfl
  refine ⟨_, rfl, loads.eq_of_reaches (s := s) rfl target back, ?_⟩
  exact ((link_onlyChanges s a p).trans (setPc_onlyChanges _ _)).mono (by simp)

/-- Settles O47: the targets and the return addresses are all within reach of the calling instruction. -/
theorem callThenReturn : Obligations.CallThenReturn := by
  intro cc off imm s t taken
  have long : s.Reaches (s.longTarget imm) := (loadsPc_longTarget s imm).reaches
  refine ⟨fun room => ⟨fun h => ?_, fun h => ?_⟩, fun h => ?_, fun h => ?_⟩
  · exact ret_of_call room h (reaches_pageTarget s off) (reaches_seq s 1)
  · rw [exec_lcall_taken taken] at h
    exact ret_of_call room h long (reaches_seq s 2)
  · cases h
    exact lret_of_link (reaches_pageTarget s off) (reaches_seq s 1)
  · rw [exec_llnk_taken taken] at h
    cases h
    exact lret_of_link long (reaches_seq s 2)

/-! ### Return after an interrupt -/

/-- Settles O22: the entry pushes PC and clears ie, IRET pops it and sets ie. -/
theorem interruptThenReturn : Obligations.InterruptThenReturn := by
  intro s t v room entry
  obtain ⟨t', ht, rfl⟩ := takeException_eq_next.mp entry
  obtain ⟨t'', ht', pushed, frame⟩ := pushAddr_of_room room s.pc
  obtain rfl : t'' = t' := Host.Outcome.next.inj (ht'.symm.trans ht)
  have chip : t''.chip = s.chip := frame .chip (by simp [pushAddrParts])
  have entered := (frame.trans (setIe_onlyChanges t'' false)).trans (setPc_onlyChanges _ v)
  obtain ⟨u, hu, loads, ptr, popped⟩ :=
    popAddr_of_pushedAddr (t := (t''.setIe false).setPc v) room pushed chip
  refine ⟨u.setIe true, returnFromException_eq_next.mpr ⟨u, hu, rfl⟩, u.setIe_ie true, ptr.1,
    State.hsUsed_congr (t := u.setIe true) ptr.1 ptr.2, loads, OnlyChanges.restored (p := .sptr) ?_ ptr⟩
  exact ((entered.trans popped).trans (setIe_onlyChanges u true)).mono (by simp [pushAddrParts])

end Sys2Proof.Machine
end

section
/-! The end of a delay slot: which instructions write the run state and the pending target, and that the slot's own
instruction, which writes neither, leads to the target (rules R236, R352). -/

namespace Sys2Proof.Machine

/-! ### Who writes the run state and the pending target -/

/-- The run state and the pending target, which steer what follows an instruction. -/
def Part.isSteering : Part → Bool
  | .run => true
  | .delay => true
  | _ => false

theorem sprParts_not_steering (bank : Bool) (r : Spr) : ∀ p ∈ sprParts bank r, p.isSteering = false := by
  cases r <;> simp [sprParts, sr0Parts, flagParts, Part.isSteering]

theorem idmParts_not_steering (bank : Bool) (m : Idm) : ∀ p ∈ idmParts bank m, p.isSteering = false := by
  unfold idmParts
  cases m.mode <;> cases m.idx <;> simp [Part.isSteering]

theorem flagParts_not_steering : ∀ p ∈ flagParts, p.isSteering = false := by
  simp [flagParts, Part.isSteering]

/-- Of the instructions but BREAK that may stand in a delay slot none writes them. -/
theorem ownParts_not_steering {i : Instr} (s : State) (slot : oneCycle i = true) (notBrk : i ≠ .brk) :
    ∀ p ∈ ownParts s i, p.isSteering = false := by
  cases i
  case brk => exact absurd rfl notBrk
  case jnzd n imm => cases slot
  case stIdm m d => cases hd : idmDisplacement s.chip m <;> simp [ownParts, hd, Part.isSteering]
  case ldSpr0Imm r imm => exact sprParts_not_steering _ _
  case ldSprGpr r d => exact sprParts_not_steering _ _
  case swap d r => simpa [ownParts, Part.isSteering] using sprParts_not_steering s.idb r
  case popSpr r => simpa [ownParts, Part.isSteering] using sprParts_not_steering s.idb r
  all_goals simp [ownParts, Part.isSteering, sr0Parts, pushAddrParts]

theorem execParts_not_steering {i : Instr} (s : State) (slot : oneCycle i = true) (notBrk : i ≠ .brk) :
    ∀ p ∈ execParts s i, p.isSteering = false := by
  intro p hp
  simp only [execParts, List.mem_cons, List.mem_append] at hp
  rcases hp with rfl | (own | flag) | index
  · rfl
  · exact ownParts_not_steering s slot notBrk p own
  · exact flagParts_not_steering p (flagsWritten_subset i p flag)
  · split at index
    · exact idmParts_not_steering _ _ p index
    · cases index

theorem exec_keepsSteering {i : Instr} {s t : State} (h : exec i s = .next t) (slot : oneCycle i = true)
    (notBrk : i ≠ .brk) : t.run = s.run ∧ t.delay = s.delay := by
  have frame := execParts_not_steering s slot notBrk
  exact ⟨exec_onlyChanges h .run fun hm => Bool.noConfusion (frame _ hm),
    exec_onlyChanges h .delay fun hm => Bool.noConfusion (frame _ hm)⟩

/-! ### The step -/

theorem boundaryException_of_closed {s : State} (h : s.boundaryClosed = true) : boundaryException s = none := if_pos h

theorem step_of_exec {s t : State} {i : Instr} (pin : s.resetPin = false) (run : s.run = .running)
    (boundary : boundaryException s = none) (fetched : fetchInstr s = .next i) (slot : slotAllows s i = true)
    (executed : exec i s.beginInstr = .next t) : step s = .next (endInstr s t) :=
  (step_eq_stepInstr pin run boundary).trans (stepInstr_eq_next.mpr ⟨i, t, fetched, slot, executed, rfl⟩)

theorem endSlot_of_running {s t : State} {a : PAddr} (pending : s.delay = some a) (run : t.run = .running) :
    endSlot s t = t.setPc a := by
  unfold endSlot
  rw [pending]
  exact if_neg (by simp [run])

theorem endHalt_of_none {s : State} (h : s.haltAfter = none) (t : State) : endHalt s t = t := by
  unfold endHalt
  rw [h]

/-- Settles O15: the boundary before the slot is closed, the slot's instruction neither locks the core nor leaves a target
pending, so the end of the slot loads PC. -/
theorem delaySlotThenTarget : Obligations.DelaySlotThenTarget := by
  intro s t i a pin run pending fetched slot notBrk executed
  obtain ⟨runs, none_pending⟩ := exec_keepsSteering executed slot notBrk
  have running : t.run = .running := runs.trans run
  have closed : s.boundaryClosed = true := by simp [State.boundaryClosed, pending]
  have hstep := step_of_exec pin run (boundaryException_of_closed closed) fetched (by simp [slotAllows, slot]) executed
  rw [endInstr, endSlot_of_running pending running] at hstep
  have halt := endHalt_onlyChanges s (t.setPc a)
  refine ⟨_, hstep, halt .pc (by simp), (halt .delay (by simp)).trans none_pending, fun noHalt => ?_, ?_⟩
  · rw [endHalt_of_none noHalt]
    exact running
  · exact (((setPc_onlyChanges t a).trans halt).trans (sample_onlyChanges _)).mono (by simp)

end Sys2Proof.Machine
end

section
/-! Bit manipulation without memory (spec/44_bit.md): the edits of TF = 0, the tests, and the writes of TF and SR0. -/

namespace Sys2Proof.Machine

/-! ### The bit operations with TF = 0 -/

theorem bitOp_toR3 {s : State} (h : s.tf = false) (adr : Byte) (f : Byte → Byte) :
    bitOp adr f s =
      .next (((s.setX .r3 (f (s.dmRead (s.directAddr adr)))).zFlag (f (s.dmRead (s.directAddr adr)) == 0#8)).advance 1) := by
  rw [bitOp, if_neg (by simp [h])]
  rfl

/-- A bit operation into R3 writes the edited byte there, and Z from it; memory is in the frame. -/
theorem bitOp_writesR3 {s : State} {adr : Byte} (htf : s.tf = false) {f : Byte → Byte} {bs : BitVec 3} {v : Bool}
    (edits : EditsBit (s.dmRead (s.directAddr adr)) (f (s.dmRead (s.directAddr adr))) bs v) :
    Completes (bitOp adr f s) fun t =>
      EditsBit (s.dmRead (s.directAddr adr)) (t.xb s.bankSel .r3) bs v ∧ t.z = decide (t.xb s.bankSel .r3 = 0#8) ∧
        t.pc = seq s.pc 1 ∧ OnlyChanges (writesGpr s .r3 [.flagZ]) s t := by
  rw [bitOp_toR3 htf]
  generalize f (s.dmRead (s.directAddr adr)) = r at edits
  have byte : (((s.setX .r3 r).zFlag (r == 0#8)).advance 1).xb s.bankSel .r3 = r := s.setX_xb_same .r3 r
  refine ⟨_, rfl, ?_, ?_, rfl, ?_⟩
  · rwa [byte]
  · rw [byte, State.advance_z, State.zFlag, State.setFlags_z, Bool.beq_eq_decide_eq]
  · have frame := ((setX_onlyChanges s .r3 r).trans (zFlag_onlyChanges _ (r == 0#8))).trans (advance_onlyChanges _ 1)
    exact frame.mono (by simp [writesGpr])

/-- Settles O49: the three edits of O50, written to R3. -/
theorem bitOperationsToR3 : Obligations.BitOperationsToR3 := by
  intro adr bs s htf
  dsimp only
  rw [exec_bits, exec_bitr, exec_bitc]
  exact ⟨bitOp_writesR3 htf (editsBit_or _ bs), bitOp_writesR3 htf (editsBit_and_not _ bs),
    bitOp_writesR3 htf (editsBit_xor _ bs)⟩

/-! ### The tests -/

theorem exec_bitt (adr : Byte) (bs : BitVec 3) (s : State) :
    exec (.bitt adr bs) s = .next ((s.zFlag (!(s.dmRead (s.directAddr adr)).getLsbD bs.toNat)).advance 1) := rfl

theorem exec_tmImm (d : Gpr) (imm : Byte) (s : State) :
    exec (.tmImm d imm) s = .next ((s.logicFlags (s.x d &&& imm)).advance 1) := rfl

/-- Settles O51: each test is one flag update before PC advances. -/
theorem testsWriteFlagsOnly : Obligations.TestsWriteFlagsOnly := by
  intro adr imm bs d s
  refine ⟨⟨_, exec_bitt adr bs s, ?_, rfl, exec_onlyChanges (exec_bitt adr bs s)⟩,
    ⟨_, exec_tmImm d imm s, logicFlags_byteFlags s _, rfl, exec_onlyChanges (exec_tmImm d imm s)⟩⟩
  rw [State.advance_z, State.zFlag, State.setFlags_z]

/-! ### TF, SR0 and the bank -/

theorem exec_bms (sel : BitVec 4) (s : State) : exec (.bms sel) s = .next ({ s with tf := true }.advance 1) := rfl

theorem exec_bmc (sel : BitVec 4) (s : State) : exec (.bmc sel) s = .next ({ s with tf := false }.advance 1) := rfl

theorem exec_andSr0 (imm : Byte) (s : State) :
    exec (.andSr0 imm) s = .next ((s.setSpr .sr0 (s.sr0 &&& imm)).advance 1) := rfl

theorem exec_orSr0 (imm : Byte) (s : State) :
    exec (.orSr0 imm) s = .next ((s.setSpr .sr0 (s.sr0 ||| imm)).advance 1) := rfl

theorem exec_bank (b : BitVec 2) (s : State) : exec (.bank b) s = .next ((s.setBankSel b).advance 1) := rfl

/-- Settles O52: each is one write of TF, SR0 or the bank number before PC advances, and its frame is
`exec_onlyChanges`. -/
theorem modeInstructions : Obligations.ModeInstructions := by
  intro sel imm b s
  exact ⟨⟨_, exec_bms sel s, rfl, rfl, exec_onlyChanges (exec_bms sel s)⟩,
    ⟨_, exec_bmc sel s, rfl, rfl, exec_onlyChanges (exec_bmc sel s)⟩,
    ⟨_, exec_andSr0 imm s, fun _ => BitVec.getLsbD_and, rfl, exec_onlyChanges (exec_andSr0 imm s)⟩,
    ⟨_, exec_orSr0 imm s, fun _ => BitVec.getLsbD_or, rfl, exec_onlyChanges (exec_orSr0 imm s)⟩,
    ⟨_, exec_bank b s, State.setBankSel_bankSel s b, rfl, exec_onlyChanges (exec_bank b s)⟩⟩

end Sys2Proof.Machine
end

section
/-! SWAP (spec/45_misc.md, rule R280). -/

namespace Sys2Proof.Machine

/-- The status registers are SR0 and SR1 (rules R26, R30). -/
theorem isStatus_iff {r : Spr} : r.isStatus = true ↔ r = .sr0 ∨ r = .sr1 := by
  cases r <;> simp [Spr.isStatus]

theorem setSpr_sr0_of_ne {r : Spr} (h : r ≠ .sr0) (s : State) (v : Byte) : (s.setSpr r v).sr0 = s.sr0 := by
  cases r
  case sr0 => exact absurd rfl h
  all_goals simp [State.setSpr]

theorem setX_spr (s : State) (d : Gpr) (v : Byte) (r : Spr) : (s.setX d v).spr r = s.spr r := by
  cases r <;> rfl

theorem exec_swap {r : Spr} (h : r.isStatus = false) (d : Gpr) (s : State) :
    exec (.swap d r) s = .next (((s.setSpr r (s.x d)).setX d (s.spr r)).advance 1) := if_neg (by simp [h])

/-- Settles O53: away from SR0 the write of the SPR keeps the bank number, so Rd is a register of the bank before. -/
theorem swapExchanges : Obligations.SwapExchanges := by
  intro d r s
  refine ⟨fun notSr0 notSr1 => ?_, fun status => if_pos (isStatus_iff.mpr status)⟩
  have notStatus : r.isStatus = false := by
    rw [Bool.eq_false_iff, Ne, isStatus_iff]
    exact not_or.mpr ⟨notSr0, notSr1⟩
  have bank : (s.setSpr r (s.x d)).bankSel = s.bankSel :=
    congrArg (BitVec.extractLsb' 3 2) (setSpr_sr0_of_ne notSr0 s (s.x d))
  have executed := exec_swap notStatus d s
  refine ⟨_, executed, ?_, ?_, by simp, (exec_onlyChanges executed).mono ?_⟩
  · rw [advance_spr, setX_spr, State.setSpr_spr]
  · rw [State.advance_xb, ← bank, State.setX_xb_same]
  · simp [execParts, ownParts, flagsWritten, Instr.idm?, writesGpr]

end Sys2Proof.Machine
end

section
/-! The locked and the halted core (rules R287, R333, R334): the step that only samples, and the one that only wakes. -/

namespace Sys2Proof.Machine

theorem step_of_locked {s : State} (pin : s.resetPin = false) (run : s.run = .locked) : step s = .next s.sample := by
  unfold step
  rw [if_neg (by simp [pin]), run]

theorem step_of_asleep {s : State} {m : HaltMode} (pin : s.resetPin = false) (run : s.run = .halted m)
    (asleep : ¬WakeRequested s) : step s = .next s.sample := by
  unfold step
  rw [if_neg (by simp [pin]), run]
  exact if_neg (wakes_iff.not.mpr asleep)

/-- No exception is taken where none waits and no interrupt is deliverable (rule R321). -/
theorem boundaryException_of_none_due {s : State} (noTrap : s.sfPending = false)
    (no0 : s.deliverable0 = false) (no1 : s.deliverable1 = false) : boundaryException s = none := by
  unfold boundaryException
  rw [stackFullVector_of_not_waiting noTrap, interruptVector_eq_none.mpr ⟨no0, no1⟩]
  exact ite_self none

/-- Settles O17: the locked and the sleeping core only sample; a core that wakes runs again first, because nothing is due
at its boundary or the boundary is closed. -/
theorem lockedAndHaltedRest : Obligations.LockedAndHaltedRest := by
  intro s pin
  constructor
  · rintro (locked | ⟨⟨m, halted⟩, asleep⟩)
    · exact ⟨_, step_of_locked pin locked, sample_onlyChanges s⟩
    · exact ⟨_, step_of_asleep pin halted asleep, sample_onlyChanges s⟩
  · rintro ⟨m, halted⟩ woken quiet
    have boundary : boundaryException { s with run := .running } = none := by
      rcases quiet with ⟨noTrap, no0, no1⟩ | closed
      · exact boundaryException_of_none_due noTrap no0 no1
      · exact boundaryException_of_closed (Bool.or_eq_true_iff.mpr closed)
    exact ⟨_, step_of_wake pin halted woken boundary, rfl, (setRun_onlyChanges s .running).trans (sample_onlyChanges _)⟩

end Sys2Proof.Machine
end

section
/-! Exceptions at a boundary and the end of the instruction after STOP or IDLE (spec/60_exceptions.md): who writes the run
state, the one entry sequence for both exceptions, and the pushes that pass HS_DEPTH on a chip that traps there. -/

namespace Sys2Proof.Machine

/-! ### The instruction after STOP or IDLE (rule R333) -/

/-- BREAK alone writes the run state (rules R287, R334). The instructions that are 1W1C are shown not to by
`execParts_not_steering`. -/
theorem run_not_mem_execParts {i : Instr} (s : State) (notBrk : i ≠ .brk) : Part.run ∉ execParts s i := by
  cases slot : oneCycle i with
  | true => exact fun hm => Bool.noConfusion (execParts_not_steering s slot notBrk _ hm)
  | false =>
    unfold oneCycle at slot
    split at slot
    case h_13 => cases slot
    all_goals simp [execParts, ownParts, flagsWritten, Instr.idm?, pushAddrParts]

theorem exec_keepsRun {i : Instr} {s t : State} (h : exec i s = .next t) (notBrk : i ≠ .brk) : t.run = s.run :=
  exec_onlyChanges h .run (run_not_mem_execParts s notBrk)

theorem endSlot_of_none {s : State} (h : s.delay = none) (t : State) : endSlot s t = t := by
  unfold endSlot
  rw [h]

theorem endHalt_of_running {s t : State} {m : HaltMode} (pending : s.haltAfter = some m) (run : t.run = .running) :
    endHalt s t = { t with run := .halted m } := by
  unfold endHalt
  rw [pending]
  exact if_pos run

/-- Settles O16: the boundary is closed, so the instruction is executed; it leaves the core running, so its end halts it. -/
theorem haltAfterNextInstruction : Obligations.HaltAfterNextInstruction := by
  intro s t i m pin run pending noSlot fetched executed notBrk
  have closed : s.boundaryClosed = true := by simp [State.boundaryClosed, pending]
  have running : t.run = .running := (exec_keepsRun executed notBrk).trans run
  have hstep := step_of_exec pin run (boundaryException_of_closed closed) fetched (by simp [slotAllows, noSlot]) executed
  rw [endInstr, endSlot_of_none noSlot, endHalt_of_running pending running] at hstep
  exact ⟨_, hstep, rfl, (setRun_onlyChanges t (.halted m)).trans (sample_onlyChanges _)⟩

/-! ### Requests (rules R320, R321) -/

theorem deliverable0_iff {s : State} :
    s.deliverable0 = true ↔ s.sr0.getLsbD 1 = true ∧ s.sr0.getLsbD 6 = true ∧ s.inputs.irq0 = true := by
  simp [State.deliverable0, State.ie, State.ie0, and_assoc]

theorem deliverable1_iff {s : State} :
    s.deliverable1 = true ↔ s.sr0.getLsbD 1 = true ∧ s.sr0.getLsbD 7 = true ∧ s.inputs.irq1 = true := by
  simp [State.deliverable1, State.ie, State.ie1, and_assoc]

/-- Settles O19: a closed boundary takes nothing, and an open one only what waits or is deliverable. -/
theorem noExceptionTaken : Obligations.NoExceptionTaken := by
  intro s
  refine ⟨fun closed => boundaryException_of_closed (Bool.or_eq_true_iff.mpr closed), fun noTrap no0 no1 => ?_⟩
  exact boundaryException_of_none_due noTrap (Bool.eq_false_iff.mpr (deliverable0_iff.not.mpr no0))
    (Bool.eq_false_iff.mpr (deliverable1_iff.not.mpr no1))

/-! ### The entry sequence (rule R323) -/

theorem setSfPending_onlyChanges (s : State) (b : Bool) : OnlyChanges [.sfPending] s { s with sfPending := b } := by
  intro p hp
  cases p
  case sfPending => exact absurd (List.mem_singleton.mpr rfl) hp
  case sptr => exact ⟨rfl, rfl⟩
  case dm a => exact ⟨rfl, rfl, fun _ => rfl⟩
  all_goals rfl

/-- The step of an entry, once the push of the return address is known to complete. -/
theorem entry_of_push {s : State} {b : Bool} (v : PAddr)
    (push : Completes (pushAddr s.pc s) fun u => PushedAddr s u s.pc ∧ u.sfPending = b) :
    Completes (andThen (takeException v s) fun t => .next t.sample) fun t =>
      PushedAddr s t s.pc ∧ t.sfPending = b ∧ t.ie = false ∧ t.pc = v ∧ t.run = s.run ∧
        OnlyChanges ([.pc, .sr0 1, .sfPending, .inputs, .tick] ++ pushAddrParts s) s t := by
  obtain ⟨u, hu, pushed, waits⟩ := push
  have taken : takeException v s = .next ((u.setIe false).setPc v) := takeException_eq_next.mpr ⟨u, hu, rfl⟩
  have frame := takeException_onlyChanges taken
  rw [taken]
  refine ⟨_, rfl, pushed, waits, u.setIe_ie false, rfl, frame .run (by simp [pushAddrParts]), ?_⟩
  refine (frame.trans (sample_onlyChanges _)).mono ?_
  simp [pushAddrParts]

/-- Settles O18: the entry of rule R323 in the running core, whose push has room and so raises nothing. -/
theorem interruptEntry : Obligations.InterruptEntry := by
  intro s v taken room
  rw [step_of_takesInterrupt taken]
  obtain ⟨u, hu, pushed, kept⟩ := pushAddr_of_room (s := { s with run := .running }) room s.pc
  obtain ⟨t, ht, entered, waits, noIe, hpc, hrun, frame⟩ :=
    entry_of_push v ⟨u, hu, pushed, kept .sfPending (by simp [pushAddrParts])⟩
  refine ⟨t, ht, entered, noIe, hpc, hrun, OnlyChanges.restored (p := .sfPending) ?_ waits⟩
  refine ((setRun_onlyChanges s .running).trans frame).mono ?_
  simp [pushAddrParts]

/-! ### Pushes beyond HS_DEPTH (rule R324's variant) -/

/-- `s` with the stack-full exception raised as a push that passes HS_DEPTH raises it (log entry 15). -/
def State.noteStackFull (s : State) : State :=
  { s with sfPending := s.sfPending || decide (s.hsUsed ≤ s.chip.hsDepth.val) }

theorem noteStackFull_raises (s : State) : RaisesStackFull s s.noteStackFull := rfl

section
variable {s : State} {r : VectorRule}

theorem needRoom_eq_noteStackFull {k : Nat} (traps : s.chip.stackFull = .trap r) (h : PassesDepth s k) :
    needRoom k s = .next s.noteStackFull := needRoom_of_passesDepth traps h

/-- The push of a byte completes within the 64 slots; that it may raise the exception is all that `needRoom` adds. -/
theorem pushByte_of_passesDepth (traps : s.chip.stackFull = .trap r) (h : PassesDepth s 1) (v : Byte) :
    Completes (pushByte v s) fun t =>
      PushedByte s t v ∧ RaisesStackFull s t ∧ OnlyChanges [.sfPending, .slot s.sptr, .sptr] s t := by
  have hp : pushByte v s = .next ((s.noteStackFull.setHsSlot s.sptr (.byte v)).raiseSptr 1) := by
    rw [pushByte, needRoom_eq_noteStackFull traps h, andThen_next]
    rfl
  refine ⟨_, hp, ⟨rfl, raiseSptr_hsUsed h.2, ?_⟩, noteStackFull_raises s, pushByte_onlyChanges hp⟩
  rw [State.raiseSptr_hsSlot, State.hsSlot_setHsSlot, if_pos rfl]

/-- So does the push of an address. -/
theorem pushAddr_of_passesDepth (traps : s.chip.stackFull = .trap r) (h : PassesDepth s 2) (a : PAddr) :
    Completes (pushAddr a s) fun t =>
      PushedAddr s t a ∧ RaisesStackFull s t ∧ OnlyChanges (.sfPending :: pushAddrParts s) s t := by
  have hp : pushAddr a s = .next (((s.noteStackFull.setHsSlot s.sptr (if s.chip.np64kw then .addr20 a
      else .addr16 (BitVec.ofNat 16 a.toNat))).setHsSlot (s.sptr + 1#6) .unspecified).raiseSptr 2) := by
    rw [pushAddr, needRoom_eq_noteStackFull traps h, andThen_next, extract_low16]
    rfl
  refine ⟨_, hp, ⟨rfl, raiseSptr_hsUsed h.2, ?_, ?_⟩, noteStackFull_raises s, pushAddr_onlyChanges hp⟩
  · rw [State.raiseSptr_hsSlot, State.hsSlot_setHsSlot, if_neg (sptr_ne_next _), State.hsSlot_setHsSlot, if_pos rfl]
  · rw [State.raiseSptr_hsSlot, State.hsSlot_setHsSlot, if_pos rfl]

/-- PUSH GPR and PUSH SPR. -/
theorem pushByte_advance_of_passesDepth (traps : s.chip.stackFull = .trap r) (h : PassesDepth s 1) (v : Byte) :
    Completes (andThen (pushByte v s) fun t => .next (t.advance 1)) fun t =>
      PushedByte s t v ∧ RaisesStackFull s t ∧ t.pc = seq s.pc 1 ∧
        OnlyChanges [.pc, .sptr, .slot s.sptr, .sfPending] s t := by
  refine (pushByte_of_passesDepth traps h v).andThen fun t ⟨pushed, raised, frame⟩ => ⟨pushed, raised, ?_, ?_⟩
  · rw [State.advance_pc, frame.pc_eq (by simp)]
  · exact (frame.trans (advance_onlyChanges t 1)).mono (by simp)

/-- CALLS and a taken LCALL. -/
theorem pushAddr_setPc_of_passesDepth (traps : s.chip.stackFull = .trap r) (h : PassesDepth s 2) (a p : PAddr) :
    Completes (andThen (pushAddr a s) fun t => .next (t.setPc p)) fun t =>
      PushedAddr s t a ∧ RaisesStackFull s t ∧ t.pc = p ∧ OnlyChanges (.pc :: .sfPending :: pushAddrParts s) s t := by
  refine (pushAddr_of_passesDepth traps h a).andThen fun t ⟨pushed, raised, frame⟩ => ⟨pushed, raised, rfl, ?_⟩
  exact (frame.trans (setPc_onlyChanges t p)).mono (by simp [pushAddrParts])

/-- An entry whose push passes HS_DEPTH. -/
theorem entry_of_passesDepth (traps : s.chip.stackFull = .trap r) (h : PassesDepth s 2) (v : PAddr) :
    Completes (andThen (takeException v s) fun t => .next t.sample) fun t =>
      PushedAddr s t s.pc ∧ RaisesStackFull s t ∧ t.ie = false ∧ t.pc = v ∧ t.run = s.run ∧
        OnlyChanges ([.pc, .sr0 1, .sfPending, .inputs, .tick] ++ pushAddrParts s) s t := by
  obtain ⟨u, hu, pushed, raised, -⟩ := pushAddr_of_passesDepth traps h s.pc
  exact entry_of_push v ⟨u, hu, pushed, raised⟩

end

/-- Settles O20: the pushes by their lemmas; both entries begin in the running core, that of the stack-full exception with
the request answered, which its own push, made beyond HS_DEPTH already, does not raise again. -/
theorem stackFullException : Obligations.StackFullException := by
  intro d r cc off imm v vec s traps
  refine ⟨fun h => ?_, fun h => ⟨?_, fun taken => ?_, fun taken => ?_⟩, fun taken beyond le64 => ?_⟩
  · exact ⟨pushByte_advance_of_passesDepth traps h _, pushByte_advance_of_passesDepth traps h _⟩
  · obtain ⟨t, ht, pushed, raised, hpc, frame⟩ :=
      pushAddr_setPc_of_passesDepth traps h (seq s.pc 1) (s.pageTarget off)
    exact ⟨t, ht, pushed, raised, hpc ▸ pageTarget_toNat s off, frame⟩
  · obtain ⟨t, ht, pushed, raised, hpc, frame⟩ :=
      pushAddr_setPc_of_passesDepth traps h (seq s.pc 2) (s.longTarget imm)
    exact ⟨t, (exec_lcall_taken taken imm).trans ht, pushed, raised, hpc ▸ loadsPc_longTarget s imm, frame⟩
  · rw [step_of_takesInterrupt taken]
    obtain ⟨t, ht, pushed, raised, noIe, hpc, hrun, frame⟩ :=
      entry_of_passesDepth (s := { s with run := .running }) traps h v
    refine ⟨t, ht, pushed, raised, noIe, hpc, hrun, ((setRun_onlyChanges s .running).trans frame).mono ?_⟩
    simp [pushAddrParts]
  · rw [step_of_takesStackFull taken]
    have passes : PassesDepth s 2 := ⟨by unfold HasRoom; omega, le64⟩
    obtain ⟨t, ht, pushed, raised, noIe, hpc, hrun, frame⟩ :=
      entry_of_passesDepth (s := { s with run := .running, sfPending := false }) traps passes v
    refine ⟨t, ht, pushed, noIe, hpc, raised.trans (decide_eq_false (Nat.not_le.mpr beyond)), hrun, ?_⟩
    refine (((setRun_onlyChanges s .running).trans (setSfPending_onlyChanges _ false)).trans frame).mono ?_
    simp [pushAddrParts]

end Sys2Proof.Machine
end
